-- ==== Sys2Proof/Word.lean ====
section
/-! DEFINITION. The machine's word and byte (rule R8: word and address are exactly 32 bits, a byte is 8 bits). -/

namespace Sys2Proof

/-- A 32-bit word: a data word, a register's content or an address (rules R8, R9). Arithmetic on it is modulo 2^32. -/
abbrev Word := BitVec 32

/-- An 8-bit byte, "the atomic unit of storage for all devices" (rule R8). -/
abbrev Byte := BitVec 8

end Sys2Proof
end

