-- ==== Sys2Proof/Config.lean ====
section
/-! DEFINITION. What an implementation of the core fixes: the parameters of rule R7, the words of the device
protocol (rules R50 to R53), the launch values, and the free values (constants with no body). -/

namespace Sys2Proof.Config

/-- Parameter `SUB_ORDER` (rules R7, R216; conflict C4): which way SUB subtracts. -/
inductive SubOrder where
  | nosMinusTos
  | tosMinusNos
  deriving DecidableEq, Repr

/-- Parameter `SHIFT_COUNT_MODE` (rules R7, R208): how a shift reads its count from the popped word. -/
inductive ShiftCountMode where
  | signed32
  | mask6
  deriving DecidableEq, Repr

/-- Parameter `FLIP_FN` (rules R7, R140; conflict C4). `bitReversal` is the spec's default. `other` stands for any
other function of a word, the source's unexplained "2-bit-group lookup table" among them: its value is the free
function `flipOther` (assumption log 6). -/
inductive FlipFn where
  | bitReversal
  | other
  deriving DecidableEq, Repr

/-- The construction-time parameters of one CPU (rules R3, R7, R25). They are plain data held in State, so that every
statement about every state is a statement about every choice of them; no step changes them. -/
structure Params where
  /-- `HW_EMULATION`: EMULATE slots run natively where implemented (rules R3, R25, R182). -/
  hwEmulation : Bool
  /-- `HW_HALFWORD`: slots 1 and 2 are implemented (rules R181, R244, R245). -/
  hwHalfword : Bool
  /-- `SUB_ORDER` (rule R216). -/
  subOrder : SubOrder
  /-- `SHIFT_COUNT_MODE` (rule R208). -/
  shiftCountMode : ShiftCountMode
  /-- `FLIP_FN` (rule R140). -/
  flipFn : FlipFn
  /-- `BREAK_ADVANCES_PC` (rule R131). -/
  breakAdvancesPc : Bool
  deriving DecidableEq, Repr

/-- The kinds of a device error (rule R52). `other` is "any other error kind". -/
inductive ErrKind where
  | addressTooSmall
  | addressTooBig
  | notImplemented
  | notApplicable
  | invalidAddress
  | readOnly
  | noData
  | hardwareFault
  | allDevicesFaulted (count : Nat)
  | other (code : Nat)
  deriving DecidableEq, Repr, Inhabited

/-- The operations a bus error can name (rule R53), and `tick`, which has no error channel (rule R55). -/
inductive BusOp where
  | init
  | get
  | set
  | get32
  | set32
  | delete
  | flush
  | tick
  deriving DecidableEq, Repr

/-- One operation of the device capability (rule R50), with its arguments. `get_size` is not here: it has no error
channel and changes nothing, so it is a plain function of the device. -/
inductive Request where
  | get (addr : Word)
  | set (addr : Word) (val : Byte)
  | get32 (addr : Word)
  | set32 (addr : Word) (val : Word)
  | delete (start stop : Word)
  | flush
  | init
  | tick
  deriving DecidableEq, Repr

/-- What a device answers (rule R50). An operation that returns no value answers `ok 0`, and a byte is answered
zero-extended. `held` is an operation that does not return (rule R68). -/
inductive Answer where
  | ok (v : Word)
  | err (kind : ErrKind)
  | held
  deriving DecidableEq, Repr, Inhabited

/-- FREE VALUE (assumption log 6): the FLIP function of a CPU built with a `FLIP_FN` other than the default. -/
opaque flipOther : Word → Word

/-- FREE VALUE (assumption log 7): what collaborator device `id` answers to a request after the requests of `history`,
the latest first (rule R67: "an oracle answer"). -/
opaque collaboratorAnswer : (id : Nat) → (history : List Request) → Request → Answer

/-- FREE VALUE (assumption log 7): what collaborator device `id` answers to `get_size` after `history` (rule R50). -/
opaque collaboratorSize : (id : Nat) → (history : List Request) → Word

/-- DESIGN CHOICE, unsafe (assumption log 4): what a byte of a RAM-like device that nothing has written reads as. -/
def unwrittenByte : Byte := 0

/-- `PC_INIT` (rules R7, R31): 0. -/
def pcInit : Word := 0

/-- DESIGN CHOICE, unsafe (assumption log 2): `SP_INIT`, which the spec leaves to the loader (rule R31). The value is
the one every program of 95_test_vectors.md L3 starts with. -/
def spInit : Word := 0x8000

/-- DESIGN CHOICE, unsafe (assumption log 3): the size of the one RAM of the launch platform, `RAM(0x10000)`, the
common set-up of 95_test_vectors.md. -/
def ramSize : Word := 0x10000

/-- The parameters of the CPU after construction: the defaults of rule R7. `HW_EMULATION` has none: true is a
DESIGN CHOICE, unsafe (assumption log 1). -/
def params : Params where
  hwEmulation := true
  hwHalfword := false
  subOrder := .nosMinusTos
  shiftCountMode := .signed32
  flipFn := .bitReversal
  breakAdvancesPc := false

end Sys2Proof.Config
end

