-- ==== Sys2Proof/Syntax.lean ====
section
/-! DEFINITION. The instructions: one constructor per row of spec/opcode_table.json, in the table's order. The
table's four ILLEGAL rows are the one constructor `illegal`, which carries the byte (assumption log 18). -/

namespace Sys2Proof

/-- The instructions of the core. Every instruction is one byte (rule R100). An operand is the field of the byte as
the encoding gives it (rule R101); constructors with none are whole bytes. -/
inductive Instr where
  /-- `0x00` (rule R131). -/
  | breakpoint
  /-- `0x02` (rule R132). -/
  | pushsp
  /-- `0x04` (rule R133). -/
  | poppc
  /-- `0x05` (rule R134). -/
  | add
  /-- `0x06` (rule R135). -/
  | and
  /-- `0x07` (rule R136). -/
  | or
  /-- `0x08` (rule R137). -/
  | load
  /-- `0x09` (rule R138). -/
  | not
  /-- `0x0A` (rule R140). -/
  | flip
  /-- `0x0B` (rule R141). -/
  | nop
  /-- `0x0C` (rule R142). -/
  | store
  /-- `0x0D` (rule R144). -/
  | popsp
  /-- `0x01`, `0x03`, `0x0E`, `0x0F`: a byte that matches no decode step (rules R108, R273). -/
  | illegal (op : Byte)
  /-- `0x80..0xFF`, `i = op[6:0]` (rules R160, R161). -/
  | im (i : BitVec 7)
  /-- `0x40..0x5F`, `x = op[4:0]` (rule R162). -/
  | storesp (x : BitVec 5)
  /-- `0x60..0x7F`, `x = op[4:0]` (rule R163). -/
  | loadsp (x : BitVec 5)
  /-- `0x10..0x1F`, `n = op[3:0]` (rule R164). -/
  | addsp (n : BitVec 4)
  /-- `0x20`, EMULATE slot 0, reserved and unnamed (rules R183, R185). -/
  | emulate0
  /-- `0x21`, slot 1 (rule R244). -/
  | loadh
  /-- `0x22`, slot 2 (rule R245). -/
  | storeh
  /-- `0x23`, slot 3 (rule R200). -/
  | lessthan
  /-- `0x24`, slot 4 (rule R201). -/
  | lessthanorequal
  /-- `0x25`, slot 5 (rule R202). -/
  | ulessthan
  /-- `0x26`, slot 6 (rule R203). -/
  | ulessthanorequal
  /-- `0x27`, slot 7 (rule R204). -/
  | swap
  /-- `0x28`, slot 8 (rule R205). -/
  | mult
  /-- `0x29`, slot 9 (rule R209). -/
  | lshiftright
  /-- `0x2A`, slot 10 (rule R210). -/
  | ashiftleft
  /-- `0x2B`, slot 11 (rule R211). -/
  | ashiftright
  /-- `0x2C`, slot 12, reserved (rules R183, R185). -/
  | call
  /-- `0x2D`, slot 13 (rule R213). -/
  | eq
  /-- `0x2E`, slot 14 (rule R214). -/
  | neq
  /-- `0x2F`, slot 15 (rule R215). -/
  | neg
  /-- `0x30`, slot 16 (rule R216). -/
  | sub
  /-- `0x31`, slot 17 (rule R217). -/
  | xor
  /-- `0x32`, slot 18 (rule R240). -/
  | loadb
  /-- `0x33`, slot 19 (rule R241). -/
  | storeb
  /-- `0x34`, slot 20 (rule R218). -/
  | div
  /-- `0x35`, slot 21 (rule R219). -/
  | mod
  /-- `0x36`, slot 22 (rule R250). -/
  | eqbranch
  /-- `0x37`, slot 23 (rule R251). -/
  | neqbranch
  /-- `0x38`, slot 24 (rule R252). -/
  | poppcrel
  /-- `0x39`, slot 25, reserved (rules R183, R185). -/
  | config
  /-- `0x3A`, slot 26, reserved (rules R183, R185). -/
  | pushpc
  /-- `0x3B`, slot 27, reserved (rules R183, R185). -/
  | syscall
  /-- `0x3C`, slot 28 (rule R253). -/
  | pushspadd
  /-- `0x3D`, slot 29, reserved (rules R183, R185). -/
  | halfmult
  /-- `0x3E`, slot 30 (rule R254). -/
  | callpcrel
  /-- `0x3F`, slot 31, reserved and unnamed (rules R183, R185). -/
  | emulate31
  deriving DecidableEq, Repr

end Sys2Proof
end

