-- ==== Sys2Proof/WellFormed.lean ====
section
/-! DEFINITION. Which instruction terms stand for a byte of the opcode map. The widths of the operand fields are in
their types, so one check is left: an ILLEGAL term carries one of the four bytes that match no decode step. -/

namespace Sys2Proof

/-- The bytes that match no step of the decode order (rules R107, R108). -/
def illegalBytes : List Byte := [0x01, 0x03, 0x0E, 0x0F]

/-- The term is one the decoder can give. -/
def Instr.wf : Instr → Bool
  | .illegal op => illegalBytes.contains op
  | .im _ | .storesp _ | .loadsp _ | .addsp _ => true
  | .breakpoint | .pushsp | .poppc | .add | .and | .or | .load | .not | .flip | .nop | .store | .popsp => true
  | .emulate0 | .loadh | .storeh | .lessthan | .lessthanorequal | .ulessthan | .ulessthanorequal | .swap => true
  | .mult | .lshiftright | .ashiftleft | .ashiftright | .call | .eq | .neq | .neg | .sub | .xor => true
  | .loadb | .storeb | .div | .mod | .eqbranch | .neqbranch | .poppcrel | .config | .pushpc | .syscall => true
  | .pushspadd | .halfmult | .callpcrel | .emulate31 => true

end Sys2Proof
end

