-- ==== Sys2Proof/Decode.lean ====
section
/-! DEFINITION. The decoder (rules R100 to R108), the encoder from the same tables, the opcode table's match and mask
of each instruction, and the assembler forms of rules R111 and R112. -/

namespace Sys2Proof

/-! ## Decoding -/

/-- The exact-match table (rule R103), in the spec's order. PRESUMED by the spec, unsafe: all values but those of ADD
and NOP (D3; assumption log 23). -/
def exactTable : List (Byte × Instr) :=
  [ (0x00, .breakpoint), (0x02, .pushsp), (0x04, .poppc), (0x05, .add), (0x06, .and), (0x07, .or),
    (0x08, .load), (0x09, .not), (0x0A, .flip), (0x0B, .nop), (0x0C, .store), (0x0D, .popsp) ]

/-- Decode step 1: the exact operation of a byte, if it is in the table (rule R102). -/
def exactOp (op : Byte) : Option Instr :=
  (exactTable.find? fun row => row.1 == op).map fun row => row.2

/-- The 32 slots of the extended-operation table in index order (rule R185). PRESUMED by the spec, unsafe: the slot
numbers (D4; assumption log 23). -/
def emulateTable : List Instr :=
  [ .emulate0, .loadh, .storeh, .lessthan, .lessthanorequal, .ulessthan, .ulessthanorequal, .swap,
    .mult, .lshiftright, .ashiftleft, .ashiftright, .call, .eq, .neq, .neg ] ++
  [ .sub, .xor, .loadb, .storeb, .div, .mod, .eqbranch, .neqbranch,
    .poppcrel, .config, .pushpc, .syscall, .pushspadd, .halfmult, .callpcrel, .emulate31 ]

/-- The instruction of EMULATE slot `index` (rules R106, R185). -/
def emulateSlot (index : BitVec 5) : Instr :=
  emulateTable.getD index.toNat .emulate31

/-- The decode of a fetched byte, "a fixed, prioritized decode order" where the first match wins (rule R102). Every
byte decodes; one that matches no step decodes to `illegal`. -/
def decodeByte (op : Byte) : Instr :=
  match exactOp op with
  | some i => i
  | none =>
    if op &&& 0x80 ≠ 0 then .im (op.extractLsb' 0 7)
    else if op &&& 0xE0 = 0x40 then .storesp (op.extractLsb' 0 5)
    else if op &&& 0xE0 = 0x60 then .loadsp (op.extractLsb' 0 5)
    else if op &&& 0xE0 = 0x20 then emulateSlot (op.extractLsb' 0 5)
    else if op &&& 0xF0 = 0x10 then .addsp (op.extractLsb' 0 4)
    else .illegal op

/-- Why bytes hold no instruction: there is no byte left. No byte value is rejected (rule R107). -/
inductive DecodeError where
  | noByte
  deriving DecidableEq, Repr

/-- Decode the first instruction of a byte sequence, and what follows it (rule R100: exactly one byte). -/
def decode : List Byte → Except DecodeError (Instr × List Byte)
  | [] => .error .noByte
  | op :: rest => .ok (decodeByte op, rest)

/-- The instruction the decoder reads from the opcode-table word `w` of `nbits` bits; the bits above are zero. -/
def decodeTableWord (nbits w : Nat) : Option Instr :=
  match decode [BitVec.ofNat 8 (w % 2 ^ nbits)] with
  | .ok (i, _) => some i
  | .error _ => none

/-! ## Encoding -/

/-- The EMULATE byte of slot `index`: `0x20 | index` (rule R106). -/
def emulateByte (index : BitVec 5) : Byte := 0b001#3 ++ index

/-- The byte of an instruction (rules R101, R103, R106, R185). -/
def encode : Instr → Byte
  | .breakpoint => 0x00
  | .pushsp => 0x02
  | .poppc => 0x04
  | .add => 0x05
  | .and => 0x06
  | .or => 0x07
  | .load => 0x08
  | .not => 0x09
  | .flip => 0x0A
  | .nop => 0x0B
  | .store => 0x0C
  | .popsp => 0x0D
  | .illegal op => op
  | .im i => 0b1#1 ++ i
  | .storesp x => 0b010#3 ++ x
  | .loadsp x => 0b011#3 ++ x
  | .addsp n => 0b0001#4 ++ n
  | .emulate0 => emulateByte 0
  | .loadh => emulateByte 1
  | .storeh => emulateByte 2
  | .lessthan => emulateByte 3
  | .lessthanorequal => emulateByte 4
  | .ulessthan => emulateByte 5
  | .ulessthanorequal => emulateByte 6
  | .swap => emulateByte 7
  | .mult => emulateByte 8
  | .lshiftright => emulateByte 9
  | .ashiftleft => emulateByte 10
  | .ashiftright => emulateByte 11
  | .call => emulateByte 12
  | .eq => emulateByte 13
  | .neq => emulateByte 14
  | .neg => emulateByte 15
  | .sub => emulateByte 16
  | .xor => emulateByte 17
  | .loadb => emulateByte 18
  | .storeb => emulateByte 19
  | .div => emulateByte 20
  | .mod => emulateByte 21
  | .eqbranch => emulateByte 22
  | .neqbranch => emulateByte 23
  | .poppcrel => emulateByte 24
  | .config => emulateByte 25
  | .pushpc => emulateByte 26
  | .syscall => emulateByte 27
  | .pushspadd => emulateByte 28
  | .halfmult => emulateByte 29
  | .callpcrel => emulateByte 30
  | .emulate31 => emulateByte 31

/-- The formats of rule R101. `illegal` bytes and exact bytes are both the format EXACT in the opcode table. -/
inductive Format where
  | exact
  | imm7
  | storesp
  | loadsp
  | emu5
  | addsp
  deriving DecidableEq, Repr

/-- The format of an instruction (rule R101). -/
def Instr.format : Instr → Format
  | .breakpoint | .pushsp | .poppc | .add | .and | .or | .load | .not | .flip | .nop | .store | .popsp => .exact
  | .illegal _ => .exact
  | .im _ => .imm7
  | .storesp _ => .storesp
  | .loadsp _ => .loadsp
  | .addsp _ => .addsp
  | .emulate0 | .loadh | .storeh | .lessthan | .lessthanorequal | .ulessthan | .ulessthanorequal | .swap => .emu5
  | .mult | .lshiftright | .ashiftleft | .ashiftright | .call | .eq | .neq | .neg | .sub | .xor => .emu5
  | .loadb | .storeb | .div | .mod | .eqbranch | .neqbranch | .poppcrel | .config | .pushpc | .syscall => .emu5
  | .pushspadd | .halfmult | .callpcrel | .emulate31 => .emu5

/-- The bits of a byte that select a format, and their value (the selecting bits of rule R101; EXACT: the four high
bits are zero, rule R103). -/
def Format.selects : Format → Byte × Byte
  | .exact => (0xF0, 0x00)
  | .imm7 => (0x80, 0x80)
  | .storesp => (0xE0, 0x40)
  | .loadsp => (0xE0, 0x60)
  | .emu5 => (0xE0, 0x20)
  | .addsp => (0xF0, 0x10)

/-! ## The assembler's forms (rules R111, R112) -/

/-- `im i` with `i` in -64 .. 63 (rule R111). -/
def asmIm (i : Int) : Option Byte :=
  if -64 ≤ i ∧ i ≤ 63 then some (0x80 ||| (BitVec.ofInt 8 i &&& 0x7F)) else none

/-- `storesp k` with `k = 4j`, `j` in 0 .. 31 (rule R111). -/
def asmStoresp (k : Nat) : Option Byte :=
  if k % 4 = 0 ∧ k < 128 then some (0x40 ||| (BitVec.ofNat 8 (k / 4) ^^^ 0x10)) else none

/-- `loadsp k` with `k = 4j`, `j` in 0 .. 31 (rule R111). -/
def asmLoadsp (k : Nat) : Option Byte :=
  if k % 4 = 0 ∧ k < 128 then some (0x60 ||| (BitVec.ofNat 8 (k / 4) ^^^ 0x10)) else none

/-- `addsp k` with `k = 4n`, `n` in 0 .. 15 (rule R111). -/
def asmAddsp (k : Nat) : Option Byte :=
  if k % 4 = 0 ∧ k < 64 then some (0x10 ||| BitVec.ofNat 8 (k / 4)) else none

/-- `emulate n` with `n` in 0 .. 31 (rule R111). -/
def asmEmulate (n : Nat) : Option Byte :=
  if n < 32 then some (0x20 ||| BitVec.ofNat 8 n) else none

/-- How many IM bytes the pseudo-instruction `imm v` takes (rule R112). -/
def immLength (v : Word) : Nat :=
  if -2 ^ 6 ≤ v.toInt ∧ v.toInt ≤ 2 ^ 6 - 1 then 1
  else if -2 ^ 13 ≤ v.toInt ∧ v.toInt ≤ 2 ^ 13 - 1 then 2
  else if -2 ^ 20 ≤ v.toInt ∧ v.toInt ≤ 2 ^ 20 - 1 then 3
  else if -2 ^ 27 ≤ v.toInt ∧ v.toInt ≤ 2 ^ 27 - 1 then 4
  else 5

/-- The literal of IM byte `j` of the `k`-byte expansion of `imm v` (rule R112). -/
def immLiteral (v : Word) (k j : Nat) : BitVec 7 := (v >>> (7 * (k - 1 - j))).setWidth 7

/-- The pseudo-instruction `imm v`: the shortest IM chain that leaves `v` on the stack (rule R112). -/
def immLiterals (v : Word) : List (BitVec 7) :=
  (List.range (immLength v)).map (immLiteral v (immLength v))

end Sys2Proof
end

