-- ==== Sys2Proof/Machine/State.lean ====
section
/-! DEFINITION. The machine's state as plain data (rules R20 to R31), its devices (rules R50, R51, R69), the reasons a
step can stop (rules R270 to R275), and the state after construction (rule R31). -/

namespace Sys2Proof.Machine

open Sys2Proof.Config

/-- The bytes a device stores: (address, byte) cells in one canonical form (`Memory.wf`). An address that is not
listed holds `Config.unwrittenByte`. -/
structure Memory where
  cells : List Host.Cell
  deriving DecidableEq, Repr

/-- A device that is not itself a bus (rule R50).
`ram` is the reference device RAM(S) of rule R69.
`rom` is a read-only device (rule R82), shaped like RAM(S) but for its writes (assumption log 13).
`window` is the test device W(lo, hi) of 95_test_vectors.md: no native word accessor, so words compose (rule R63).
`failing` answers one error kind to every operation: the test device F, or a device that owns nothing.
`collaborator` is any other device: an external collaborator whose answers are free values (rule R67, log 7);
`hasGet32` and `hasSet32` say which of the two optional word accessors it has (assumption log 20), `history` holds the
requests it has served, the latest first. -/
inductive Leaf where
  | ram (size : Word) (mem : Memory)
  | rom (size : Word) (mem : Memory)
  | window (lo hi : Word) (mem : Memory)
  | failing (kind : ErrKind)
  | collaborator (id : Nat) (hasGet32 hasSet32 : Bool) (history : List Request)
  deriving DecidableEq, Repr

mutual

/-- A device: a leaf, or a bus nested as a device (rule R51). -/
inductive Device where
  | leaf (l : Leaf)
  | bus (b : Bus)
  deriving DecidableEq, Repr

/-- A bus: an ordered sequence of owned devices (rule R51), `cons` at position 0. -/
inductive Bus where
  | empty
  | cons (d : Device) (rest : Bus)
  deriving DecidableEq, Repr

end

/-- The execution-state tag (rule R24). -/
inductive RunState where
  | stopped
  | running
  | sleeping
  | waiting
  deriving DecidableEq, Repr

/-- The cause of an arithmetic fault (rules R220, R275). -/
inductive ArithCause where
  | divideByZero
  | divideOverflow
  deriving DecidableEq, Repr

/-- What a step that gives a next state returned to its caller (rule R270). The other two of the five outcomes,
NotRunning and BusFault, are `Fault`s (assumption log 9). -/
inductive StepReport where
  | ok
  | decodeFault (op : Byte)
  | arithmeticFault (cause : ArithCause)
  deriving DecidableEq, Repr

/-- A fatal bus error as the CPU sees it (rules R53, R73): the kind, the position of the device that produced it, the
operation and the address. `position` is none where the bus itself is the producer, `allDevicesFaulted`, whose count
stands in its place; `addr` is none for an operation without an address. -/
structure BusError where
  kind : ErrKind
  position : Option Nat
  op : BusOp
  addr : Option Word
  deriving DecidableEq, Repr

/-- The state of the CPU and its bus (rules R20 to R31). -/
structure State where
  /-- Byte address of the next opcode (rule R21). -/
  pc : Word
  /-- Stack pointer (rule R22). -/
  sp : Word
  /-- Immediate-chaining flag `last_im` (rule R23). -/
  lastIm : Bool
  /-- Execution-state tag (rule R24). -/
  state : RunState
  /-- Construction parameters (rules R7, R25). -/
  params : Params
  /-- The owned bus with its devices' contents (rule R26). -/
  bus : Bus
  /-- The model's own: the step-local `prev_im` (rules R23, R130; assumption log 11). -/
  prevIm : Bool
  /-- The model's own: what the last step that gave a next state returned (rule R270; assumption log 9). -/
  report : StepReport
  deriving DecidableEq, Repr

/-- Why a step gives no next state. -/
inductive Fault where
  /-- Raised by `step` when `state` is not Running (rule R271; assumption log 10). Safe: nothing changes, as the rule
  says. -/
  | notRunning
  /-- Raised by any bus access whose answer is a fatal error (rule R274). `left` is the state the step leaves: earlier
  effects kept, `pc` and `state` unchanged (rule R276). Safe: a retry is a step from `left` (rule R277). -/
  | busFault (error : BusError) (left : State)
  /-- Raised by an access to a device that does not return (rule R68). Safe: the machine is stuck at the access. -/
  | deviceHolds (op : BusOp) (addr : Option Word)
  deriving DecidableEq, Repr

/-- Why an instruction has no meaning in the model. -/
inductive Refusal where
  /-- Raised by an arm of `exec` for an instruction not modelled yet; no arm is left that raises it. Safe. -/
  | notModelled (mnemonic : String)
  deriving DecidableEq, Repr

/-- Memory as it is after construction: nothing written. -/
def Memory.blank : Memory := ⟨[]⟩

/-- The bus after construction: one RAM-like device at address 0. DESIGN CHOICE, unsafe (assumption log 3). -/
def Bus.initial : Bus := .cons (.leaf (.ram ramSize .blank)) .empty

/-- The machine after construction, the only reset there is (rules R31, R300). -/
def State.reset : State where
  pc := pcInit
  sp := spInit
  lastIm := false
  state := .stopped
  params := Config.params
  bus := .initial
  prevIm := false
  report := .ok

end Sys2Proof.Machine
end

