-- ==== Sys2Proof/Machine/Memory.lean ====
section
/-! DEFINITION. A device's stored bytes: reading and writing a byte and a big-endian word, and the canonical form. -/

namespace Sys2Proof.Machine

open Sys2Proof.Config

/-- The byte a cell list holds at address `a`; an address that is not listed holds `unwrittenByte`. -/
def cellsRead : List Host.Cell → Nat → Byte
  | [], _ => unwrittenByte
  | (k, v) :: rest, a => if a = k then v else cellsRead rest a

/-- Write a byte into a cell list that is sorted by address: `unwrittenByte` removes the entry. -/
def cellsWrite : List Host.Cell → Nat → Byte → List Host.Cell
  | [], a, v => if v = unwrittenByte then [] else [(a, v)]
  | (k, w) :: rest, a, v =>
    if a < k then
      if v = unwrittenByte then (k, w) :: rest else (a, v) :: (k, w) :: rest
    else if a = k then
      if v = unwrittenByte then rest else (a, v) :: rest
    else (k, w) :: cellsWrite rest a v

/-- The byte stored at address `a`. -/
def Memory.read (m : Memory) (a : Nat) : Byte := cellsRead m.cells a

/-- Store the byte `v` at address `a`. -/
def Memory.write (m : Memory) (a : Nat) (v : Byte) : Memory := ⟨cellsWrite m.cells a v⟩

/-- The big-endian word at `a .. a+3` (rules R69, R77). -/
def Memory.readWord (m : Memory) (a : Nat) : Word :=
  m.read a ++ m.read (a + 1) ++ m.read (a + 2) ++ m.read (a + 3)

/-- Byte `k` of a word in big-endian order: byte 0 is the most significant (rule R77). -/
def wordByte (v : Word) (k : Nat) : Byte := (v >>> (8 * (3 - k))).setWidth 8

/-- Store the word `v` at `a .. a+3`, most significant byte at `a` (rules R69, R77). -/
def Memory.writeWord (m : Memory) (a : Nat) (v : Word) : Memory :=
  (((m.write a (wordByte v 0)).write (a + 1) (wordByte v 1)).write (a + 2) (wordByte v 2)).write (a + 3) (wordByte v 3)

/-- The canonical form: addresses strictly rising, and no entry equal to what an unlisted address holds. -/
abbrev Memory.wf (m : Memory) : Prop :=
  m.cells.Pairwise (fun x y => x.1 < y.1) ∧ ∀ c ∈ m.cells, c.2 ≠ unwrittenByte

end Sys2Proof.Machine
end

