-- ==== Sys2Proof/Machine/Bus.lean ====
section
/-! DEFINITION. The devices' answers (rules R50, R63, R69, R82), the error classifier (rule R52) and the bus: probing,
broadcasting, nesting, size (rules R54 to R66). A request is handled by one function on devices and buses; it
returns the device or bus as the request leaves it, beside the answer. -/

namespace Sys2Proof.Machine

open Sys2Proof.Config

/-! ## Requests and error kinds -/

/-- The soft kinds, "this device does not own this address" (rule R52). -/
def isSoft : ErrKind → Bool
  | .addressTooSmall | .addressTooBig | .notImplemented | .notApplicable => true
  | .invalidAddress | .readOnly | .noData => true
  | .hardwareFault | .allDevicesFaulted _ | .other _ => false

/-- Every kind outside the soft set is fatal (rule R52). -/
def isFatal (k : ErrKind) : Bool := !isSoft k

/-- The operation a request names (rule R53). -/
def requestOp : Request → BusOp
  | .get _ => .get
  | .set _ _ => .set
  | .get32 _ => .get32
  | .set32 _ _ => .set32
  | .delete _ _ => .delete
  | .flush => .flush
  | .init => .init
  | .tick => .tick

/-- The address an error of the request is annotated with (rule R53). DESIGN CHOICE, unsafe for the annotation only: of
`delete(from, to)`, for which the spec says only "the address", it is `from` (assumption log 27). -/
def requestAddr : Request → Option Word
  | .get a | .set a _ | .get32 a | .set32 a _ | .delete a _ => some a
  | .flush | .init | .tick => none

/-- `get` and `get32` probe, the first owner wins (rules R56, R61); every other operation reaches every device
(rules R54, R55, R57, R58, R59, R62). -/
def isProbe : Request → Bool
  | .get _ | .get32 _ => true
  | .set _ _ | .set32 _ _ | .delete _ _ | .flush | .init | .tick => false

/-! ## Leaf devices -/

/-- The leaf stores a byte for address `a`. -/
def leafOwns : Leaf → Nat → Bool
  | .ram size _, a => a < size.toNat
  | .rom size _, a => a < size.toNat
  | .window lo hi _, a => lo.toNat ≤ a ∧ a ≤ hi.toNat
  | .failing _, _ => false
  | .collaborator _ _ _ _, _ => false

/-- The leaf's stored bytes. -/
def leafMemory : Leaf → Memory
  | .ram _ m | .rom _ m | .window _ _ m => m
  | .failing _ | .collaborator _ _ _ _ => .blank

/-- The leaf has its own `get32` (rules R50, R61, R69). -/
def leafHasGet32 : Leaf → Bool
  | .ram _ _ | .rom _ _ | .failing _ => true
  | .window _ _ _ => false
  | .collaborator _ hasGet32 _ _ => hasGet32

/-- The leaf has its own `set32` (rules R50, R62, R69); `get32` and `set32` are each optional. -/
def leafHasSet32 : Leaf → Bool
  | .ram _ _ | .rom _ _ | .failing _ => true
  | .window _ _ _ => false
  | .collaborator _ _ hasSet32 _ => hasSet32

/-- RAM(S) (rule R69). -/
def ramServe (size : Word) (m : Memory) : Request → Leaf × Answer
  | .get a =>
    if a.toNat < size.toNat then (.ram size m, .ok ((m.read a.toNat).setWidth 32))
    else (.ram size m, .err .addressTooBig)
  | .set a v =>
    if a.toNat < size.toNat then (.ram size (m.write a.toNat v), .ok 0)
    else (.ram size m, .err .addressTooBig)
  | .get32 a =>
    if a.toNat + 3 < size.toNat then (.ram size m, .ok (m.readWord a.toNat))
    else (.ram size m, .err .addressTooBig)
  | .set32 a v =>
    if a.toNat + 3 < size.toNat then (.ram size (m.writeWord a.toNat v), .ok 0)
    else (.ram size m, .err .addressTooBig)
  | .delete _ _ | .flush | .init | .tick => (.ram size m, .ok 0)

/-- A read-only device of `size` bytes from address 0: it answers a write to a byte it owns with the soft kind
ReadOnly (rule R82). DESIGN CHOICE, unsafe: the rest of its shape is that of RAM(S) (assumption log 13). -/
def romServe (size : Word) (m : Memory) : Request → Answer
  | .get a => if a.toNat < size.toNat then .ok ((m.read a.toNat).setWidth 32) else .err .addressTooBig
  | .set a _ => if a.toNat < size.toNat then .err .readOnly else .err .addressTooBig
  | .get32 a => if a.toNat + 3 < size.toNat then .ok (m.readWord a.toNat) else .err .addressTooBig
  | .set32 a _ => if a.toNat + 3 < size.toNat then .err .readOnly else .err .addressTooBig
  | .delete _ _ | .flush | .init | .tick => .ok 0

/-- W(lo, hi) of 95_test_vectors.md: AddressTooSmall below `lo`, AddressTooBig above `hi`. Its word accesses are
composed (rule R63), so asked for one directly it answers NotImplemented. -/
def windowServe (lo hi : Word) (m : Memory) : Request → Leaf × Answer
  | .get a =>
    if a.toNat < lo.toNat then (.window lo hi m, .err .addressTooSmall)
    else if hi.toNat < a.toNat then (.window lo hi m, .err .addressTooBig)
    else (.window lo hi m, .ok ((m.read a.toNat).setWidth 32))
  | .set a v =>
    if a.toNat < lo.toNat then (.window lo hi m, .err .addressTooSmall)
    else if hi.toNat < a.toNat then (.window lo hi m, .err .addressTooBig)
    else (.window lo hi (m.write a.toNat v), .ok 0)
  | .get32 _ | .set32 _ _ => (.window lo hi m, .err .notImplemented)
  | .delete _ _ | .flush | .init | .tick => (.window lo hi m, .ok 0)

/-- An external collaborator (rule R67): its answer is a free value of its identity, of the requests it served before,
and of the request; serving one changes its state. `tick` has no error channel (rule R50). -/
def collaboratorServe (id : Nat) (hasGet32 hasSet32 : Bool) (history : List Request) (q : Request) : Leaf × Answer :=
  (.collaborator id hasGet32 hasSet32 (q :: history),
    match q with
    | .tick => .ok 0
    | .get _ | .set _ _ | .get32 _ | .set32 _ _ | .delete _ _ | .flush | .init => collaboratorAnswer id history q)

/-- `F` answers its kind to every operation with an error channel. -/
def failingServe (kind : ErrKind) : Request → Answer
  | .tick => .ok 0
  | .get _ | .set _ _ | .get32 _ | .set32 _ _ | .delete _ _ | .flush | .init => .err kind

/-- What a leaf answers with its own accessors. -/
def leafDirect : Leaf → Request → Leaf × Answer
  | .ram size m, q => ramServe size m q
  | .rom size m, q => (.rom size m, romServe size m q)
  | .window lo hi m, q => windowServe lo hi m q
  | .failing kind, q => (.failing kind, failingServe kind q)
  | .collaborator id hasGet32 hasSet32 history, q => collaboratorServe id hasGet32 hasSet32 history q

/-- The `?` of rule R63: go on with the value of an access, or answer its first error. -/
def leafThen (x : Leaf × Answer) (k : Leaf → Word → Leaf × Answer) : Leaf × Answer :=
  match x with
  | (l, .ok v) => k l v
  | (l, .err kind) => (l, .err kind)
  | (l, .held) => (l, .held)

/-- `word_get` of a device without a native accessor: four byte gets, ascending (rule R63). DEDUCED: the addresses wrap
modulo 2^32 (assumption log 19). -/
def composeGet (l : Leaf) (a : Word) : Leaf × Answer :=
  leafThen (leafDirect l (.get a)) fun l b0 =>
  leafThen (leafDirect l (.get (a + 1))) fun l b1 =>
  leafThen (leafDirect l (.get (a + 2))) fun l b2 =>
  leafThen (leafDirect l (.get (a + 3))) fun l b3 =>
  (l, .ok (b0.setWidth 8 ++ b1.setWidth 8 ++ b2.setWidth 8 ++ b3.setWidth 8))

/-- `word_set` of a device without a native accessor: four byte sets, ascending; bytes already set stay set
(rule R63). -/
def composeSet (l : Leaf) (a v : Word) : Leaf × Answer :=
  leafThen (leafDirect l (.set a (wordByte v 0))) fun l _ =>
  leafThen (leafDirect l (.set (a + 1) (wordByte v 1))) fun l _ =>
  leafThen (leafDirect l (.set (a + 2) (wordByte v 2))) fun l _ =>
  leafThen (leafDirect l (.set (a + 3) (wordByte v 3))) fun l _ =>
  (l, .ok 0)

/-- What a leaf answers: `word_get` and `word_set` use the native accessor if there is one (rules R61, R62). -/
def leafServe (l : Leaf) : Request → Leaf × Answer
  | .get32 a => if leafHasGet32 l then leafDirect l (.get32 a) else composeGet l a
  | .set32 a v => if leafHasSet32 l then leafDirect l (.set32 a v) else composeSet l a v
  | .get a => leafDirect l (.get a)
  | .set a v => leafDirect l (.set a v)
  | .delete a b => leafDirect l (.delete a b)
  | .flush => leafDirect l .flush
  | .init => leafDirect l .init
  | .tick => leafDirect l .tick

/-! ## The bus -/

/-- How a bus operation ends: a value, a fatal error (rule R65), or held by a device (rule R68). -/
inductive BusResult where
  | ok (v : Word)
  | fatal (e : BusError)
  | held
  deriving DecidableEq, Repr

/-- A bus as a device answers its result's kind; the annotation is the outer bus's to make (rules R51, R53, R64). -/
def resultAnswer : BusResult → Answer
  | .ok v => .ok v
  | .fatal e => .err e.kind
  | .held => .held

/-- The bus is exhausted after `count` devices: a probe is the fatal AllDevicesFaulted, a broadcast has succeeded
(rules R56, R57). DEDUCED: the error has no device position (assumption log 12). -/
def exhausted (count : Nat) (q : Request) : BusResult :=
  if isProbe q then .fatal ⟨.allDevicesFaulted count, none, requestOp q, requestAddr q⟩ else .ok 0

mutual

/-- A device handles a request (rules R50, R51). -/
def Device.handle : Device → Request → Device × Answer
  | .leaf l, q => let r := leafServe l q; (.leaf r.1, r.2)
  | .bus b, q => let r := b.handle 0 q; (.bus r.1, resultAnswer r.2)

/-- The devices from position `k` on handle a request, in order (rules R54 to R59, R61, R62). -/
def Bus.handle : Bus → Nat → Request → Bus × BusResult
  | .empty, k, q => (.empty, exhausted k q)
  | .cons d rest, k, q =>
    match d.handle q with
    | (d', .held) => (.cons d' rest, .held)
    | (d', .ok v) =>
      if isProbe q then (.cons d' rest, .ok v)
      else let r := rest.handle (k + 1) q; (.cons d' r.1, r.2)
    | (d', .err kind) =>
      if isSoft kind then let r := rest.handle (k + 1) q; (.cons d' r.1, r.2)
      else (.cons d' rest, .fatal ⟨kind, some k, requestOp q, requestAddr q⟩)

end

/-- A bus operation: the request goes to the devices from position 0 on. -/
def Bus.request (b : Bus) (q : Request) : Bus × BusResult := b.handle 0 q

/-- A leaf's `get_size` (rules R50, R69; assumption log 13). -/
def leafSize : Leaf → Word
  | .ram size _ | .rom size _ => size
  | .window _ hi _ => hi + 1
  | .failing _ => 0
  | .collaborator id _ _ history => collaboratorSize id history

/-- The larger of two sizes, as unsigned values (rule R60). -/
def maxWord (a b : Word) : Word := if a.toNat ≤ b.toNat then b else a

mutual

/-- A device's `get_size` (rule R50). -/
def Device.getSize : Device → Word
  | .leaf l => leafSize l
  | .bus b => b.getSize

/-- `bus.get_size()`: the maximum over the devices, 0 for none (rule R60). -/
def Bus.getSize : Bus → Word
  | .empty => 0
  | .cons d rest => maxWord d.getSize rest.getSize

end

/-! ## What a bus holds -/

mutual

/-- The leaves of a device, in order. -/
def Device.leaves : Device → List Leaf
  | .leaf l => [l]
  | .bus b => b.leaves

/-- The leaves of a bus, in order, those of nested buses among them. -/
def Bus.leaves : Bus → List Leaf
  | .empty => []
  | .cons d rest => d.leaves ++ rest.leaves

end

/-- The byte a leaf stores for address `a`, if it owns that address. -/
def leafByte (a : Word) (l : Leaf) : Option Byte :=
  if leafOwns l a.toNat then some ((leafMemory l).read a.toNat) else none

/-- EVERY byte stored for address `a`, one entry per leaf device of the bus, shadowed ones too (rule R66). -/
def Bus.bytesAt (b : Bus) (a : Word) : List (Option Byte) := b.leaves.map (leafByte a)

/-- The leaf without its contents: what is fixed at construction (rule R26). -/
def leafBlank : Leaf → Leaf
  | .ram size _ => .ram size .blank
  | .rom size _ => .rom size .blank
  | .window lo hi _ => .window lo hi .blank
  | .failing kind => .failing kind
  | .collaborator id hasGet32 hasSet32 _ => .collaborator id hasGet32 hasSet32 []

mutual

/-- The device without its contents. -/
def Device.shape : Device → Device
  | .leaf l => .leaf (leafBlank l)
  | .bus b => .bus b.shape

/-- The device list and its order, without the devices' contents (rules R26, R51). -/
def Bus.shape : Bus → Bus
  | .empty => .empty
  | .cons d rest => .cons d.shape rest.shape

end

/-- A leaf's stored bytes are in canonical form, and it stores only bytes it owns. -/
abbrev leafWf (l : Leaf) : Prop :=
  (leafMemory l).wf ∧ ∀ c ∈ (leafMemory l).cells, leafOwns l c.1

/-- Every device's stored bytes are in canonical form. -/
abbrev Bus.wf (b : Bus) : Prop := ∀ l ∈ b.leaves, leafWf l

/-- The leaf is no external collaborator. -/
def leafQuiet : Leaf → Bool
  | .collaborator _ _ _ _ => false
  | .ram _ _ | .rom _ _ | .window _ _ _ | .failing _ => true

/-- The bus has no external collaborator, so that a read changes nothing and answers what is stored. -/
def Bus.quiet (b : Bus) : Bool := b.leaves.all leafQuiet

/-! ## The loader's write (rule R301)

DESIGN CHOICE, unsafe (assumption log 26): a byte is loaded into the first RAM-like device, in probe order and those of
nested buses among them, that owns its address, and a byte that none owns is dropped. -/

mutual

/-- Some RAM-like device in the device owns address `a`. -/
def Device.ramOwns : Device → Nat → Bool
  | .leaf (.ram size _), a => a < size.toNat
  | .leaf (.rom _ _), _ | .leaf (.window _ _ _), _ | .leaf (.failing _), _ | .leaf (.collaborator _ _ _ _), _ => false
  | .bus b, a => b.ramOwns a

/-- Some RAM-like device of the bus owns address `a`. -/
def Bus.ramOwns : Bus → Nat → Bool
  | .empty, _ => false
  | .cons d rest, a => d.ramOwns a || rest.ramOwns a

end

mutual

/-- Put a byte at address `a` of the first RAM-like device in the device that owns it. -/
def Device.loadByte : Device → Nat → Byte → Device
  | .leaf (.ram size m), a, v => .leaf (.ram size (if a < size.toNat then m.write a v else m))
  | .leaf (.rom size m), _, _ => .leaf (.rom size m)
  | .leaf (.window lo hi m), _, _ => .leaf (.window lo hi m)
  | .leaf (.failing kind), _, _ => .leaf (.failing kind)
  | .leaf (.collaborator id g w history), _, _ => .leaf (.collaborator id g w history)
  | .bus b, a, v => .bus (b.loadByte a v)

/-- Put a byte at address `a` of the first RAM-like device that owns it. -/
def Bus.loadByte : Bus → Nat → Byte → Bus
  | .empty, _, _ => .empty
  | .cons d rest, a, v =>
    if d.ramOwns a then .cons (d.loadByte a v) rest else .cons d (rest.loadByte a v)

end

end Sys2Proof.Machine
end

