-- ==== Sys2Proof/Machine/Flags.lean ====
section
/-! DEFINITION. The core has no status flags or condition codes (rule R27): a comparison pushes the word 1 or 0, and a
branch tests a popped word against zero. The one flag-like bit is `last_im` (rule R23). All of it stands here. -/

namespace Sys2Proof.Machine

/-- The word a comparison pushes: 1 or 0 (rule R27). -/
def truthWord (p : Bool) : Word := if p then 1 else 0

/-- Signed less-than of TOS = a and NOS = b (rule R200). -/
def lessSigned (a b : Word) : Word := truthWord (a.toInt < b.toInt)

/-- Signed less-or-equal (rule R201). -/
def lessEqSigned (a b : Word) : Word := truthWord (a.toInt ≤ b.toInt)

/-- Unsigned less-than (rule R202). -/
def lessUnsigned (a b : Word) : Word := truthWord (a.toNat < b.toNat)

/-- Unsigned less-or-equal (rule R203). -/
def lessEqUnsigned (a b : Word) : Word := truthWord (a.toNat ≤ b.toNat)

/-- Equality (rule R213). -/
def equalWord (a b : Word) : Word := truthWord (a = b)

/-- Inequality (rule R214). -/
def unequalWord (a b : Word) : Word := truthWord (a ≠ b)

/-- The condition of EQBRANCH, and the negated condition of NEQBRANCH: the popped word is zero (rules R250, R251). -/
def isZero (b : Word) : Bool := b = 0

/-- The clearing of `last_im` at the start of a step, its old value kept as `prev_im` (rules R23, R130). The caller's
report starts as Ok (rule R270). -/
def State.beginStep (s : State) : State := { s with prevIm := s.lastIm, lastIm := false, report := .ok }

/-- `last_im <- true`, by the immediate-load path alone (rule R23). -/
def State.setLastIm (s : State) : State := { s with lastIm := true }

end Sys2Proof.Machine
end

