-- ==== Sys2Proof/Machine/Operands.lean ====
section
/-! DEFINITION. The operand forms: alignment masking, immediate assembly, stack-relative offsets, trap vectors, and
the arithmetic helpers of the shifts, FLIP, SUB, DIV and MOD. Plain functions of words. -/

namespace Sys2Proof.Machine

open Sys2Proof.Config

/-! ## Addresses -/

/-- `align4(a) = a & 0xFFFFFFFC` (rule R9). -/
def align4 (a : Word) : Word := a &&& 0xFFFFFFFC

/-- The byte offset of STORESP and LOADSP: `((op XOR 0x10) & 0x1F) << 2` with `x = op & 0x1F` (rule R105). -/
def sprelOffset (x : BitVec 5) : Word := ((x ^^^ 0x10).setWidth 32) <<< 2

/-- The byte offset of ADDSP: `(op & 0x0F) << 2` (rule R105). -/
def addspOffset (n : BitVec 4) : Word := (n.setWidth 32) <<< 2

/-- The effective address of a stack-relative opcode (rules R105, R165). -/
def sprelAddr (sp offset : Word) : Word := align4 (sp + offset)

/-- The trap vector of slot `index`: `index * 32` (rules R106, R183). -/
def trapVector (index : BitVec 5) : Word := (index.setWidth 32) <<< 5

/-! ## Immediates -/

/-- The value an unchained IM pushes: `sext_7(i)` (rules R104, R160). -/
def immFirst (i : BitVec 7) : Word := i.signExtend 32

/-- The value a chained IM pushes: `((x & 0x1FFFFFFF) << 7) | zext_7(i)` (rules R104, R161). -/
def immChain (x : Word) (i : BitVec 7) : Word := ((x &&& 0x1FFFFFFF) <<< 7) ||| i.setWidth 32

/-- The word a run of IM opcodes leaves on top of the stack: the first is not chained, each later one is (rule R104). -/
def immRun (first : BitVec 7) (rest : List (BitVec 7)) : Word := rest.foldl immChain (immFirst first)

/-! ## Shifts -/

/-- The shift helper: a signed count, positive = left, negative = right by its magnitude (rule R206). -/
def shift (v : Word) (c : Int) : Word :=
  if c ≥ 32 then 0
  else if c ≥ 0 then v <<< c.toNat
  else if -c ≥ 32 then 0
  else v >>> (-c).toNat

/-- The arithmetic shift: the vacated bits are filled with ones when the sign bit is set (rule R207). For `c > 0` the
value is the rule's, and no claim may depend on it (assumption log 22). -/
def ashr (v : Word) (c : Int) : Word :=
  shift v c ||| (if v.getLsbD 31 then ~~~(shift 0xFFFFFFFF c) else 0)

/-- The count a shift reads from the popped word (rule R208). -/
def shiftCount (mode : ShiftCountMode) (a : Word) : Int :=
  match mode with
  | .signed32 => a.toInt
  | .mask6 => (a &&& 0x3F).toNat

/-! ## FLIP, SUB, DIV, MOD, PUSHSPADD -/

/-- FLIP_FN: by default bit `k` of the result is bit `31 - k` of the word (rule R140). -/
def flipWord (fn : FlipFn) (a : Word) : Word :=
  match fn with
  | .bitReversal => a.reverse
  | .other => flipOther a

/-- SUB's result for TOS = a, NOS = b (rule R216). -/
def subWord (order : SubOrder) (a b : Word) : Word :=
  match order with
  | .nosMinusTos => b - a
  | .tosMinusNos => a - b

/-- The quotient rounded toward zero (rule R218). -/
def divWord (a b : Word) : Word := BitVec.ofInt 32 (a.toInt.tdiv b.toInt)

/-- The remainder, with the sign of the dividend (rule R219). -/
def modWord (a b : Word) : Word := BitVec.ofInt 32 (a.toInt - a.toInt.tdiv b.toInt * b.toInt)

/-- The low 32 bits of the product of the unsigned values (rule R205). -/
def mulWord (a b : Word) : Word := BitVec.ofNat 32 (a.toNat * b.toNat)

/-- PUSHSPADD's result: `align4(s + (a << 2))` (rule R253). -/
def spAddWord (sp a : Word) : Word := align4 (sp + a <<< 2)

end Sys2Proof.Machine
end

