-- ==== Sys2Proof/Machine/Ops.lean ====
section
/-! DEFINITION. The named operations of the CPU: register writes, the memory primitives (rules R70 to R73), the stack
helpers (rules R75, R76), fetch, the software trap and the return from it (rules R183, R281), the EMULATE dispatch
(rules R181, R182), the arithmetic and decode faults (rules R273, R275), and the shapes many opcodes share. -/

namespace Sys2Proof.Machine

open Sys2Proof.Config

/-! ## Register writes -/

/-- `pc <- v` (rule R21). -/
def State.withPc (s : State) (v : Word) : State := { s with pc := v }

/-- `sp <- v` (rule R22). -/
def State.withSp (s : State) (v : Word) : State := { s with sp := v }

/-- `state <- v` (rule R24). -/
def State.withState (s : State) (v : RunState) : State := { s with state := v }

/-- The bus after an access. -/
def State.withBus (s : State) (b : Bus) : State := { s with bus := b }

/-- What the step returns to its caller (rule R270). -/
def State.withReport (s : State) (r : StepReport) : State := { s with report := r }

/-- `pc <- pc + 1`, modulo 2^32 (rules R21, R145). -/
def State.advance (s : State) : State := s.withPc (s.pc + 1)

/-! ## Accesses -/

/-- How a part of a step ends: a value and the state after it, or the end of the step (rule R10: "raise"). -/
inductive Access (α : Type) where
  | done (v : α) (s : State)
  | stop (f : Fault)

/-- Go on with the next part of the step. -/
def Access.andThen {α β : Type} (x : Access α) (k : α → State → Access β) : Access β :=
  match x with
  | .done v s => k v s
  | .stop f => .stop f

/-- Go on to the end of the step. -/
def Access.finish {α : Type} (x : Access α) (k : α → State → Host.Outcome State Fault Refusal) :
    Host.Outcome State Fault Refusal :=
  match x with
  | .done v s => k v s
  | .stop f => .fault f

/-- One bus request of the CPU. A fatal error ends the step as BusFault, and what the step did before stays done
(rules R73, R74, R274, R276); a device that does not return holds it, safe (rule R68; assumption log 8). -/
def busAccess (q : Request) (s : State) : Access Word :=
  match s.bus.request q with
  | (b, .ok v) => .done v (s.withBus b)
  | (b, .fatal e) => .stop (.busFault e (s.withBus b))
  | (_, .held) => .stop (.deviceHolds (requestOp q) (requestAddr q))

/-- `MemRead(addr, 1)` (rule R70). -/
def memRead1 (a : Word) (s : State) : Access Byte :=
  (busAccess (.get a) s).andThen fun v s => .done (v.setWidth 8) s

/-- `MemWrite(addr, 1, v)` (rule R70). -/
def memWrite1 (a : Word) (v : Byte) (s : State) : Access Unit :=
  (busAccess (.set a v) s).andThen fun _ s => .done () s

/-- `MemRead(addr, 4)` (rule R71). -/
def memRead4 (a : Word) (s : State) : Access Word := busAccess (.get32 a) s

/-- `MemWrite(addr, 4, v)` (rule R71). -/
def memWrite4 (a : Word) (v : Word) (s : State) : Access Unit :=
  (busAccess (.set32 a v) s).andThen fun _ s => .done () s

/-- `MemRead(addr, 2)`: the byte at `addr`, then the byte at `addr + 1`, big-endian (rule R72). -/
def memRead2 (a : Word) (s : State) : Access (BitVec 16) :=
  (memRead1 a s).andThen fun b0 s =>
  (memRead1 (a + 1) s).andThen fun b1 s =>
  .done (b0 ++ b1) s

/-- `MemWrite(addr, 2, v)`: the high byte at `addr`, then the low byte at `addr + 1` (rule R72). -/
def memWrite2 (a : Word) (v : BitVec 16) (s : State) : Access Unit :=
  (memWrite1 a (v.extractLsb' 8 8) s).andThen fun _ s =>
  memWrite1 (a + 1) (v.extractLsb' 0 8) s

/-- `push(v)`: `sp <- sp - 4`, unmasked, then a word store at `align4(sp)` (rule R75). -/
def push (v : Word) (s : State) : Access Unit :=
  memWrite4 (align4 (s.sp - 4)) v (s.withSp (s.sp - 4))

/-- `pop()`: a word load at `align4(sp)`, then `sp <- align4(sp + 4)` (rule R76). -/
def pop (s : State) : Access Word :=
  (memRead4 (align4 s.sp) s).andThen fun v s => .done v (s.withSp (align4 (s.sp + 4)))

/-- `Fetch(pc)`: one byte get at `pc`, unmasked (rules R70, R130). -/
def fetch (s : State) : Access Byte := memRead1 s.pc s

/-! ## Faults that stop the core, the trap and the return from it -/

/-- DecodeFault(op): `state <- Stopped`, `pc` kept (rule R273). -/
def decodeFault (op : Byte) (s : State) : Host.Outcome State Fault Refusal :=
  .next ((s.withState .stopped).withReport (.decodeFault op))

/-- ArithmeticFault(cause): `state <- Stopped`, `pc` kept (rule R275). -/
def arithmeticFault (cause : ArithCause) (s : State) : Host.Outcome State Fault Refusal :=
  .next ((s.withState .stopped).withReport (.arithmeticFault cause))

/-- TAKING THE SOFTWARE TRAP of slot `index`: push the return address `pc + 1`, then `pc <- index * 32`. Nothing else
is saved or changed (rules R183, R280). -/
def takeTrap (index : BitVec 5) (s : State) : Host.Outcome State Fault Refusal :=
  (push (s.pc + 1) s).finish fun _ s => .next (s.withPc (trapVector index))

/-- THE RETURN from a trap, and any absolute jump: `pc <- pop()`, nothing else restored (rules R133, R281). -/
def jumpToPopped (s : State) : Host.Outcome State Fault Refusal :=
  (pop s).finish fun t s => .next (s.withPc t)

/-! ## EMULATE -/

/-- The native slots of the extended-operation table (rules R185, R186). -/
def nativeSlots : List Nat :=
  [3, 4, 5, 6, 7, 8, 9, 10, 11, 13, 14, 15, 16, 17, 18, 19, 20, 21, 22, 23, 24, 28, 30]

/-- `implemented(index)` (rule R181). -/
def implemented (p : Params) (index : BitVec 5) : Bool :=
  nativeSlots.contains index.toNat || (p.hwHalfword && (index.toNat == 1 || index.toNat == 2))

/-- EMULATE dispatch: the body if the slot runs natively, else the trap (rule R182). -/
def emulate (index : BitVec 5) (body : State → Host.Outcome State Fault Refusal) (s : State) :
    Host.Outcome State Fault Refusal :=
  if s.params.hwEmulation && implemented s.params index then body s else takeTrap index s

/-! ## Shapes of opcodes -/

/-- The end of every opcode that does not transfer control. -/
def nextPc (s : State) : Host.Outcome State Fault Refusal := .next s.advance

/-- Push a word and go on to the next opcode. -/
def pushNext (v : Word) (s : State) : Host.Outcome State Fault Refusal :=
  (push v s).finish fun _ s => nextPc s

/-- Pop a, push f(a), go on. -/
def unaryOp (f : Word → Word) (s : State) : Host.Outcome State Fault Refusal :=
  (pop s).finish fun a s => pushNext (f a) s

/-- Pop a (TOS), pop b (NOS), push f(a, b), go on. -/
def binaryOp (f : Word → Word → Word) (s : State) : Host.Outcome State Fault Refusal :=
  (pop s).finish fun a s => (pop s).finish fun b s => pushNext (f a b) s

/-- Pop a (dividend), pop b (divisor), raise the arithmetic fault of rule R220 or push f(a, b) and go on. -/
def divideOp (f : Word → Word → Word) (s : State) : Host.Outcome State Fault Refusal :=
  (pop s).finish fun a s => (pop s).finish fun b s =>
    if b = 0 then arithmeticFault .divideByZero s
    else if a = 0x80000000 ∧ b = 0xFFFFFFFF then arithmeticFault .divideOverflow s
    else pushNext (f a b) s

/-- Pop a displacement, pop a condition; branch relative to the pre-fetch `pc` if `taken`, else go on
(rules R250, R251, R255). -/
def branchOp (taken : Word → Bool) (s : State) : Host.Outcome State Fault Refusal :=
  (pop s).finish fun a s => (pop s).finish fun b s =>
    if taken b then .next (s.withPc (s.pc + a)) else nextPc s

end Sys2Proof.Machine
end

