-- ==== Sys2Proof/Machine/Exact.lean ====
section
/-! DEFINITION. The meanings of the exact-match opcodes and of the bytes that match none (40_exact_ops.md, rules R131
to R145; rule R273). Each is the opcode's body, run inside the step envelope of rule R130. -/

namespace Sys2Proof.Machine

/-- BREAKPOINT (rule R131). -/
def execBreakpoint (s : State) : Host.Outcome State Fault Refusal :=
  if s.params.breakAdvancesPc then nextPc (s.withState .sleeping) else .next (s.withState .sleeping)

/-- PUSHSP: the raw `sp` before the push (rule R132). -/
def execPushsp (s : State) : Host.Outcome State Fault Refusal := pushNext s.sp s

/-- POPPC (rule R133). -/
def execPoppc (s : State) : Host.Outcome State Fault Refusal := jumpToPopped s

/-- ADD, modulo 2^32 (rule R134). -/
def execAdd (s : State) : Host.Outcome State Fault Refusal := binaryOp (fun a b => a + b) s

/-- AND (rule R135). -/
def execAnd (s : State) : Host.Outcome State Fault Refusal := binaryOp (fun a b => a &&& b) s

/-- OR (rule R136). -/
def execOr (s : State) : Host.Outcome State Fault Refusal := binaryOp (fun a b => a ||| b) s

/-- LOAD: the popped address is 4-byte-aligned before use (rule R137). -/
def execLoad (s : State) : Host.Outcome State Fault Refusal :=
  (pop s).finish fun a s => (memRead4 (align4 a) s).finish fun v s => pushNext v s

/-- NOT (rule R138). -/
def execNot (s : State) : Host.Outcome State Fault Refusal := unaryOp (fun a => ~~~a) s

/-- FLIP (rule R140). -/
def execFlip (s : State) : Host.Outcome State Fault Refusal := unaryOp (flipWord s.params.flipFn) s

/-- NOP (rule R141). -/
def execNop (s : State) : Host.Outcome State Fault Refusal := nextPc s

/-- STORE: address, then value; the address is 4-byte-aligned before use (rule R142). -/
def execStore (s : State) : Host.Outcome State Fault Refusal :=
  (pop s).finish fun a s => (pop s).finish fun v s => (memWrite4 (align4 a) v s).finish fun _ s => nextPc s

/-- POPSP (rule R144). -/
def execPopsp (s : State) : Host.Outcome State Fault Refusal :=
  (pop s).finish fun a s => nextPc (s.withSp (align4 a))

/-- A byte that matches no decode step (rules R108, R273). -/
def execIllegal (op : Byte) (s : State) : Host.Outcome State Fault Refusal := decodeFault op s

end Sys2Proof.Machine
end

