-- ==== Sys2Proof/Machine/ExtendedAlu.lean ====
section
/-! DEFINITION. The meanings of the extended operations that compare and compute (43_extended_alu.md, rules R200 to
R220). Each runs natively or traps (rule R182); a = TOS, popped first, and b = NOS. -/

namespace Sys2Proof.Machine

/-- LESSTHAN, slot 3 (rule R200). -/
def execLessthan (s : State) : Host.Outcome State Fault Refusal := emulate 3 (binaryOp lessSigned) s

/-- LESSTHANOREQUAL, slot 4 (rule R201). -/
def execLessthanorequal (s : State) : Host.Outcome State Fault Refusal := emulate 4 (binaryOp lessEqSigned) s

/-- ULESSTHAN, slot 5 (rule R202). -/
def execUlessthan (s : State) : Host.Outcome State Fault Refusal := emulate 5 (binaryOp lessUnsigned) s

/-- ULESSTHANOREQUAL, slot 6 (rule R203). -/
def execUlessthanorequal (s : State) : Host.Outcome State Fault Refusal := emulate 6 (binaryOp lessEqUnsigned) s

/-- The body of SWAP: push a, then b (rule R204). -/
def swapBody (s : State) : Host.Outcome State Fault Refusal :=
  (pop s).finish fun a s => (pop s).finish fun b s => (push a s).finish fun _ s => pushNext b s

/-- SWAP, slot 7 (rule R204). -/
def execSwap (s : State) : Host.Outcome State Fault Refusal := emulate 7 swapBody s

/-- MULT, slot 8 (rule R205). -/
def execMult (s : State) : Host.Outcome State Fault Refusal := emulate 8 (binaryOp mulWord) s

/-- LSHIFTRIGHT, slot 9: `shift(b, -count(a))` (rule R209). -/
def execLshiftright (s : State) : Host.Outcome State Fault Refusal :=
  emulate 9 (binaryOp fun a b => shift b (-shiftCount s.params.shiftCountMode a)) s

/-- ASHIFTLEFT, slot 10: `shift(b, count(a))` (rule R210). -/
def execAshiftleft (s : State) : Host.Outcome State Fault Refusal :=
  emulate 10 (binaryOp fun a b => shift b (shiftCount s.params.shiftCountMode a)) s

/-- ASHIFTRIGHT, slot 11: `ashr(b, -count(a))` (rule R211). -/
def execAshiftright (s : State) : Host.Outcome State Fault Refusal :=
  emulate 11 (binaryOp fun a b => ashr b (-shiftCount s.params.shiftCountMode a)) s

/-- EQ, slot 13 (rule R213). -/
def execEq (s : State) : Host.Outcome State Fault Refusal := emulate 13 (binaryOp equalWord) s

/-- NEQ, slot 14 (rule R214). -/
def execNeq (s : State) : Host.Outcome State Fault Refusal := emulate 14 (binaryOp unequalWord) s

/-- NEG, slot 15: `0 - a` (rule R215). -/
def execNeg (s : State) : Host.Outcome State Fault Refusal := emulate 15 (unaryOp fun a => 0 - a) s

/-- SUB, slot 16 (rule R216). -/
def execSub (s : State) : Host.Outcome State Fault Refusal := emulate 16 (binaryOp (subWord s.params.subOrder)) s

/-- XOR, slot 17 (rule R217). -/
def execXor (s : State) : Host.Outcome State Fault Refusal := emulate 17 (binaryOp fun a b => a ^^^ b) s

/-- DIV, slot 20 (rules R218, R220). -/
def execDiv (s : State) : Host.Outcome State Fault Refusal := emulate 20 (divideOp divWord) s

/-- MOD, slot 21 (rules R219, R220). -/
def execMod (s : State) : Host.Outcome State Fault Refusal := emulate 21 (divideOp modWord) s

end Sys2Proof.Machine
end

