-- ==== Sys2Proof/Machine/ExtendedControl.lean ====
section
/-! DEFINITION. The meanings of the extended operations that transfer control (44_extended_memory_control.md, rules
R250 to R255) and of the reserved slots, which always trap (42_emulate.md, rules R183, R185). -/

namespace Sys2Proof.Machine

/-- EQBRANCH, slot 22: taken if the condition is zero (rule R250). -/
def execEqbranch (s : State) : Host.Outcome State Fault Refusal := emulate 22 (branchOp fun b => isZero b) s

/-- NEQBRANCH, slot 23: taken if the condition is not zero (rule R251). -/
def execNeqbranch (s : State) : Host.Outcome State Fault Refusal := emulate 23 (branchOp fun b => !isZero b) s

/-- The body of POPPCREL: relative to the pre-fetch `pc` (rule R252). -/
def poppcrelBody (s : State) : Host.Outcome State Fault Refusal :=
  (pop s).finish fun a s => .next (s.withPc (s.pc + a))

/-- POPPCREL, slot 24 (rule R252). -/
def execPoppcrel (s : State) : Host.Outcome State Fault Refusal := emulate 24 poppcrelBody s

/-- PUSHSPADD, slot 28: `sp` before the pop, plus four times the popped word, masked (rule R253). -/
def execPushspadd (s : State) : Host.Outcome State Fault Refusal := emulate 28 (unaryOp (spAddWord s.sp)) s

/-- The body of CALLPCREL: pop the displacement, push `pc + 1`, jump relative to the pre-fetch `pc` (rule R254). -/
def callpcrelBody (s : State) : Host.Outcome State Fault Refusal :=
  (pop s).finish fun a s => (push (s.pc + 1) s).finish fun _ s => .next (s.withPc (s.pc + a))

/-- CALLPCREL, slot 30 (rule R254). -/
def execCallpcrel (s : State) : Host.Outcome State Fault Refusal := emulate 30 callpcrelBody s

/-- EMULATE slot 0, not named: always the trap to `0x000` (rules R183, R185). -/
def execEmulate0 (s : State) : Host.Outcome State Fault Refusal := takeTrap 0 s

/-- CALL, slot 12, not found: always the trap to `0x180` (rules R183, R185). -/
def execCall (s : State) : Host.Outcome State Fault Refusal := takeTrap 12 s

/-- CONFIG, slot 25, not found: always the trap to `0x320` (rules R183, R185). -/
def execConfig (s : State) : Host.Outcome State Fault Refusal := takeTrap 25 s

/-- PUSHPC, slot 26, not found: always the trap to `0x340` (rules R183, R185). -/
def execPushpc (s : State) : Host.Outcome State Fault Refusal := takeTrap 26 s

/-- SYSCALL, slot 27, not found: always the trap to `0x360` (rules R183, R185, R283). -/
def execSyscall (s : State) : Host.Outcome State Fault Refusal := takeTrap 27 s

/-- HALFMULT, slot 29, not found: always the trap to `0x3A0` (rules R183, R185). -/
def execHalfmult (s : State) : Host.Outcome State Fault Refusal := takeTrap 29 s

/-- EMULATE slot 31, not named: always the trap to `0x3E0` (rules R183, R185). -/
def execEmulate31 (s : State) : Host.Outcome State Fault Refusal := takeTrap 31 s

end Sys2Proof.Machine
end

