-- ==== Sys2Proof/Machine/ExtendedMemory.lean ====
section
/-! DEFINITION. The meanings of the extended operations that access bytes and halves (44_extended_memory_control.md,
rules R240 to R245). Each runs natively or traps (rule R182). -/

namespace Sys2Proof.Machine

/-- The body of LOADH: two ordered byte reads, zero-extended, no masking (rule R244). -/
def loadhBody (s : State) : Host.Outcome State Fault Refusal :=
  (pop s).finish fun a s => (memRead2 a s).finish fun v s => pushNext (v.setWidth 32) s

/-- LOADH, slot 1 (rule R244). -/
def execLoadh (s : State) : Host.Outcome State Fault Refusal := emulate 1 loadhBody s

/-- The body of STOREH: address, then value; its low half, high byte first (rule R245). -/
def storehBody (s : State) : Host.Outcome State Fault Refusal :=
  (pop s).finish fun a s => (pop s).finish fun b s => (memWrite2 a (b.setWidth 16) s).finish fun _ s => nextPc s

/-- STOREH, slot 2 (rule R245). -/
def execStoreh (s : State) : Host.Outcome State Fault Refusal := emulate 2 storehBody s

/-- The body of LOADB: a byte, zero-extended, at the unmasked address (rule R240). -/
def loadbBody (s : State) : Host.Outcome State Fault Refusal :=
  (pop s).finish fun a s => (memRead1 a s).finish fun v s => pushNext (v.setWidth 32) s

/-- LOADB, slot 18 (rule R240). -/
def execLoadb (s : State) : Host.Outcome State Fault Refusal := emulate 18 loadbBody s

/-- The body of STOREB: address, then value; its low 8 bits at the unmasked address (rule R241). -/
def storebBody (s : State) : Host.Outcome State Fault Refusal :=
  (pop s).finish fun a s => (pop s).finish fun b s => (memWrite1 a (b.setWidth 8) s).finish fun _ s => nextPc s

/-- STOREB, slot 19 (rule R241). -/
def execStoreb (s : State) : Host.Outcome State Fault Refusal := emulate 19 storebBody s

end Sys2Proof.Machine
end

