-- ==== Sys2Proof/Machine/Immediate.lean ====
section
/-! DEFINITION. The meanings of the immediate load and the stack-relative families
(41_immediate_stack_relative.md, rules R160 to R165). -/

namespace Sys2Proof.Machine

/-- The end of an IM: `last_im <- true`, then `pc <- pc + 1` (rules R160, R161). -/
def pushImmediate (v : Word) (s : State) : Host.Outcome State Fault Refusal :=
  (push v s).finish fun _ s => nextPc s.setLastIm

/-- IM: push `sext_7(i)`, or continue the chain if the step before was an IM (rules R160, R161). -/
def execIm (i : BitVec 7) (s : State) : Host.Outcome State Fault Refusal :=
  if s.prevIm then (pop s).finish fun x s => pushImmediate (immChain x i) s
  else pushImmediate (immFirst i) s

/-- STORESP: the address uses `sp` before the pop (rules R162, R165). -/
def execStoresp (x : BitVec 5) (s : State) : Host.Outcome State Fault Refusal :=
  (pop s).finish fun v s' =>
    (memWrite4 (sprelAddr s.sp (sprelOffset x)) v s').finish fun _ s' => nextPc s'

/-- LOADSP: the address uses `sp` before the push (rules R163, R165). -/
def execLoadsp (x : BitVec 5) (s : State) : Host.Outcome State Fault Refusal :=
  (memRead4 (sprelAddr s.sp (sprelOffset x)) s).finish fun v s => pushNext v s

/-- ADDSP: the address uses `sp` before the pop, and the load comes before the pop (rules R164, R165). -/
def execAddsp (n : BitVec 4) (s : State) : Host.Outcome State Fault Refusal :=
  (memRead4 (sprelAddr s.sp (addspOffset n)) s).finish fun w s =>
    (pop s).finish fun a s => pushNext (a + w) s

end Sys2Proof.Machine
end

