-- ==== Sys2Proof/Machine/HostOps.lean ====
section
/-! DEFINITION. The host's and the loader's operations (rules R28, R54, R55, R300 to R305). None of them is a move of
the step (assumption log 16). -/

namespace Sys2Proof.Machine

open Sys2Proof.Config

/-- Why a host's operation does not succeed. A refused operation changes nothing; `bus.init()` is not refused but stops
part-way, and its error carries the state it leaves. -/
inductive HostRefusal where
  /-- `start()` outside Stopped (rule R302). -/
  | notStopped
  /-- Seeding `pc` or `sp` while Running (rules R28, R305). -/
  | stillRunning
  /-- `bus.init()` met a fatal error: in `left` the devices up to the failing one have been asked, the later ones not
  (rule R54). -/
  | busError (e : BusError) (left : State)
  /-- `bus.init()` is held by a device, which leaves no move (rule R68; assumption log 8). -/
  | deviceHolds
  deriving DecidableEq, Repr

/-- `start()`: Stopped to Running, nothing else changed; refused in every other state (rule R302). -/
def start (s : State) : Except HostRefusal State :=
  match s.state with
  | .stopped => .ok (s.withState .running)
  | .running | .sleeping | .waiting => .error .notStopped

/-- `state()` (rules R28, R305). -/
def observeState (s : State) : RunState := s.state

/-- Seed `pc`, only while not Running (rule R28). -/
def seedPc (v : Word) (s : State) : Except HostRefusal State :=
  match s.state with
  | .running => .error .stillRunning
  | .stopped | .sleeping | .waiting => .ok (s.withPc v)

/-- Seed `sp`, only while not Running (rule R28). -/
def seedSp (v : Word) (s : State) : Except HostRefusal State :=
  match s.state with
  | .running => .error .stillRunning
  | .stopped | .sleeping | .waiting => .ok (s.withSp v)

/-- `bus.init()` (rules R54, R303). A fatal error leaves the devices after it uninitialised, and those before it
initialised. -/
def busInit (s : State) : Except HostRefusal State :=
  match s.bus.request .init with
  | (b, .ok _) => .ok (s.withBus b)
  | (b, .fatal e) => .error (.busError e (s.withBus b))
  | (_, .held) => .error .deviceHolds

/-- `bus.tick()` (rule R55): every device, no error channel. -/
def busTick (s : State) : State := s.withBus (s.bus.request .tick).1

/-- Load an image from address `a` on, each byte as `Bus.loadByte` does (rule R301). DESIGN CHOICE, unsafe: the bytes of
an image that no one RAM-like device holds whole are loaded into the first that owns each, and dropped where none does;
the spec does not say (assumption log 26). -/
def loadBytes (b : Bus) : Nat → List Byte → Bus
  | _, [] => b
  | a, v :: rest => loadBytes (b.loadByte a v) (a + 1) rest

/-- The loader: "a raw byte stream loaded at address 0 of a RAM-like device" (rule R301). -/
def loadImage (image : List Byte) (s : State) : State := s.withBus (loadBytes s.bus 0 image)

/-- The boot order after construction: load, seed `sp`, `bus.init()`, `start()` (rule R303). DESIGN CHOICE, safe: where
`bus.init()` does not succeed the boot ends with its error and its state, and `start()` is not called; the spec says
only that the error propagates (rule R54; assumption log 28). -/
def launch (image : List Byte) (sp : Word) (s : State) : Except HostRefusal State :=
  match seedSp sp (loadImage image s) with
  | .error e => .error e
  | .ok s =>
    match busInit s with
    | .error e => .error e
    | .ok s => start s

/-- The loader puts one opcode byte at `pc`, and the core is Running as after `start()` (rules R301, R302). -/
def placeOpcode (op : Byte) (s : State) : State :=
  (s.withBus (s.bus.loadByte s.pc.toNat op)).withState .running

end Sys2Proof.Machine
end

