-- ==== Sys2Proof/Machine/Step.lean ====
section
/-! DEFINITION. The step envelope (rule R130), and the placing of an instruction for the next step. -/

namespace Sys2Proof.Machine

/-- One call of `step()`: the running check, `last_im` latched and cleared, the fetch, the opcode's body (rules R130,
R271). -/
def step (s : State) : Host.Outcome State Fault Refusal :=
  if s.state = .running then (fetch s.beginStep).finish fun op s => exec (decodeByte op) s
  else .fault .notRunning

/-- The state with the opcode-table word `w` of `nbits` bits where `step` fetches next: loaded at `pc` of the RAM-like
device that owns it, and the core started (rules R301, R302; assumption log 15). -/
def State.withFetchWord (s : State) (nbits w : Nat) : State :=
  placeOpcode (BitVec.ofNat 8 (w % 2 ^ nbits)) s

end Sys2Proof.Machine
end

