-- ==== Sys2Proof/Safety.lean ====
section
/-! DEFINITION. The terms claims are stated in: what a bus answers, which bytes a store reaches, the platform of the
spec's vectors, the invariants, the five outcomes of a step (rule R270) and the ends of a run (rule R304). -/

namespace Sys2Proof.Machine

open Sys2Proof.Config

/-! ## Answers of the bus -/

/-- The bus answers `v` to the request, and is `b'` afterwards. A broadcast that succeeds answers 0. -/
abbrev Answers (b : Bus) (q : Request) (v : Word) (b' : Bus) : Prop := b.request q = (b', .ok v)

/-- The bus answers the request with the fatal error `e`, and is `b'` afterwards. -/
abbrev Fails (b : Bus) (q : Request) (e : BusError) (b' : Bus) : Prop := b.request q = (b', .fatal e)

/-- The byte address `x` is one the request stores to. -/
abbrev storesTo (q : Request) (x : Word) : Prop :=
  match q with
  | .set a _ => x = a
  | .set32 a _ => x = a ∨ x = a + 1 ∨ x = a + 2 ∨ x = a + 3
  | .get _ | .get32 _ | .delete _ _ | .flush | .init | .tick => False

/-- The byte address `x` is none of the four bytes of the word at `a`. -/
abbrev outsideWord (a x : Word) : Prop := x ≠ a ∧ x ≠ a + 1 ∧ x ≠ a + 2 ∧ x ≠ a + 3

/-- What a byte read at `a` answers: the model's read of one byte through the bus (rule R56). -/
def readByte (b : Bus) (a : Word) : BusResult := (b.request (.get a)).2

/-- Every stored byte for which `outside` holds is the same in both buses, in every device, shadowed ones too. -/
abbrev bytesKept (b b' : Bus) (outside : Word → Prop) : Prop := ∀ x, outside x → b'.bytesAt x = b.bytesAt x

/-- A bus from the list of its devices, position 0 first (rule R51). -/
def busOf : List Device → Bus
  | [] => .empty
  | d :: rest => .cons d (busOf rest)

/-- The kind of error makes a bus go on with the next device: a soft answer (rule R52). -/
def answersSoft : Answer → Bool
  | .err kind => isSoft kind
  | .ok _ | .held => false

/-- The answer lets a broadcast go on: success or a soft error (rule R57). -/
def answersOn : Answer → Bool
  | .ok _ => true
  | .err kind => isSoft kind
  | .held => false

/-- The device answers the requests one after another with these values, and is `d'` afterwards. -/
def serves : Device → List Request → List Word → Device → Prop
  | d, [], [], d' => d' = d
  | d, q :: qs, v :: vs, d' => ∃ d1, d.handle q = (d1, .ok v) ∧ serves d1 qs vs d'
  | _, [], _ :: _, _ => False
  | _, _ :: _, [], _ => False

/-- The byte reads a composed word read is made of, in order (rule R63). -/
def byteGets (a : Word) : List Request := [.get a, .get (a + 1), .get (a + 2), .get (a + 3)]

/-- The byte writes a composed word write is made of, in order, most significant first (rule R63). -/
def byteSets (a v : Word) : List Request :=
  [.set a ((v >>> 24).setWidth 8), .set (a + 1) ((v >>> 16).setWidth 8), .set (a + 2) ((v >>> 8).setWidth 8),
    .set (a + 3) (v.setWidth 8)]

/-! ## Modes -/

/-- EMULATE slots run natively where implemented (rule R182). -/
abbrev native (s : State) : Prop := s.params.hwEmulation = true

/-- The half-word slots run natively too (rules R181, R244, R245). -/
abbrev nativeHalf (s : State) : Prop := s.params.hwEmulation = true ∧ s.params.hwHalfword = true

/-! ## The platform of the spec's vectors -/

/-- The bus is the one reference device RAM(size) with contents `m` (rule R69, 95_test_vectors.md). -/
abbrev onRam (b : Bus) (size : Word) (m : Memory) : Prop := b = .cons (.leaf (.ram size m)) .empty

/-- The words an opcode can reach from `sp`, up to 124 bytes above the top of the stack, lie in the RAM. -/
abbrev stackInRam (sp size : Word) : Prop := (align4 sp).toNat + 128 ≤ size.toNat

/-- The popped address of a load lies in the RAM; other opcodes read only the stack. -/
abbrev loadInRam (i : Instr) (a size : Word) : Prop :=
  match i with
  | .load => (align4 a).toNat + 3 < size.toNat
  | .loadb => a.toNat < size.toNat
  | .loadh => a.toNat + 1 < size.toNat
  | _ => True

/-! ## Invariants -/

/-- Every device's stored bytes are in the one canonical form. -/
abbrev State.wf (s : State) : Prop := s.bus.wf

/-- The stack pointer is word-aligned (rule R22). -/
abbrev spAligned (s : State) : Prop := align4 s.sp = s.sp

/-! ## Outcomes and runs -/

/-- The five outcomes of a step (rule R270). -/
inductive StepOutcome where
  | ok
  | notRunning
  | decodeFault (op : Byte)
  | busFault (e : BusError)
  | arithmeticFault (cause : ArithCause)
  deriving DecidableEq, Repr

/-- The outcome of rule R270 a step had; none where a device holds the step (rule R68). -/
def stepOutcome : Host.Outcome State Fault Refusal → Option StepOutcome
  | .next t =>
    match t.report with
    | .ok => some .ok
    | .decodeFault op => some (.decodeFault op)
    | .arithmeticFault cause => some (.arithmeticFault cause)
  | .fault .notRunning => some .notRunning
  | .fault (.busFault e _) => some (.busFault e)
  | .fault (.deviceHolds _ _) => none
  | .refused _ => none

/-- The state a step leaves: the next state, the state a bus fault leaves, or the state itself where the step had no
effect; none where a device holds the step. -/
def stateAfter (s : State) : Host.Outcome State Fault Refusal → Option State
  | .next t => some t
  | .fault .notRunning => some s
  | .fault (.busFault _ t) => some t
  | .fault (.deviceHolds _ _) => none
  | .refused _ => some s

/-- How a run ends (rule R304). `unfinished` is a run whose given number of steps has not reached an end. -/
inductive RunEnd where
  | sleeping (s : State)
  | faulted (s : State)
  | busFault (e : BusError) (s : State)
  | held
  | notStarted
  | unfinished (s : State)
  deriving DecidableEq, Repr

/-- The run driver: step while Running, at most `fuel` steps, no retry after a bus fault (rule R304). -/
def drive : Nat → State → RunEnd
  | 0, s => .unfinished s
  | fuel + 1, s =>
    match step s with
    | .next t =>
      match t.state with
      | .running => drive fuel t
      | .sleeping => .sleeping t
      | .stopped | .waiting => .faulted t
    | .fault .notRunning => .notStarted
    | .fault (.busFault e t) => .busFault e t
    | .fault (.deviceHolds _ _) => .held
    | .refused _ => .notStarted

/-- Push the words of a list in order (rule R75). -/
def pushAll : List Word → State → Access Unit
  | [], s => .done () s
  | v :: vs, s => (push v s).andThen fun _ s => pushAll vs s

/-- Pop `n` words, the first popped first in the list (rule R76). -/
def popAll : Nat → State → Access (List Word)
  | 0, s => .done [] s
  | n + 1, s => (pop s).andThen fun v s => (popAll n s).andThen fun vs s => .done (v :: vs) s

/-- A change of state applied to an outcome: to the next state, or to the state a bus fault leaves. -/
def mapOutcome (f : State → State) : Host.Outcome State Fault Refusal → Host.Outcome State Fault Refusal
  | .next t => .next (f t)
  | .fault .notRunning => .fault .notRunning
  | .fault (.busFault e t) => .fault (.busFault e (f t))
  | .fault (.deviceHolds op a) => .fault (.deviceHolds op a)
  | .refused r => .refused r

end Sys2Proof.Machine
end

