-- ==== Sys2Proof/Certificates/Slice0/Obligations.lean ====
section
/-! DEFINITION. The statements for the provers, from the rules of spec/. `Claims` holds the shapes several share.
A result statement names the bus's answers as its hypotheses, in the order the opcode asks for them, and gives the
whole next state, so it is also the completion statement of its instructions. -/

namespace Sys2Proof.Claims

open Sys2Proof.Config Sys2Proof.Machine

/-- Any state. -/
abbrev anyMode (_ : State) : Prop := True

/-- An opcode of one operand: `a` is popped from `align4(sp)`, `f a` is stored back to that slot. -/
def unaryResult (mode : State → Prop) (i : Instr) (f : State → Word → Word) : Prop :=
  ∀ (s : State) (a : Word) (b1 b2 : Bus), mode s →
    Answers s.bus (.get32 (align4 s.sp)) a b1 →
    Answers b1 (.set32 (align4 s.sp) (f s a)) 0 b2 →
    exec i s = .next { s with pc := s.pc + 1, sp := align4 s.sp, bus := b2 }

/-- An opcode of two operands: `a` (TOS) from `align4(sp)`, `b` (NOS) from the slot above, `f a b` stored to that
slot. -/
def binaryResult (mode : State → Prop) (i : Instr) (f : State → Word → Word → Word) : Prop :=
  ∀ (s : State) (a b : Word) (b1 b2 b3 : Bus), mode s →
    Answers s.bus (.get32 (align4 s.sp)) a b1 →
    Answers b1 (.get32 (align4 s.sp + 4)) b b2 →
    Answers b2 (.set32 (align4 s.sp + 4) (f s a b)) 0 b3 →
    exec i s = .next { s with pc := s.pc + 1, sp := align4 s.sp + 4, bus := b3 }

/-- The bus fault at the first pop, or at the only one: no register has changed. -/
def firstPopFault (mode : State → Prop) (i : Instr) : Prop :=
  ∀ (s : State) (e : BusError) (b1 : Bus), mode s → Fails s.bus (.get32 (align4 s.sp)) e b1 →
    exec i s = .fault (.busFault e { s with bus := b1 })

/-- The bus fault at the second pop: `sp` is as the first pop left it. -/
def secondPopFault (mode : State → Prop) (i : Instr) : Prop :=
  ∀ (s : State) (a : Word) (e : BusError) (b1 b2 : Bus), mode s →
    Answers s.bus (.get32 (align4 s.sp)) a b1 → Fails b1 (.get32 (align4 s.sp + 4)) e b2 →
    exec i s = .fault (.busFault e { s with sp := align4 s.sp + 4, bus := b2 })

/-- The bus faults of an opcode of one operand: at the pop, or at the push, with `sp` as the push left it. -/
def unaryFaults (mode : State → Prop) (i : Instr) (f : State → Word → Word) : Prop :=
  firstPopFault mode i ∧
  (∀ (s : State) (a : Word) (e : BusError) (b1 b2 : Bus), mode s →
    Answers s.bus (.get32 (align4 s.sp)) a b1 → Fails b1 (.set32 (align4 s.sp) (f s a)) e b2 →
    exec i s = .fault (.busFault e { s with sp := align4 s.sp, bus := b2 }))

/-- The bus faults of an opcode of two operands, at each of its three accesses. -/
def binaryFaults (mode : State → Prop) (i : Instr) (f : State → Word → Word → Word) : Prop :=
  firstPopFault mode i ∧ secondPopFault mode i ∧
  (∀ (s : State) (a b : Word) (e : BusError) (b1 b2 b3 : Bus), mode s →
    Answers s.bus (.get32 (align4 s.sp)) a b1 → Answers b1 (.get32 (align4 s.sp + 4)) b b2 →
    Fails b2 (.set32 (align4 s.sp + 4) (f s a b)) e b3 →
    exec i s = .fault (.busFault e { s with sp := align4 s.sp + 4, bus := b3 }))

/-- An opcode of one operand: its result and its bus faults. -/
def unaryWhole (mode : State → Prop) (i : Instr) (f : State → Word → Word) : Prop :=
  unaryResult mode i f ∧ unaryFaults mode i f

/-- An opcode of two operands: its result and its bus faults. -/
def binaryWhole (mode : State → Prop) (i : Instr) (f : State → Word → Word → Word) : Prop :=
  binaryResult mode i f ∧ binaryFaults mode i f

/-- The software trap of slot `index`: the return address `pc + 1` pushed, `pc` at `index * 32`, nothing else. -/
def trapResult (mode : State → Prop) (i : Instr) (index : Nat) : Prop :=
  ∀ (s : State) (b : Bus), mode s →
    Answers s.bus (.set32 (align4 (s.sp - 4)) (s.pc + 1)) 0 b →
    exec i s = .next { s with pc := BitVec.ofNat 32 (index * 32), sp := s.sp - 4, bus := b }

/-- The bus fault of the trap, at its push: `sp` decremented, `pc` unchanged. -/
def trapFault (mode : State → Prop) (i : Instr) : Prop :=
  ∀ (s : State) (e : BusError) (b : Bus), mode s →
    Fails s.bus (.set32 (align4 (s.sp - 4)) (s.pc + 1)) e b →
    exec i s = .fault (.busFault e { s with sp := s.sp - 4, bus := b })

/-- The software trap: its result and its bus fault. -/
def trapWhole (mode : State → Prop) (i : Instr) (index : Nat) : Prop := trapResult mode i index ∧ trapFault mode i

/-- The bus faults of a conditional branch, at either pop. -/
def branchFaults (i : Instr) : Prop := firstPopFault native i ∧ secondPopFault native i

/-- A conditional branch: displacement `a`, then condition `b`; `pc + a` if taken, else `pc + 1`. -/
def branchResult (i : Instr) (taken : Word → Prop) : Prop :=
  ∀ (s : State) (a b : Word) (b1 b2 : Bus), native s →
    Answers s.bus (.get32 (align4 s.sp)) a b1 →
    Answers b1 (.get32 (align4 s.sp + 4)) b b2 →
    (taken b → exec i s = .next { s with pc := s.pc + a, sp := align4 s.sp + 8, bus := b2 }) ∧
    (¬ taken b → exec i s = .next { s with pc := s.pc + 1, sp := align4 s.sp + 8, bus := b2 })

/-- A division that raises no fault. -/
def divideResult (i : Instr) (f : Word → Word → Word) : Prop :=
  ∀ (s : State) (a b : Word) (b1 b2 b3 : Bus), native s → b ≠ 0 → ¬ (a = 0x80000000 ∧ b = 0xFFFFFFFF) →
    Answers s.bus (.get32 (align4 s.sp)) a b1 →
    Answers b1 (.get32 (align4 s.sp + 4)) b b2 →
    Answers b2 (.set32 (align4 s.sp + 4) (f a b)) 0 b3 →
    exec i s = .next { s with pc := s.pc + 1, sp := align4 s.sp + 4, bus := b3 }

/-- The bus faults of a division, at each of its three accesses; the push is reached only without an arithmetic
fault. -/
def divideBusFaults (i : Instr) (f : Word → Word → Word) : Prop :=
  firstPopFault native i ∧ secondPopFault native i ∧
  (∀ (s : State) (a b : Word) (e : BusError) (b1 b2 b3 : Bus), native s → b ≠ 0 →
    ¬ (a = 0x80000000 ∧ b = 0xFFFFFFFF) →
    Answers s.bus (.get32 (align4 s.sp)) a b1 → Answers b1 (.get32 (align4 s.sp + 4)) b b2 →
    Fails b2 (.set32 (align4 s.sp + 4) (f a b)) e b3 →
    exec i s = .fault (.busFault e { s with sp := align4 s.sp + 4, bus := b3 }))

/-- A division that raises its fault: both pops done, nothing pushed, `state` Stopped, `pc` kept. -/
def divideFault (i : Instr) : Prop :=
  ∀ (s : State) (a b : Word) (b1 b2 : Bus), native s →
    Answers s.bus (.get32 (align4 s.sp)) a b1 →
    Answers b1 (.get32 (align4 s.sp + 4)) b b2 →
    (b = 0 → exec i s = .next
      { s with sp := align4 s.sp + 8, bus := b2, state := .stopped, report := .arithmeticFault .divideByZero }) ∧
    (a = 0x80000000 → b = 0xFFFFFFFF → exec i s = .next
      { s with sp := align4 s.sp + 8, bus := b2, state := .stopped, report := .arithmeticFault .divideOverflow })

/-- Everything but `pc`, `sp` and the devices' bytes is as before. -/
abbrev registersKept (s t : State) : Prop :=
  t.lastIm = s.lastIm ∧ t.state = s.state ∧ t.params = s.params ∧ t.prevIm = s.prevIm ∧ t.report = s.report ∧
    t.bus.shape = s.bus.shape

/-- The frame of an opcode that stores nothing. -/
def frameNoStore (mode : State → Prop) (i : Instr) : Prop :=
  ∀ s t : State, mode s → exec i s = .next t → registersKept s t ∧ bytesKept s.bus t.bus fun _ => True

/-- The frame of an opcode that pushes with the stack pointer at `sp s`: that push is its one store. -/
def framePush (mode : State → Prop) (i : Instr) (sp : State → Word) : Prop :=
  ∀ s t : State, mode s → exec i s = .next t →
    registersKept s t ∧ t.sp = sp s - 4 ∧ bytesKept s.bus t.bus (outsideWord (align4 (sp s - 4)))

/-- The stack pointer after one pop (rule R76). -/
abbrev spPop1 (s : State) : Word := align4 (s.sp + 4)

/-- The stack pointer after two pops. -/
abbrev spPop2 (s : State) : Word := align4 (align4 (s.sp + 4) + 4)

/-- The instructions of rule R255's list: POPPC, the two branches, POPPCREL and CALLPCREL. -/
abbrev transfersControl (i : Instr) : Prop :=
  i = .poppc ∨ i = .eqbranch ∨ i = .neqbranch ∨ i = .poppcrel ∨ i = .callpcrel

end Sys2Proof.Claims

open Sys2Proof Sys2Proof.Config Sys2Proof.Machine Sys2Proof.Claims

/-! ## Encoding -/

/-- Decoding the byte of a well-formed instruction gives the instruction back, every field at every value (rules R101
to R106). The exact byte values and slot numbers are the spec's own choice (92_eei_decisions.md D3, D4). -/
def Obligations.DecodeEncode : Prop := ∀ i : Instr, i.wf = true → decodeByte (encode i) = i

/-- Words written out from the encoding tables decode to their instructions, and every byte decodes to a well-formed
instruction whose byte it is, `illegal` exactly for 01, 03, 0E and 0F (rules R101 to R108; values by D3, D4). -/
def Obligations.SampleWords : Prop :=
  decodeByte 0b00000101 = .add ∧ decodeByte 0b00001011 = .nop ∧ decodeByte 0b00001100 = .store ∧
  decodeByte 0b11000001 = .im 0b1000001 ∧ decodeByte 0b01010001 = .storesp 0b10001 ∧
  decodeByte 0b01100000 = .loadsp 0b00000 ∧ decodeByte 0b00010011 = .addsp 0b0011 ∧
  decodeByte 0b00110000 = .sub ∧ decodeByte 0b00110011 = .storeb ∧ decodeByte 0b00111110 = .callpcrel ∧
  ∀ op : Byte, (decodeByte op).wf = true ∧ encode (decodeByte op) = op ∧
    ((decodeByte op = .illegal op) ↔ op = 0x01 ∨ op = 0x03 ∨ op = 0x0E ∨ op = 0x0F)

/-- The expansion of `imm v` is an IM chain that leaves `v` on the stack, of one to five bytes (rule R112; the
pseudo-instruction is the spec's own, D27). -/
def Obligations.ImmExpansion : Prop :=
  ∀ v : Word, ∃ (first : BitVec 7) (rest : List (BitVec 7)),
    immLiterals v = first :: rest ∧ rest.length ≤ 4 ∧ immRun first rest = v

/-- After a chain of IM bytes the top of the stack is the low 32 bits of the sign-extended concatenation of their
literals: the integer `signed(first)`, times 128 plus the literal for each later byte (rule R104, a consequence the
spec derives). -/
def Obligations.ImmRunValue : Prop :=
  ∀ (first : BitVec 7) (rest : List (BitVec 7)),
    immRun first rest = BitVec.ofInt 32 (rest.foldl (fun z i => z * 128 + (i.toNat : Int)) first.toInt)

/-- The assembler forms of rule R111 (the spec's own, D27) assemble to bytes that decode to the form and the operand
written. -/
def Obligations.AssemblerForms : Prop :=
  (∀ (z : Int) (op : Byte), asmIm z = some op → ∃ i, decodeByte op = .im i ∧ immFirst i = BitVec.ofInt 32 z) ∧
  (∀ (k : Nat) (op : Byte), asmStoresp k = some op →
    ∃ x, decodeByte op = .storesp x ∧ sprelOffset x = BitVec.ofNat 32 k) ∧
  (∀ (k : Nat) (op : Byte), asmLoadsp k = some op →
    ∃ x, decodeByte op = .loadsp x ∧ sprelOffset x = BitVec.ofNat 32 k) ∧
  (∀ (k : Nat) (op : Byte), asmAddsp k = some op →
    ∃ n, decodeByte op = .addsp n ∧ addspOffset n = BitVec.ofNat 32 k) ∧
  (∀ (n : Nat) (op : Byte), asmEmulate n = some op → decodeByte op = emulateSlot (BitVec.ofNat 5 n))

/-! ## The step -/

/-- A step outside Running returns NotRunning and has no effect: there is no next state (rule R271). -/
def Obligations.StepNotRunning : Prop := ∀ s : State, s.state ≠ .running → step s = .fault .notRunning

/-- A Running step latches and clears `last_im`, fetches the byte at `pc`, and is `exec` of the instruction it decodes
to; a byte of a well-formed instruction `i` runs `i` (rule R130; `prevIm` and `report` are the model's own fields,
assumption log 9 and 11). -/
def Obligations.StepRunsDecoded : Prop :=
  ∀ (s : State) (w : Word) (b : Bus), s.state = .running → Answers s.bus (.get s.pc) w b →
    step s = exec (decodeByte (w.setWidth 8)) { s with prevIm := s.lastIm, lastIm := false, report := .ok, bus := b } ∧
    ∀ i : Instr, i.wf = true → w.setWidth 8 = encode i →
      step s = exec i { s with prevIm := s.lastIm, lastIm := false, report := .ok, bus := b }

/-- A fatal error at the fetch is the step's outcome, before any decode: BusFault, `pc`, `sp` and `state` kept,
`last_im` cleared (rules R274, R279; the clearing before the fetch is D11). -/
def Obligations.FetchFault : Prop :=
  ∀ (s : State) (e : BusError) (b : Bus), s.state = .running → Fails s.bus (.get s.pc) e b →
    step s = .fault (.busFault e { s with prevIm := s.lastIm, lastIm := false, report := .ok, bus := b })

/-- On the reference platform, placing a well-formed instruction's byte for the next step makes that step run it
(assumption log 15: the placing is the model's rendering of the loader, rule R301). -/
def Obligations.PlacedByteRuns : Prop :=
  ∀ (s : State) (size : Word) (m : Memory) (i : Instr), onRam s.bus size m → m.wf → s.pc.toNat < size.toNat →
    i.wf = true →
    step (s.withFetchWord 8 (encode i).toNat) =
      exec i { s with state := .running, prevIm := s.lastIm, lastIm := false, report := .ok,
                      bus := .cons (.leaf (.ram size (m.write s.pc.toNat (encode i)))) .empty }

/-! ## Whole-machine rules -/

/-- No instruction is refused, and an instruction stops only at a bus access: BusFault, or a device that holds the
step (rules R270, R274, R68; every opcode is available to every program, R283). -/
def Obligations.OnlyBusStops : Prop :=
  (∀ (i : Instr) (s : State) (r : Refusal), exec i s ≠ .refused r) ∧
  (∀ (i : Instr) (s : State) (f : Fault), exec i s = .fault f →
    (∃ e t, f = .busFault e t) ∨ ∃ op a, f = .deviceHolds op a) ∧
  (∀ (s : State) (r : Refusal), step s ≠ .refused r)

/-- A BusFault aborts the step with `pc` and `state` unchanged and `last_im` false, and its kind is never soft (rules
R23, R65, R274, R276; that `pc` is written last is D10). -/
def Obligations.BusFaultPrecise : Prop :=
  ∀ (s : State) (e : BusError) (t : State), step s = .fault (.busFault e t) →
    t.pc = s.pc ∧ t.state = .running ∧ t.lastIm = false ∧ isSoft e.kind = false

/-- No step changes the construction parameters, the device list or its order, whether it gives a next state or a bus
fault (rules R25, R26). -/
def Obligations.ConstructionFixed : Prop :=
  ∀ s t : State, (step s = .next t ∨ ∃ e, step s = .fault (.busFault e t)) →
    t.params = s.params ∧ t.bus.shape = s.bus.shape

/-- Every step keeps the canonical form of every device's stored bytes (an invariant of the model's memory). -/
def Obligations.StepKeepsWf : Prop :=
  ∀ s t : State, s.wf → (step s = .next t ∨ ∃ e, step s = .fault (.busFault e t)) → t.wf

/-- The invariants hold after construction, and the registers hold the values of rule R31: Stopped, `pc` 0, `last_im`
false (`pc` and `last_im` by D18; `sp` is the model's choice, assumption log 2). -/
def Obligations.ResetState : Prop :=
  State.reset.wf ∧ spAligned State.reset ∧ State.reset.state = .stopped ∧ State.reset.pc = 0 ∧
    State.reset.lastIm = false ∧ State.reset.sp = spInit

/-- `sp` stays word-aligned: it holds an unaligned value only if the host seeded one (rule R22, with D9). -/
def Obligations.StepKeepsSpAligned : Prop :=
  ∀ s t : State, spAligned s → (step s = .next t ∨ ∃ e, step s = .fault (.busFault e t)) → spAligned t

/-- The transitions of the execution state a step can make: it stays Running and reports Ok, or BREAKPOINT puts it to
Sleeping, or a reported decode or arithmetic fault stops it; no step enters Waiting (rules R24, R270, R275; the
arithmetic fault is D12). -/
def Obligations.ExecutionStates : Prop :=
  ∀ s t : State, step s = .next t →
    s.state = .running ∧
    (t.state = .running ∧ t.report = .ok ∨
     t.state = .sleeping ∧ t.report = .ok ∧ (∃ w b, Answers s.bus (.get s.pc) w b ∧ w.setWidth 8 = encode .breakpoint) ∨
     t.state = .stopped ∧ ((∃ op, t.report = .decodeFault op) ∨ ∃ c, t.report = .arithmeticFault c))

/-- After a step that gives a next state, `last_im` is true exactly when that step executed an immediate load (rule
R23). -/
def Obligations.LastImExact : Prop :=
  ∀ (s t : State) (w : Word) (b : Bus), step s = .next t → Answers s.bus (.get s.pc) w b →
    (t.lastIm = true ↔ ∃ i, decodeByte (w.setWidth 8) = .im i)

/-- Control goes elsewhere than `pc + 1` only by rule R255's list, by the EMULATE trap to `index * 32`, or stays at
`pc` where the core has stopped or gone to sleep. -/
def Obligations.ControlTransfers : Prop :=
  ∀ (i : Instr) (s t : State), exec i s = .next t →
    t.pc = s.pc + 1 ∨ transfersControl i ∨ (∃ index, i = emulateSlot index ∧ t.pc = trapVector index) ∨
    (t.pc = s.pc ∧ (t.state = .sleeping ∨ t.state = .stopped))

/-- The pre-step value of `last_im` changes nothing but an immediate load: any other instruction does the same
whatever it was (rule R30). -/
def Obligations.PrevImOnlyImmediate : Prop :=
  ∀ (i : Instr) (s : State) (p : Bool), (∀ k, i ≠ .im k) →
    exec i { s with prevIm := p } = mapOutcome (fun t => { t with prevIm := p }) (exec i s)

/-- On the reference platform EVERY instruction of the table gives a next state, in every choice of the parameters,
if the stack it reaches, and for a load the popped address, lie in the RAM (rules R69, R130 to R254). -/
def Obligations.RamProgress : Prop :=
  ∀ (i : Instr) (s : State) (size : Word) (m : Memory), onRam s.bus size m → stackInRam s.sp size →
    loadInRam i (m.readWord (align4 s.sp).toNat) size → ∃ t, exec i s = .next t

/-! ## The bus -/

/-- The soft kinds are exactly the seven of rule R52; every other kind is fatal. -/
def Obligations.SoftKinds : Prop :=
  ∀ k : ErrKind, (isSoft k = true ↔ k = .addressTooSmall ∨ k = .addressTooBig ∨ k = .notImplemented ∨
    k = .notApplicable ∨ k = .invalidAddress ∨ k = .readOnly ∨ k = .noData) ∧ (isFatal k = !isSoft k)

/-- A read is answered by the first device that succeeds, after soft answers from every device before it; the devices
after it are not consulted (rule R56, and R61 for words). -/
def Obligations.ProbeFirstOwner : Prop :=
  ∀ (pre rest : List Device) (d d' : Device) (q : Request) (v : Word), isProbe q = true →
    (∀ x ∈ pre, answersSoft (x.handle q).2 = true) → d.handle q = (d', .ok v) →
    (busOf (pre ++ d :: rest)).request q = (busOf (pre.map (fun x => (x.handle q).1) ++ d' :: rest), .ok v)

/-- A read no device owns is the fatal AllDevicesFaulted naming the device count, after every device was probed once
(rule R56, and R61 for words); the empty bus included. That this error has no device position is the model's choice
(assumption log 12). -/
def Obligations.ProbeExhausted : Prop :=
  ∀ (ds : List Device) (q : Request), isProbe q = true → (∀ x ∈ ds, answersSoft (x.handle q).2 = true) →
    (busOf ds).request q = (busOf (ds.map fun x => (x.handle q).1),
      .fatal ⟨.allDevicesFaulted ds.length, none, requestOp q, requestAddr q⟩)

/-- A write reaches every device, whether or not an earlier one handled it, and succeeds if every answer is a success
or soft (rule R57, and R62 for words); `init`, `tick`, `delete` and `flush` reach every device likewise (rules R54, R55,
R58, R59). -/
def Obligations.BroadcastReachesAll : Prop :=
  ∀ (ds : List Device) (q : Request), isProbe q = false → (∀ x ∈ ds, answersOn (x.handle q).2 = true) →
    (busOf ds).request q = (busOf (ds.map fun x => (x.handle q).1), .ok 0)

/-- The first fatal error aborts the operation, annotated with the device's position counted from 0, the operation and
the address; the devices after it are not reached (rules R53, R56, R57, R61, R62, and R54, R58, R59 for `init`, `delete`
and `flush`; the count from 0 is D23). Two parts of the annotation are the model's choice: `from` as the address of
`delete(from, to)` (assumption log 27), and an inner bus's own position for a fatal error of a nested bus (assumption
log 12). -/
def Obligations.FatalAborts : Prop :=
  ∀ (pre rest : List Device) (d d' : Device) (q : Request) (kind : ErrKind),
    (∀ x ∈ pre, if isProbe q then answersSoft (x.handle q).2 = true else answersOn (x.handle q).2 = true) →
    d.handle q = (d', .err kind) → isFatal kind = true →
    (busOf (pre ++ d :: rest)).request q = (busOf (pre.map (fun x => (x.handle q).1) ++ d' :: rest),
      .fatal ⟨kind, some pre.length, requestOp q, requestAddr q⟩)

/-- A nested bus that owns nothing at an address stops the outer read with its AllDevicesFaulted; the devices after it
are not probed. Its write lets the outer broadcast go on (rule R64, which the spec derives; that the kind stays fatal is
D24, the annotated position assumption log 12). -/
def Obligations.NestedBus : Prop :=
  ∀ (inner rest : List Device) (q : Request),
    (isProbe q = true → (∀ x ∈ inner, answersSoft (x.handle q).2 = true) →
      (busOf (.bus (busOf inner) :: rest)).request q =
        (busOf (.bus (busOf (inner.map fun x => (x.handle q).1)) :: rest),
          .fatal ⟨.allDevicesFaulted inner.length, some 0, requestOp q, requestAddr q⟩)) ∧
    (isProbe q = false → (∀ x ∈ inner, answersOn (x.handle q).2 = true) → (∀ x ∈ rest, answersOn (x.handle q).2 = true) →
      (busOf (.bus (busOf inner) :: rest)).request q =
        (busOf (.bus (busOf (inner.map fun x => (x.handle q).1)) :: rest.map fun x => (x.handle q).1), .ok 0))

/-- `get_size` of a bus is the maximum over its devices, 0 for none (rule R60; the 0 is D23). -/
def Obligations.SizeIsMaximum : Prop :=
  ∀ ds : List Device, (∀ d ∈ ds, d.getSize.toNat ≤ (busOf ds).getSize.toNat) ∧
    ((busOf ds).getSize = 0 ∨ ∃ d ∈ ds, (busOf ds).getSize = d.getSize)

/-- On the reference RAM a word written reads back whole, and its bytes lie most significant first. A device without its
own `get32` or `set32` composes the word from its bytes in ascending order, and stops at the first that does not
succeed, whose answer is the word's; what it did before stays done (rules R63, R69, R77; RAM(S) is the spec's own device,
D26, the composition D22). -/
def Obligations.RamReadBack : Prop :=
  (∀ (size : Word) (m : Memory) (a v : Word), m.wf → a.toNat + 3 < size.toNat →
    ∃ b, Answers (.cons (.leaf (.ram size m)) .empty) (.set32 a v) 0 b ∧ Answers b (.get32 a) v b ∧
      Answers b (.get a) (v >>> 24) b ∧ Answers b (.get (a + 1)) ((v >>> 16) &&& 0xFF) b ∧
      Answers b (.get (a + 2)) ((v >>> 8) &&& 0xFF) b ∧ Answers b (.get (a + 3)) (v &&& 0xFF) b) ∧
  (∀ (l : Leaf) (a w0 w1 w2 w3 : Word) (d : Device), leafHasGet32 l = false →
    serves (.leaf l) (byteGets a) [w0, w1, w2, w3] d →
    (Device.leaf l).handle (.get32 a) =
      (d, .ok (w0.setWidth 8 ++ w1.setWidth 8 ++ w2.setWidth 8 ++ w3.setWidth 8 : BitVec 32))) ∧
  (∀ (l : Leaf) (a v w0 w1 w2 w3 : Word) (d : Device), leafHasSet32 l = false →
    serves (.leaf l) (byteSets a v) [w0, w1, w2, w3] d → (Device.leaf l).handle (.set32 a v) = (d, .ok 0)) ∧
  (∀ (l : Leaf) (a : Word) (k : Nat) (q : Request) (ws : List Word) (d d' : Device) (x : Answer),
    leafHasGet32 l = false → (byteGets a)[k]? = some q → serves (.leaf l) ((byteGets a).take k) ws d →
    d.handle q = (d', x) → (∀ w, x ≠ .ok w) → (Device.leaf l).handle (.get32 a) = (d', x)) ∧
  (∀ (l : Leaf) (a v : Word) (k : Nat) (q : Request) (ws : List Word) (d d' : Device) (x : Answer),
    leafHasSet32 l = false → (byteSets a v)[k]? = some q → serves (.leaf l) ((byteSets a v).take k) ws d →
    d.handle q = (d', x) → (∀ w, x ≠ .ok w) → (Device.leaf l).handle (.set32 a v) = (d', x))

/-- A bus request changes no stored byte, in any device, but those it stores to, and keeps the device list (rules R56,
R57, R26). -/
def Obligations.RequestFrame : Prop :=
  ∀ (b : Bus) (q : Request), (b.request q).1.shape = b.shape ∧
    bytesKept b (b.request q).1 fun x => ¬ storesTo q x

/-- On a bus without external collaborators a read has no side effect, and what it answers at an address is decided by
the device list and the bytes stored for that address (rules R56, R66, R67). -/
def Obligations.QuietReads : Prop :=
  ∀ (b b' : Bus) (a : Word), b.quiet = true → b'.shape = b.shape → b'.bytesAt a = b.bytesAt a →
    (b.request (.get a)).1 = b ∧ (b.request (.get32 a)).1 = b ∧ readByte b' a = readByte b a

/-- Two memories in canonical form that read alike are the same data. -/
def Obligations.MemoryExtensional : Prop :=
  ∀ m m' : Memory, m.wf → m'.wf → (∀ a, m.read a = m'.read a) → m = m'

/-- Stack round-trip: pushes followed by as many pops return the values in LIFO order, and `sp` is as it was, on the
reference RAM from an aligned `sp` (rules R75, R76; 95_test_vectors.md L1.4). -/
def Obligations.StackRoundTrip : Prop :=
  ∀ (vs : List Word) (s : State) (size : Word) (m : Memory), onRam s.bus size m → m.wf → spAligned s →
    4 * vs.length ≤ s.sp.toNat → s.sp.toNat ≤ size.toNat →
    ∃ s1 s2 m2, pushAll vs s = .done () s1 ∧ popAll vs.length s1 = .done vs.reverse s2 ∧ s2.sp = s.sp ∧
      onRam s2.bus size m2

/-! ## Instructions: results and completion -/

/-- BREAKPOINT goes to Sleeping at its own `pc`, or past it if BREAK_ADVANCES_PC; NOP goes on; a byte that matches no
decode step stops the core at its own `pc` and reports DecodeFault naming it, and the halt is sticky (rules R131, R141,
R271, R273; BREAKPOINT's `pc` is D7, DecodeFault's D21). -/
def Obligations.StopsAndNop : Prop :=
  (∀ s : State, s.params.breakAdvancesPc = false → exec .breakpoint s = .next { s with state := .sleeping }) ∧
  (∀ s : State, s.params.breakAdvancesPc = true →
    exec .breakpoint s = .next { s with state := .sleeping, pc := s.pc + 1 }) ∧
  (∀ s : State, exec .nop s = .next { s with pc := s.pc + 1 }) ∧
  (∀ (s : State) (op : Byte), exec (.illegal op) s = .next { s with state := .stopped, report := .decodeFault op } ∧
    step { s with state := .stopped, report := .decodeFault op } = .fault .notRunning)

/-- PUSHSP pushes `sp` as it was, unmasked; POPPC jumps to the popped word, unmasked; POPSP loads `sp` with the popped
word, aligned (rules R132, R133, R144; PUSHSP's value is D9). -/
def Obligations.StackPointerOps : Prop :=
  (∀ (s : State) (b : Bus), Answers s.bus (.set32 (align4 (s.sp - 4)) s.sp) 0 b →
    exec .pushsp s = .next { s with pc := s.pc + 1, sp := s.sp - 4, bus := b }) ∧
  (∀ (s : State) (t : Word) (b : Bus), Answers s.bus (.get32 (align4 s.sp)) t b →
    exec .poppc s = .next { s with pc := t, sp := align4 s.sp + 4, bus := b }) ∧
  (∀ (s : State) (a : Word) (b : Bus), Answers s.bus (.get32 (align4 s.sp)) a b →
    exec .popsp s = .next { s with pc := s.pc + 1, sp := align4 a, bus := b })

/-- AND, OR, NOT and XOR, with their bus faults (rules R75, R76, R135, R136, R138, R217, R276; the state left at a fault
is D10). -/
def Obligations.BitwiseOps : Prop :=
  binaryWhole anyMode .and (fun _ a b => a &&& b) ∧
  binaryWhole anyMode .or (fun _ a b => a ||| b) ∧
  unaryWhole anyMode .not (fun _ a => ~~~a) ∧
  binaryWhole native .xor (fun _ a b => a ^^^ b)

/-- ADD modulo 2^32; FLIP by FLIP_FN, whose default moves bit `31 - k` to bit `k`; with their bus faults (rules R75, R76,
R134, R140, R276; the wrap is D2, the default FLIP_FN is D14, the state left at a fault is D10). -/
def Obligations.AddFlip : Prop :=
  binaryWhole anyMode .add (fun _ a b => a + b) ∧
  unaryWhole anyMode .flip (fun s a => flipWord s.params.flipFn a) ∧
  ∀ (a : Word) (k : Nat), k < 32 → (flipWord .bitReversal a).getLsbD k = a.getLsbD (31 - k)

/-- LOAD and STORE at the popped address with its low two bits cleared, with their bus faults at each access (rules
R75, R76, R137, R142, R276; the state left at a fault is D10). -/
def Obligations.LoadStore : Prop :=
  (∀ (s : State) (a v : Word) (b1 b2 b3 : Bus),
    Answers s.bus (.get32 (align4 s.sp)) a b1 → Answers b1 (.get32 (align4 a)) v b2 →
    Answers b2 (.set32 (align4 s.sp) v) 0 b3 →
    exec .load s = .next { s with pc := s.pc + 1, sp := align4 s.sp, bus := b3 }) ∧
  (∀ (s : State) (a v : Word) (b1 b2 b3 : Bus),
    Answers s.bus (.get32 (align4 s.sp)) a b1 → Answers b1 (.get32 (align4 s.sp + 4)) v b2 →
    Answers b2 (.set32 (align4 a) v) 0 b3 →
    exec .store s = .next { s with pc := s.pc + 1, sp := align4 s.sp + 8, bus := b3 }) ∧
  (∀ (i : Instr) (s : State) (e : BusError) (b1 : Bus), i = .load ∨ i = .store →
    Fails s.bus (.get32 (align4 s.sp)) e b1 → exec i s = .fault (.busFault e { s with bus := b1 })) ∧
  (∀ (s : State) (a : Word) (e : BusError) (b1 b2 : Bus),
    Answers s.bus (.get32 (align4 s.sp)) a b1 → Fails b1 (.get32 (align4 a)) e b2 →
    exec .load s = .fault (.busFault e { s with sp := align4 s.sp + 4, bus := b2 })) ∧
  (∀ (s : State) (a v : Word) (e : BusError) (b1 b2 b3 : Bus),
    Answers s.bus (.get32 (align4 s.sp)) a b1 → Answers b1 (.get32 (align4 a)) v b2 →
    Fails b2 (.set32 (align4 s.sp) v) e b3 →
    exec .load s = .fault (.busFault e { s with sp := align4 s.sp, bus := b3 })) ∧
  (∀ (s : State) (a : Word) (e : BusError) (b1 b2 : Bus),
    Answers s.bus (.get32 (align4 s.sp)) a b1 → Fails b1 (.get32 (align4 s.sp + 4)) e b2 →
    exec .store s = .fault (.busFault e { s with sp := align4 s.sp + 4, bus := b2 })) ∧
  (∀ (s : State) (a v : Word) (e : BusError) (b1 b2 b3 : Bus),
    Answers s.bus (.get32 (align4 s.sp)) a b1 → Answers b1 (.get32 (align4 s.sp + 4)) v b2 →
    Fails b2 (.set32 (align4 a) v) e b3 →
    exec .store s = .fault (.busFault e { s with sp := align4 s.sp + 8, bus := b3 }))

/-- IM: not chained it pushes `sext_7(i)`; chained it replaces the top of the stack `x` by
`((x & 0x1FFFFFFF) << 7) | i`; both set `last_im`. A bus fault at the pop or the push leaves `last_im` as the step
cleared it (rules R75, R76, R160, R161, R276; the unmasked `sp - 4` of the push is D9, the state left at a fault
D10). -/
def Obligations.ImmediateResult : Prop :=
  (∀ (s : State) (i : BitVec 7) (b : Bus), s.prevIm = false →
    Answers s.bus (.set32 (align4 (s.sp - 4)) (i.signExtend 32)) 0 b →
    exec (.im i) s = .next { s with pc := s.pc + 1, sp := s.sp - 4, lastIm := true, bus := b }) ∧
  (∀ (s : State) (i : BitVec 7) (x : Word) (b1 b2 : Bus), s.prevIm = true →
    Answers s.bus (.get32 (align4 s.sp)) x b1 →
    Answers b1 (.set32 (align4 s.sp) (((x &&& 0x1FFFFFFF) <<< 7) ||| i.setWidth 32)) 0 b2 →
    exec (.im i) s = .next { s with pc := s.pc + 1, sp := align4 s.sp, lastIm := true, bus := b2 }) ∧
  (∀ (s : State) (i : BitVec 7) (e : BusError) (b : Bus), s.prevIm = false →
    Fails s.bus (.set32 (align4 (s.sp - 4)) (i.signExtend 32)) e b →
    exec (.im i) s = .fault (.busFault e { s with sp := s.sp - 4, bus := b })) ∧
  (∀ (s : State) (i : BitVec 7) (e : BusError) (b1 : Bus), s.prevIm = true →
    Fails s.bus (.get32 (align4 s.sp)) e b1 → exec (.im i) s = .fault (.busFault e { s with bus := b1 })) ∧
  (∀ (s : State) (i : BitVec 7) (x : Word) (e : BusError) (b1 b2 : Bus), s.prevIm = true →
    Answers s.bus (.get32 (align4 s.sp)) x b1 →
    Fails b1 (.set32 (align4 s.sp) (((x &&& 0x1FFFFFFF) <<< 7) ||| i.setWidth 32)) e b2 →
    exec (.im i) s = .fault (.busFault e { s with sp := align4 s.sp, bus := b2 }))

/-- STORESP, LOADSP and ADDSP at `align4(sp + offset)` with `sp` as the step begins (rules R105, R162, R163, R164, R165;
the base is D8). -/
def Obligations.StackRelative : Prop :=
  (∀ (s : State) (x : BitVec 5) (v : Word) (b1 b2 : Bus),
    Answers s.bus (.get32 (align4 s.sp)) v b1 →
    Answers b1 (.set32 (align4 (s.sp + BitVec.ofNat 32 (4 * (x ^^^ 0x10).toNat))) v) 0 b2 →
    exec (.storesp x) s = .next { s with pc := s.pc + 1, sp := align4 s.sp + 4, bus := b2 }) ∧
  (∀ (s : State) (x : BitVec 5) (v : Word) (b1 b2 : Bus),
    Answers s.bus (.get32 (align4 (s.sp + BitVec.ofNat 32 (4 * (x ^^^ 0x10).toNat)))) v b1 →
    Answers b1 (.set32 (align4 (s.sp - 4)) v) 0 b2 →
    exec (.loadsp x) s = .next { s with pc := s.pc + 1, sp := s.sp - 4, bus := b2 }) ∧
  (∀ (s : State) (n : BitVec 4) (w a : Word) (b1 b2 b3 : Bus),
    Answers s.bus (.get32 (align4 (s.sp + BitVec.ofNat 32 (4 * n.toNat)))) w b1 →
    Answers b1 (.get32 (align4 s.sp)) a b2 → Answers b2 (.set32 (align4 s.sp) (a + w)) 0 b3 →
    exec (.addsp n) s = .next { s with pc := s.pc + 1, sp := align4 s.sp, bus := b3 })

/-- The six comparisons push 1 or 0; TOS is the left operand; with their bus faults (rules R76, R200 to R203, R213, R214,
R276; the operand order is D5, the state left at a fault D10). -/
def Obligations.Comparisons : Prop :=
  binaryWhole native .lessthan (fun _ a b => if a.toInt < b.toInt then 1 else 0) ∧
  binaryWhole native .lessthanorequal (fun _ a b => if a.toInt ≤ b.toInt then 1 else 0) ∧
  binaryWhole native .ulessthan (fun _ a b => if a.toNat < b.toNat then 1 else 0) ∧
  binaryWhole native .ulessthanorequal (fun _ a b => if a.toNat ≤ b.toNat then 1 else 0) ∧
  binaryWhole native .eq (fun _ a b => if a = b then 1 else 0) ∧
  binaryWhole native .neq (fun _ a b => if a ≠ b then 1 else 0)

/-- MULT modulo 2^32, SUB by SUB_ORDER, NEG, with their bus faults (rules R76, R205, R215, R216, R276; the wrap is D2,
SUB's default D5, the state left at a fault D10). -/
def Obligations.NativeArithmetic : Prop :=
  binaryWhole native .mult (fun _ a b => a * b) ∧
  binaryWhole (fun s => native s ∧ s.params.subOrder = .nosMinusTos) .sub (fun _ a b => b - a) ∧
  binaryWhole (fun s => native s ∧ s.params.subOrder = .tosMinusNos) .sub (fun _ a b => a - b) ∧
  unaryWhole native .neg (fun _ a => -a)

/-- The shifts: the value is NOS, the count is read from TOS by SHIFT_COUNT_MODE, right shifts negate it; with their bus
faults (rules R76, R208 to R211, R276; the operand order is D5, the modes D13, the state left at a fault D10). For an
arithmetic shift to the left by a negative count no value is stated, only that it completes (assumption log 22). -/
def Obligations.ShiftResult : Prop :=
  binaryWhole native .lshiftright (fun s a b => shift b (-shiftCount s.params.shiftCountMode a)) ∧
  binaryWhole native .ashiftleft (fun s a b => shift b (shiftCount s.params.shiftCountMode a)) ∧
  firstPopFault native .ashiftright ∧ secondPopFault native .ashiftright ∧
  (∀ (s : State) (a b : Word) (b1 b2 : Bus), native s →
    Answers s.bus (.get32 (align4 s.sp)) a b1 → Answers b1 (.get32 (align4 s.sp + 4)) b b2 →
    ∃ r : Word, (0 ≤ shiftCount s.params.shiftCountMode a → r = ashr b (-shiftCount s.params.shiftCountMode a)) ∧
      (∀ b3 : Bus, Answers b2 (.set32 (align4 s.sp + 4) r) 0 b3 →
        exec .ashiftright s = .next { s with pc := s.pc + 1, sp := align4 s.sp + 4, bus := b3 }) ∧
      (∀ (e : BusError) (b3 : Bus), Fails b2 (.set32 (align4 s.sp + 4) r) e b3 →
        exec .ashiftright s = .fault (.busFault e { s with sp := align4 s.sp + 4, bus := b3 })))

/-- The shift helper and the counts: a count below 32 shifts left, a negative one right, a magnitude of 32 or more
gives zero, the arithmetic right shift fills with the sign bit, and the two count modes agree on 0 .. 31 (rules R206,
R207, R208; the fill is D13). No value is stated for an arithmetic shift to the left (assumption log 22). -/
def Obligations.ShiftValues : Prop :=
  (∀ (v : Word) (n : Nat), n < 32 → shift v n = v <<< n ∧ shift v (-(n : Int)) = v >>> n ∧
    ashr v (-(n : Int)) = v.sshiftRight n) ∧
  (∀ (v : Word) (n : Nat), 32 ≤ n → shift v n = 0 ∧ shift v (-(n : Int)) = 0 ∧
    ashr v (-(n : Int)) = if v.msb then BitVec.allOnes 32 else 0) ∧
  (∀ a : Word, shiftCount .signed32 a = a.toInt ∧ shiftCount .mask6 a = ((a.toNat % 64 : Nat) : Int)) ∧
  (∀ (mode : ShiftCountMode) (a : Word), a.toNat < 32 → shiftCount mode a = (a.toNat : Int))

/-- DIV and MOD where they raise no arithmetic fault, with their bus faults (rules R76, R218, R219, R276; the operand
order is D5, the state left at a fault D10). -/
def Obligations.DivModResult : Prop :=
  (divideResult .div (fun a b => BitVec.ofInt 32 (a.toInt.tdiv b.toInt)) ∧
    divideBusFaults .div (fun a b => BitVec.ofInt 32 (a.toInt.tdiv b.toInt))) ∧
  (divideResult .mod (fun a b => BitVec.ofInt 32 (a.toInt.tmod b.toInt)) ∧
    divideBusFaults .mod (fun a b => BitVec.ofInt 32 (a.toInt.tmod b.toInt)))

/-- The quotient is rounded toward zero and the remainder has the dividend's sign and a magnitude below the divisor's,
with no wrap where no fault is raised (rules R218, R219). -/
def Obligations.DivModValues : Prop :=
  ∀ a b : Word, b ≠ 0 → ¬ (a = 0x80000000 ∧ b = 0xFFFFFFFF) →
    (divWord a b).toInt = a.toInt.tdiv b.toInt ∧ (modWord a b).toInt = a.toInt.tmod b.toInt ∧
    (divWord a b).toInt * b.toInt + (modWord a b).toInt = a.toInt ∧
    (modWord a b).toInt.natAbs < b.toInt.natAbs ∧ (0 ≤ a.toInt → 0 ≤ (modWord a b).toInt) ∧
    (a.toInt ≤ 0 → (modWord a b).toInt ≤ 0)

/-- DIV and MOD by zero, and of 0x80000000 by 0xFFFFFFFF, stop the core with an ArithmeticFault, both operands popped,
nothing pushed, `pc` kept (rules R218, R219, R220, R275; the faults are D12, that the dividend is TOS and the divisor
NOS is D5). -/
def Obligations.DivModFaults : Prop := divideFault .div ∧ divideFault .mod

/-- SWAP exchanges the top two words (rule R204; the access order is D10). -/
def Obligations.SwapResult : Prop :=
  ∀ (s : State) (a b : Word) (b1 b2 b3 b4 : Bus), native s →
    Answers s.bus (.get32 (align4 s.sp)) a b1 → Answers b1 (.get32 (align4 s.sp + 4)) b b2 →
    Answers b2 (.set32 (align4 s.sp + 4) a) 0 b3 → Answers b3 (.set32 (align4 s.sp) b) 0 b4 →
    exec .swap s = .next { s with pc := s.pc + 1, sp := align4 s.sp, bus := b4 }

/-- LOADB and STOREB at the unmasked address: zero-extended byte, low byte of the value (rules R240, R241; extension and
operand order are D15). -/
def Obligations.ByteAccess : Prop :=
  (∀ (s : State) (a w : Word) (b1 b2 b3 : Bus), native s →
    Answers s.bus (.get32 (align4 s.sp)) a b1 → Answers b1 (.get a) w b2 →
    Answers b2 (.set32 (align4 s.sp) (w &&& 0xFF)) 0 b3 →
    exec .loadb s = .next { s with pc := s.pc + 1, sp := align4 s.sp, bus := b3 }) ∧
  (∀ (s : State) (a v : Word) (b1 b2 b3 : Bus), native s →
    Answers s.bus (.get32 (align4 s.sp)) a b1 → Answers b1 (.get32 (align4 s.sp + 4)) v b2 →
    Answers b2 (.set a (v.setWidth 8)) 0 b3 →
    exec .storeb s = .next { s with pc := s.pc + 1, sp := align4 s.sp + 8, bus := b3 })

/-- LOADH and STOREH, where HW_HALFWORD implements them: two ordered byte accesses, big-endian (rules R72, R244, R245;
the slots are D6, the order of the two accesses D22). -/
def Obligations.HalfAccess : Prop :=
  (∀ (s : State) (a w0 w1 : Word) (b1 b2 b3 b4 : Bus), nativeHalf s →
    Answers s.bus (.get32 (align4 s.sp)) a b1 → Answers b1 (.get a) w0 b2 → Answers b2 (.get (a + 1)) w1 b3 →
    Answers b3 (.set32 (align4 s.sp) (((w0 &&& 0xFF) <<< 8) ||| (w1 &&& 0xFF))) 0 b4 →
    exec .loadh s = .next { s with pc := s.pc + 1, sp := align4 s.sp, bus := b4 }) ∧
  (∀ (s : State) (a v : Word) (b1 b2 b3 b4 : Bus), nativeHalf s →
    Answers s.bus (.get32 (align4 s.sp)) a b1 → Answers b1 (.get32 (align4 s.sp + 4)) v b2 →
    Answers b2 (.set a ((v >>> 8).setWidth 8)) 0 b3 → Answers b3 (.set (a + 1) (v.setWidth 8)) 0 b4 →
    exec .storeh s = .next { s with pc := s.pc + 1, sp := align4 s.sp + 8, bus := b4 })

/-- EQBRANCH is taken when the condition is zero, NEQBRANCH when it is not, POPPCREL always; each target is the
pre-fetch `pc` plus the displacement. Their bus faults are at the pops (rules R76, R250, R251, R252, R276; the
pre-fetch base of the branches and the state left at a fault are D10). -/
def Obligations.RelativeBranches : Prop :=
  (branchResult .eqbranch (fun b => b = 0) ∧ branchFaults .eqbranch) ∧
  (branchResult .neqbranch (fun b => b ≠ 0) ∧ branchFaults .neqbranch) ∧
  (∀ (s : State) (a : Word) (b1 : Bus), native s → Answers s.bus (.get32 (align4 s.sp)) a b1 →
    exec .poppcrel s = .next { s with pc := s.pc + a, sp := align4 s.sp + 4, bus := b1 }) ∧
  (∀ (s : State) (e : BusError) (b1 : Bus), native s → Fails s.bus (.get32 (align4 s.sp)) e b1 →
    exec .poppcrel s = .fault (.busFault e { s with bus := b1 }))

/-- PUSHSPADD replaces the top of the stack by `align4(sp + 4a)` with `sp` before the pop; CALLPCREL pops the
displacement, pushes `pc + 1` and jumps relative to the pre-fetch `pc` (rules R253, R254; D16, D17). -/
def Obligations.PushspaddCallpcrel : Prop :=
  unaryResult native .pushspadd (fun s a => align4 (s.sp + 4 * a)) ∧
  (∀ (s : State) (a : Word) (b1 b2 : Bus), native s →
    Answers s.bus (.get32 (align4 s.sp)) a b1 → Answers b1 (.set32 (align4 s.sp) (s.pc + 1)) 0 b2 →
    exec .callpcrel s = .next { s with pc := s.pc + a, sp := align4 s.sp, bus := b2 })

/-- The reserved slots trap whatever HW_EMULATION is; LOADH and STOREH trap without HW_HALFWORD; a bus fault at the
push leaves `sp` decremented and `pc` unchanged (rules R75, R183, R185, R276; the slot numbers are D4, the unnamed slots
D6, the unmasked `sp - 4` D9, the state left at the fault D10). -/
def Obligations.ReservedSlotsTrap : Prop :=
  trapWhole anyMode .emulate0 0 ∧ trapWhole anyMode .call 12 ∧ trapWhole anyMode .config 25 ∧
  trapWhole anyMode .pushpc 26 ∧ trapWhole anyMode .syscall 27 ∧ trapWhole anyMode .halfmult 29 ∧
  trapWhole anyMode .emulate31 31 ∧
  trapWhole (fun s => s.params.hwHalfword = false) .loadh 1 ∧
  trapWhole (fun s => s.params.hwHalfword = false) .storeh 2

/-- With HW_EMULATION off every EMULATE byte traps: it pushes `pc + 1` and sets `pc` to `index * 32`, and a bus fault
at the push leaves `sp` decremented and `pc` unchanged (rules R75, R182, R183, R276; the unmasked `sp - 4` is D9, the
state left at the fault D10). -/
def Obligations.EmulationOffTraps : Prop :=
  ∀ index : BitVec 5,
    trapWhole (fun s => s.params.hwEmulation = false) (emulateSlot index) index.toNat

/-! ## Faults part-way -/

/-- The state a BusFault leaves at each access of PUSHSP, POPPC, POPSP, STORESP, LOADSP, ADDSP, SWAP, LOADB, STOREB,
LOADH, STOREH, PUSHSPADD and CALLPCREL, but for SWAP's second store and STOREH's second byte: what the step did before
the access stays done, and `pc` is kept (rules R75, R76, R132, R162, R163, R164, R204, R240, R241, R244, R245, R253,
R254, R274, R276; the order of effects is D10, the half accesses D6 and D22). The other opcodes' faults stand with their
results. -/
def Obligations.PartialEffects : Prop :=
  (∀ x : BitVec 5, firstPopFault anyMode .poppc ∧ firstPopFault anyMode .popsp ∧ firstPopFault anyMode (.storesp x) ∧
    firstPopFault native .swap ∧ firstPopFault native .loadb ∧ firstPopFault native .storeb ∧
    firstPopFault native .callpcrel ∧ firstPopFault nativeHalf .loadh ∧ firstPopFault nativeHalf .storeh) ∧
  (secondPopFault native .swap ∧ secondPopFault native .storeb ∧ secondPopFault nativeHalf .storeh) ∧
  unaryFaults native .pushspadd (fun s a => align4 (s.sp + 4 * a)) ∧
  unaryFaults native .callpcrel (fun s _ => s.pc + 1) ∧
  (∀ (s : State) (e : BusError) (b : Bus), Fails s.bus (.set32 (align4 (s.sp - 4)) s.sp) e b →
    exec .pushsp s = .fault (.busFault e { s with sp := s.sp - 4, bus := b })) ∧
  (∀ (s : State) (x : BitVec 5) (v : Word) (e : BusError) (b1 b2 : Bus),
    Answers s.bus (.get32 (align4 s.sp)) v b1 → Fails b1 (.set32 (sprelAddr s.sp (sprelOffset x)) v) e b2 →
    exec (.storesp x) s = .fault (.busFault e { s with sp := align4 s.sp + 4, bus := b2 })) ∧
  (∀ (s : State) (x : BitVec 5) (e : BusError) (b : Bus), Fails s.bus (.get32 (sprelAddr s.sp (sprelOffset x))) e b →
    exec (.loadsp x) s = .fault (.busFault e { s with bus := b })) ∧
  (∀ (s : State) (x : BitVec 5) (v : Word) (e : BusError) (b1 b2 : Bus),
    Answers s.bus (.get32 (sprelAddr s.sp (sprelOffset x))) v b1 → Fails b1 (.set32 (align4 (s.sp - 4)) v) e b2 →
    exec (.loadsp x) s = .fault (.busFault e { s with sp := s.sp - 4, bus := b2 })) ∧
  (∀ (s : State) (n : BitVec 4) (e : BusError) (b : Bus), Fails s.bus (.get32 (sprelAddr s.sp (addspOffset n))) e b →
    exec (.addsp n) s = .fault (.busFault e { s with bus := b })) ∧
  (∀ (s : State) (n : BitVec 4) (w : Word) (e : BusError) (b1 b2 : Bus),
    Answers s.bus (.get32 (sprelAddr s.sp (addspOffset n))) w b1 → Fails b1 (.get32 (align4 s.sp)) e b2 →
    exec (.addsp n) s = .fault (.busFault e { s with bus := b2 })) ∧
  (∀ (s : State) (n : BitVec 4) (w a : Word) (e : BusError) (b1 b2 b3 : Bus),
    Answers s.bus (.get32 (sprelAddr s.sp (addspOffset n))) w b1 → Answers b1 (.get32 (align4 s.sp)) a b2 →
    Fails b2 (.set32 (align4 s.sp) (a + w)) e b3 →
    exec (.addsp n) s = .fault (.busFault e { s with sp := align4 s.sp, bus := b3 })) ∧
  (∀ (s : State) (a b : Word) (e : BusError) (b1 b2 b3 : Bus), native s →
    Answers s.bus (.get32 (align4 s.sp)) a b1 → Answers b1 (.get32 (align4 s.sp + 4)) b b2 →
    Fails b2 (.set32 (align4 s.sp + 4) a) e b3 →
    exec .swap s = .fault (.busFault e { s with sp := align4 s.sp + 4, bus := b3 })) ∧
  (∀ (s : State) (a : Word) (e : BusError) (b1 b2 : Bus), native s →
    Answers s.bus (.get32 (align4 s.sp)) a b1 → Fails b1 (.get a) e b2 →
    exec .loadb s = .fault (.busFault e { s with sp := align4 s.sp + 4, bus := b2 })) ∧
  (∀ (s : State) (a w : Word) (e : BusError) (b1 b2 b3 : Bus), native s →
    Answers s.bus (.get32 (align4 s.sp)) a b1 → Answers b1 (.get a) w b2 →
    Fails b2 (.set32 (align4 s.sp) (w &&& 0xFF)) e b3 →
    exec .loadb s = .fault (.busFault e { s with sp := align4 s.sp, bus := b3 })) ∧
  (∀ (s : State) (a v : Word) (e : BusError) (b1 b2 b3 : Bus), native s →
    Answers s.bus (.get32 (align4 s.sp)) a b1 → Answers b1 (.get32 (align4 s.sp + 4)) v b2 →
    Fails b2 (.set a (v.setWidth 8)) e b3 →
    exec .storeb s = .fault (.busFault e { s with sp := align4 s.sp + 8, bus := b3 })) ∧
  (∀ (s : State) (a : Word) (e : BusError) (b1 b2 : Bus), nativeHalf s →
    Answers s.bus (.get32 (align4 s.sp)) a b1 → Fails b1 (.get a) e b2 →
    exec .loadh s = .fault (.busFault e { s with sp := align4 s.sp + 4, bus := b2 })) ∧
  (∀ (s : State) (a w : Word) (e : BusError) (b1 b2 b3 : Bus), nativeHalf s →
    Answers s.bus (.get32 (align4 s.sp)) a b1 → Answers b1 (.get a) w b2 → Fails b2 (.get (a + 1)) e b3 →
    exec .loadh s = .fault (.busFault e { s with sp := align4 s.sp + 4, bus := b3 })) ∧
  (∀ (s : State) (a w0 w1 : Word) (e : BusError) (b1 b2 b3 b4 : Bus), nativeHalf s →
    Answers s.bus (.get32 (align4 s.sp)) a b1 → Answers b1 (.get a) w0 b2 → Answers b2 (.get (a + 1)) w1 b3 →
    Fails b3 (.set32 (align4 s.sp) (((w0 &&& 0xFF) <<< 8) ||| (w1 &&& 0xFF))) e b4 →
    exec .loadh s = .fault (.busFault e { s with sp := align4 s.sp, bus := b4 })) ∧
  (∀ (s : State) (a v : Word) (e : BusError) (b1 b2 b3 : Bus), nativeHalf s →
    Answers s.bus (.get32 (align4 s.sp)) a b1 → Answers b1 (.get32 (align4 s.sp + 4)) v b2 →
    Fails b2 (.set a ((v >>> 8).setWidth 8)) e b3 →
    exec .storeh s = .fault (.busFault e { s with sp := align4 s.sp + 8, bus := b3 }))

/-! ## Frames -/

/-- What the opcodes that store nothing leave unchanged: every register but `pc` and `sp`, and every stored byte of
every device; NOP keeps `sp`, BREAKPOINT and ILLEGAL write only the registers of their rules (rules R131, R133, R141,
R144, R250, R251, R252, R273). -/
def Obligations.FrameNoStore : Prop :=
  frameNoStore anyMode .nop ∧ frameNoStore anyMode .poppc ∧ frameNoStore anyMode .popsp ∧
  frameNoStore native .eqbranch ∧ frameNoStore native .neqbranch ∧ frameNoStore native .poppcrel ∧
  (∀ s t : State, exec .nop s = .next t → t.sp = s.sp) ∧
  (∀ s t : State, exec .poppc s = .next t ∨ (native s ∧ exec .poppcrel s = .next t) → t.sp = spPop1 s) ∧
  (∀ s t : State, native s → (exec .eqbranch s = .next t ∨ exec .neqbranch s = .next t) → t.sp = spPop2 s) ∧
  (∀ s t : State, exec .breakpoint s = .next t →
    t.sp = s.sp ∧ t.lastIm = s.lastIm ∧ t.params = s.params ∧ t.prevIm = s.prevIm ∧ t.report = s.report ∧
      t.bus = s.bus) ∧
  (∀ (op : Byte) (s t : State), exec (.illegal op) s = .next t →
    t.pc = s.pc ∧ t.sp = s.sp ∧ t.lastIm = s.lastIm ∧ t.params = s.params ∧ t.prevIm = s.prevIm ∧ t.bus = s.bus)

/-- The frame of the opcodes whose one store is a push: every register but `pc` and `sp` is unchanged, and every byte
outside the pushed word, which lies at the address the push computes from `sp` after the opcode's pops. IM also sets
`last_im` (rules R75, R132 to R140, R160 to R164, R183, R200 to R217, R240, R244, R253, R254). -/
def Obligations.FramePush : Prop :=
  (∀ i : Instr, i = .pushsp ∨ (∃ x, i = .loadsp x) ∨ i = .emulate0 ∨ i = .call ∨ i = .config ∨ i = .pushpc ∨
    i = .syscall ∨ i = .halfmult ∨ i = .emulate31 → framePush anyMode i fun s => s.sp) ∧
  (∀ index : BitVec 5, framePush (fun s => s.params.hwEmulation = false) (emulateSlot index) fun s => s.sp) ∧
  (∀ i : Instr, i = .loadh ∨ i = .storeh → framePush (fun s => s.params.hwHalfword = false) i fun s => s.sp) ∧
  (∀ i : Instr, i = .load ∨ i = .not ∨ i = .flip ∨ (∃ n, i = .addsp n) → framePush anyMode i spPop1) ∧
  (∀ i : Instr, i = .neg ∨ i = .loadb ∨ i = .pushspadd ∨ i = .callpcrel → framePush native i spPop1) ∧
  framePush nativeHalf .loadh spPop1 ∧
  (∀ i : Instr, i = .add ∨ i = .and ∨ i = .or → framePush anyMode i spPop2) ∧
  (∀ i : Instr, i = .lessthan ∨ i = .lessthanorequal ∨ i = .ulessthan ∨ i = .ulessthanorequal ∨ i = .mult ∨
    i = .lshiftright ∨ i = .ashiftleft ∨ i = .ashiftright ∨ i = .eq ∨ i = .neq ∨ i = .sub ∨ i = .xor →
    framePush native i spPop2) ∧
  (∀ (k : BitVec 7) (s t : State), exec (.im k) s = .next t →
    t.lastIm = true ∧ registersKept { s with lastIm := true } t ∧
    (s.prevIm = false → t.sp = s.sp - 4 ∧ bytesKept s.bus t.bus (outsideWord (align4 (s.sp - 4)))) ∧
    (s.prevIm = true → t.sp = spPop1 s - 4 ∧ bytesKept s.bus t.bus (outsideWord (align4 (spPop1 s - 4)))))

/-- The frame of the storing opcodes: every register but `pc` and `sp` is unchanged, and every byte outside the stored
bytes, at the address the meaning computes (rules R142, R162, R241, R245). -/
def Obligations.FrameStore : Prop :=
  (∀ (s t : State) (a : Word) (b1 : Bus), Answers s.bus (.get32 (align4 s.sp)) a b1 → exec .store s = .next t →
    registersKept s t ∧ t.sp = spPop2 s ∧ bytesKept s.bus t.bus (outsideWord (align4 a))) ∧
  (∀ (s t : State) (x : BitVec 5), exec (.storesp x) s = .next t →
    registersKept s t ∧ t.sp = spPop1 s ∧ bytesKept s.bus t.bus (outsideWord (sprelAddr s.sp (sprelOffset x)))) ∧
  (∀ (s t : State) (a : Word) (b1 : Bus), native s → Answers s.bus (.get32 (align4 s.sp)) a b1 →
    exec .storeb s = .next t →
    registersKept s t ∧ t.sp = spPop2 s ∧ bytesKept s.bus t.bus (fun x => x ≠ a)) ∧
  (∀ (s t : State) (a : Word) (b1 : Bus), nativeHalf s → Answers s.bus (.get32 (align4 s.sp)) a b1 →
    exec .storeh s = .next t →
    registersKept s t ∧ t.sp = spPop2 s ∧ bytesKept s.bus t.bus (fun x => x ≠ a ∧ x ≠ a + 1))

/-- The frame of SWAP, whose stores are the two slots it swaps, and of DIV and MOD, which push their result or stop the
core with nothing stored (rules R204, R218, R219, R220). -/
def Obligations.FrameSwapDivide : Prop :=
  (∀ s t : State, native s → exec .swap s = .next t →
    registersKept s t ∧ t.sp = spPop2 s - 4 - 4 ∧
    bytesKept s.bus t.bus (fun x => outsideWord (align4 (spPop2 s - 4)) x ∧ outsideWord (align4 (spPop2 s - 4 - 4)) x)) ∧
  (∀ (i : Instr) (s t : State), i = .div ∨ i = .mod → native s → exec i s = .next t →
    (registersKept s t ∧ t.sp = spPop2 s - 4 ∧ bytesKept s.bus t.bus (outsideWord (align4 (spPop2 s - 4)))) ∨
    (t.state = .stopped ∧ t.pc = s.pc ∧ t.sp = spPop2 s ∧ t.lastIm = s.lastIm ∧ t.params = s.params ∧
      t.prevIm = s.prevIm ∧ t.bus.shape = s.bus.shape ∧ bytesKept s.bus t.bus fun _ => True))

/-! ## The host -/

/-- `start()` moves Stopped to Running and changes nothing else, and is refused in every other state; `pc` and `sp` can
be seeded only while not Running (rules R28, R302; the refusals are D19, D20). -/
def Obligations.StartAndSeed : Prop :=
  (∀ s : State, s.state = .stopped → start s = .ok { s with state := .running }) ∧
  (∀ s : State, s.state ≠ .stopped → start s = .error .notStopped) ∧
  (∀ (s : State) (v : Word), s.state ≠ .running →
    seedPc v s = .ok { s with pc := v } ∧ seedSp v s = .ok { s with sp := v }) ∧
  (∀ (s : State) (v : Word), s.state = .running →
    seedPc v s = .error .stillRunning ∧ seedSp v s = .error .stillRunning)

/-- The boot order from construction: the image lies at address 0 of the RAM, `sp` is the seed, the core is Running at
`pc` 0 (rules R301, R303; the platform is assumption log 3, PC_INIT is D18). -/
def Obligations.LaunchLoads : Prop :=
  ∀ (image : List Byte) (sp : Word), image.length ≤ ramSize.toNat →
    ∃ s, launch image sp State.reset = .ok s ∧ s.state = .running ∧ s.pc = 0 ∧ s.sp = sp ∧ s.lastIm = false ∧
      ∀ k (h : k < image.length), readByte s.bus (BitVec.ofNat 32 k) = .ok (image[k].setWidth 32)
end

