-- ==== Sys2Proof/Laws/Memory.lean ====
section
/-! SUPPORT. A device's stored bytes: read after write, the canonical form kept by every write, and equality of
memories that read alike. -/

namespace Sys2Proof.Machine

open Sys2Proof.Config

@[simp] theorem Memory.read_blank (a : Nat) : Memory.blank.read a = unwrittenByte := rfl

/-- A list all of whose addresses lie above `a` holds nothing at `a`. -/
theorem cellsRead_of_above (cs : List Host.Cell) (a : Nat) (h : ∀ c ∈ cs, a < c.1) :
    cellsRead cs a = unwrittenByte := by
  induction cs with
  | nil => rfl
  | cons c rest ih =>
    obtain ⟨k, v⟩ := c
    have hk : a < k := h (k, v) (by simp)
    simp only [cellsRead, Nat.ne_of_lt hk, if_false]
    exact ih fun c hc => h c (by simp [hc])

theorem cellsRead_write_other (cs : List Host.Cell) (a x : Nat) (v : Byte) (h : x ≠ a) :
    cellsRead (cellsWrite cs a v) x = cellsRead cs x := by
  induction cs with
  | nil => by_cases hv : v = unwrittenByte <;> simp [cellsWrite, cellsRead, hv, h]
  | cons c rest ih =>
    obtain ⟨k, w⟩ := c
    simp only [cellsWrite]
    split
    · split
      · rfl
      · simp [cellsRead, h]
    · split
      · rename_i hak
        subst hak
        split <;> simp [cellsRead, h]
      · simp [cellsRead, ih]

theorem cellsRead_write_same (cs : List Host.Cell) (a : Nat) (v : Byte)
    (hs : cs.Pairwise fun x y => x.1 < y.1) : cellsRead (cellsWrite cs a v) a = v := by
  induction cs with
  | nil => by_cases hv : v = unwrittenByte <;> simp [cellsWrite, cellsRead, hv]
  | cons c rest ih =>
    obtain ⟨k, w⟩ := c
    rw [List.pairwise_cons] at hs
    simp only [cellsWrite]
    split
    · rename_i hlt
      split
      · rename_i hv
        subst hv
        refine cellsRead_of_above _ _ ?_
        intro c hc
        rcases List.mem_cons.1 hc with rfl | hc
        · exact hlt
        · exact Nat.lt_trans hlt (hs.1 c hc)
      · simp [cellsRead]
    · split
      · rename_i hak
        subst hak
        split
        · rename_i hv
          subst hv
          exact cellsRead_of_above _ _ fun c hc => hs.1 c hc
        · simp [cellsRead]
      · rename_i hne
        simp only [cellsRead, hne, if_false]
        exact ih hs.2

/-- A write adds no address but its own. -/
theorem cellsWrite_mem (cs : List Host.Cell) (a : Nat) (v : Byte) (c : Host.Cell) (h : c ∈ cellsWrite cs a v) :
    c ∈ cs ∨ c = (a, v) ∧ v ≠ unwrittenByte := by
  induction cs with
  | nil =>
    by_cases hv : v = unwrittenByte
    · simp [cellsWrite, hv] at h
    · simp only [cellsWrite, hv, if_false, List.mem_singleton] at h
      exact .inr ⟨h, hv⟩
  | cons d rest ih =>
    obtain ⟨k, w⟩ := d
    simp only [cellsWrite] at h
    split at h
    · split at h
      · exact .inl h
      · rename_i hv
        rcases List.mem_cons.1 h with rfl | h
        · exact .inr ⟨rfl, hv⟩
        · exact .inl h
    · split at h
      · split at h
        · exact .inl (by simp [h])
        · rename_i hv
          rcases List.mem_cons.1 h with rfl | h
          · exact .inr ⟨rfl, hv⟩
          · exact .inl (by simp [h])
      · rcases List.mem_cons.1 h with rfl | h
        · exact .inl (by simp)
        · rcases ih h with h | h
          · exact .inl (by simp [h])
          · exact .inr h

theorem cellsWrite_sorted (cs : List Host.Cell) (a : Nat) (v : Byte)
    (hs : cs.Pairwise fun x y => x.1 < y.1) : (cellsWrite cs a v).Pairwise fun x y => x.1 < y.1 := by
  induction cs with
  | nil => by_cases hv : v = unwrittenByte <;> simp [cellsWrite, hv]
  | cons c rest ih =>
    obtain ⟨k, w⟩ := c
    have hs' := List.pairwise_cons.1 hs
    simp only [cellsWrite]
    split
    · rename_i hlt
      split
      · exact hs
      · refine List.pairwise_cons.2 ⟨?_, hs⟩
        intro c hc
        rcases List.mem_cons.1 hc with rfl | hc
        · exact hlt
        · exact Nat.lt_trans hlt (hs'.1 c hc)
    · rename_i hge
      split
      · rename_i hak
        subst hak
        split
        · exact hs'.2
        · exact List.pairwise_cons.2 ⟨hs'.1, hs'.2⟩
      · rename_i hne
        refine List.pairwise_cons.2 ⟨?_, ih hs'.2⟩
        intro c hc
        rcases cellsWrite_mem _ _ _ _ hc with hc | ⟨rfl, -⟩
        · exact hs'.1 c hc
        · show k < a
          omega

/-- Reading elsewhere is unchanged by a write. -/
theorem Memory.read_write_other (m : Memory) (a x : Nat) (v : Byte) (h : x ≠ a) :
    (m.write a v).read x = m.read x := cellsRead_write_other _ _ _ _ h

/-- Reading back what was written. -/
theorem Memory.read_write_same (m : Memory) (a : Nat) (v : Byte) (h : m.wf) : (m.write a v).read a = v :=
  cellsRead_write_same _ _ _ h.1

/-- A write keeps the canonical form. -/
theorem Memory.write_wf (m : Memory) (a : Nat) (v : Byte) (h : m.wf) : (m.write a v).wf := by
  refine ⟨cellsWrite_sorted _ _ _ h.1, fun c hc => ?_⟩
  rcases cellsWrite_mem _ _ _ _ hc with hc | ⟨rfl, hv⟩
  · exact h.2 c hc
  · exact hv

theorem Memory.writeWord_wf (m : Memory) (a : Nat) (v : Word) (h : m.wf) : (m.writeWord a v).wf :=
  Memory.write_wf _ _ _ (Memory.write_wf _ _ _ (Memory.write_wf _ _ _ (Memory.write_wf _ _ _ h)))

/-- Every address listed after a word write was listed before or is one of the four written. -/
theorem Memory.writeWord_mem (m : Memory) (a : Nat) (v : Word) (c : Host.Cell) (h : c ∈ (m.writeWord a v).cells) :
    c ∈ m.cells ∨ (a ≤ c.1 ∧ c.1 ≤ a + 3) := by
  unfold Memory.writeWord Memory.write at h
  rcases cellsWrite_mem _ _ _ _ h with h | ⟨rfl, -⟩
  · rcases cellsWrite_mem _ _ _ _ h with h | ⟨rfl, -⟩
    · rcases cellsWrite_mem _ _ _ _ h with h | ⟨rfl, -⟩
      · rcases cellsWrite_mem _ _ _ _ h with h | ⟨rfl, -⟩
        · exact .inl h
        · right; constructor <;> simp
      · right; constructor <;> simp
    · right; constructor <;> simp
  · right; constructor <;> simp

/-- Reading a byte outside the written word is unchanged. -/
theorem Memory.read_writeWord_other (m : Memory) (a x : Nat) (v : Word) (h : x < a ∨ a + 3 < x) :
    (m.writeWord a v).read x = m.read x := by
  unfold Memory.writeWord
  rw [Memory.read_write_other _ _ _ _ (by omega), Memory.read_write_other _ _ _ _ (by omega),
    Memory.read_write_other _ _ _ _ (by omega), Memory.read_write_other _ _ _ _ (by omega)]

/-- Byte `k` of a written word lies at `a + k`, most significant first. -/
theorem Memory.read_writeWord_same (m : Memory) (a k : Nat) (v : Word) (h : m.wf) (hk : k < 4) :
    (m.writeWord a v).read (a + k) = wordByte v k := by
  have h1 := Memory.write_wf m a (wordByte v 0) h
  have h2 := Memory.write_wf _ (a + 1) (wordByte v 1) h1
  have h3 := Memory.write_wf _ (a + 2) (wordByte v 2) h2
  unfold Memory.writeWord
  obtain rfl | rfl | rfl | rfl : k = 0 ∨ k = 1 ∨ k = 2 ∨ k = 3 := by omega
  · rw [Memory.read_write_other _ _ _ _ (by omega), Memory.read_write_other _ _ _ _ (by omega),
      Memory.read_write_other _ _ _ _ (by omega)]
    exact Memory.read_write_same _ _ _ h
  · rw [Memory.read_write_other _ _ _ _ (by omega), Memory.read_write_other _ _ _ _ (by omega)]
    exact Memory.read_write_same _ _ _ h1
  · rw [Memory.read_write_other _ _ _ _ (by omega)]
    exact Memory.read_write_same _ _ _ h2
  · exact Memory.read_write_same _ _ _ h3

/-- The four bytes of a word, most significant first, are the word. -/
theorem wordByte_append (v : Word) :
    (wordByte v 0 ++ wordByte v 1 ++ wordByte v 2 ++ wordByte v 3 : BitVec 32) = v := by
  apply BitVec.eq_of_getLsbD_eq
  intro k hk
  simp only [wordByte, BitVec.getLsbD_append, BitVec.getLsbD_setWidth, BitVec.getLsbD_ushiftRight]
  by_cases h0 : k < 8
  · simp [h0]
  · by_cases h1 : k - 8 < 8
    · simp [h0, h1]; congr 1; omega
    · by_cases h2 : k - 8 - 8 < 8
      · simp [h0, h1, h2]; congr 1; omega
      · have h3 : k - 8 - 8 - 8 < 8 := by omega
        simp [h0, h1, h2, h3]; congr 1; omega

end Sys2Proof.Machine
end

