-- ==== Sys2Proof/Laws/Bus.lean ====
section
/-! SUPPORT. What a request can do to a bus, said once (`Bus.leaves_handle`: every leaf is left as it was or has served
the request), and what follows: bytes not stored to are kept, the device list is fixed, the canonical form is kept,
a read of a bus without collaborators changes nothing, a fatal error is never of a soft kind. Then the answers of the
reference RAM. -/

namespace Sys2Proof.Machine

open Sys2Proof.Config

/-! ## Leaves -/

/-- The accesses with a leaf's own accessors that a request can come to (rule R63). -/
def requestParts : Request → List Request
  | .get a => [.get a]
  | .set a v => [.set a v]
  | .get32 a => [.get32 a, .get a, .get (a + 1), .get (a + 2), .get (a + 3)]
  | .set32 a v =>
    [.set32 a v, .set a (wordByte v 0), .set (a + 1) (wordByte v 1), .set (a + 2) (wordByte v 2),
      .set (a + 3) (wordByte v 3)]
  | .delete a b => [.delete a b]
  | .flush => [.flush]
  | .init => [.init]
  | .tick => [.tick]

theorem leafThen_keeps (P : Leaf → Prop) (x : Leaf × Answer) (k : Leaf → Word → Leaf × Answer) (hx : P x.1)
    (hk : ∀ l v, P l → P (k l v).1) : P (leafThen x k).1 := by
  obtain ⟨l, a⟩ := x
  cases a with
  | ok v => exact hk l v hx
  | err kind => exact hx
  | held => exact hx

/-- What every own accessor keeps, serving a request keeps. -/
theorem leafServe_keeps (P : Leaf → Prop) (q : Request)
    (hd : ∀ q' ∈ requestParts q, ∀ l, P l → P (leafDirect l q').1) (l : Leaf) (hl : P l) : P (leafServe l q).1 := by
  cases q with
  | get32 a =>
    simp only [requestParts, List.forall_mem_cons] at hd
    obtain ⟨h, h0, h1, h2, h3, -⟩ := hd
    simp only [leafServe]
    split
    · exact h l hl
    · refine leafThen_keeps P _ _ (h0 l hl) fun l _ hl => ?_
      refine leafThen_keeps P _ _ (h1 l hl) fun l _ hl => ?_
      refine leafThen_keeps P _ _ (h2 l hl) fun l _ hl => ?_
      exact leafThen_keeps P _ _ (h3 l hl) fun l _ hl => hl
  | set32 a v =>
    simp only [requestParts, List.forall_mem_cons] at hd
    obtain ⟨h, h0, h1, h2, h3, -⟩ := hd
    simp only [leafServe]
    split
    · exact h l hl
    · refine leafThen_keeps P _ _ (h0 l hl) fun l _ hl => ?_
      refine leafThen_keeps P _ _ (h1 l hl) fun l _ hl => ?_
      refine leafThen_keeps P _ _ (h2 l hl) fun l _ hl => ?_
      exact leafThen_keeps P _ _ (h3 l hl) fun l _ hl => hl
  | get a => exact hd _ (by simp [requestParts]) l hl
  | set a v => exact hd _ (by simp [requestParts]) l hl
  | delete a b => exact hd _ (by simp [requestParts]) l hl
  | flush => exact hd _ (by simp [requestParts]) l hl
  | init => exact hd _ (by simp [requestParts]) l hl
  | tick => exact hd _ (by simp [requestParts]) l hl

theorem leafDirect_blank (l : Leaf) (q : Request) : leafBlank (leafDirect l q).1 = leafBlank l := by
  cases l <;> cases q <;> simp only [leafDirect, ramServe, windowServe, collaboratorServe] <;>
    repeat' first | rfl | split

/-- Serving a request changes a leaf's contents only (rule R26). -/
theorem leafServe_blank (l : Leaf) (q : Request) : leafBlank (leafServe l q).1 = leafBlank l :=
  leafServe_keeps (fun l' => leafBlank l' = leafBlank l) q
    (fun q' _ l' h => (leafDirect_blank l' q').trans h) l rfl

theorem toNat_add_small (a : Word) (k : Nat) (h : a.toNat + k < 2 ^ 32) :
    (a + BitVec.ofNat 32 k).toNat = a.toNat + k := by
  rw [BitVec.toNat_add, BitVec.toNat_ofNat]
  omega

theorem leafDirect_byte (l : Leaf) (q : Request) (x : Word) (h : ¬ storesTo q x) :
    leafByte x (leafDirect l q).1 = leafByte x l := by
  have hne : ∀ a : Word, x ≠ a → x.toNat ≠ a.toNat := fun a h => fun e => h (BitVec.eq_of_toNat_eq e)
  cases l <;> cases q <;> simp only [leafDirect, ramServe, windowServe, collaboratorServe] <;>
    simp only [storesTo] at h <;> (try rfl) <;> (try (split <;> rfl)) <;> (try (split <;> [rfl; (split <;> rfl)]))
  · split
    · simp only [leafByte, leafOwns, leafMemory, Memory.read_write_other _ _ _ _ (hne _ h)]
      rfl
    · rfl
  · rename_i size m a v
    split
    · rename_i hs
      have hb := size.isLt
      push Not at h
      obtain ⟨h0, h1, h2, h3⟩ := h
      have e1 := toNat_add_small a 1 (by omega)
      have e2 := toNat_add_small a 2 (by omega)
      have e3 := toNat_add_small a 3 (by omega)
      have n0 := hne _ h0
      have n1 := hne _ h1
      have n2 := hne _ h2
      have n3 := hne _ h3
      simp only [leafByte, leafOwns, leafMemory]
      rw [Memory.read_writeWord_other _ _ _ _ (by
        simp only [BitVec.ofNat_eq_ofNat] at e1 e2 e3 n1 n2 n3
        omega)]
      rfl
    · rfl
  · split
    · rfl
    · split
      · rfl
      · simp only [leafByte, leafOwns, leafMemory, Memory.read_write_other _ _ _ _ (hne _ h)]
        rfl

/-- Serving a request keeps every stored byte it does not store to. -/
theorem leafServe_byte (l : Leaf) (q : Request) (x : Word) (h : ¬ storesTo q x) :
    leafByte x (leafServe l q).1 = leafByte x l := by
  refine leafServe_keeps (fun l' => leafByte x l' = leafByte x l) q (fun q' hq l' hl => ?_) l rfl
  refine (leafDirect_byte l' q' x fun hs => h ?_).trans hl
  cases q <;> simp only [requestParts, List.mem_cons, List.not_mem_nil, or_false] at hq <;>
    (rcases hq with rfl | rfl | rfl | rfl | rfl) <;> simp_all [storesTo]

theorem leafDirect_wf (l : Leaf) (q : Request) (h : leafWf l) : leafWf (leafDirect l q).1 := by
  cases l <;> cases q <;> simp only [leafDirect, ramServe, windowServe, collaboratorServe] <;>
    (try exact h) <;> (try (split <;> exact h)) <;> (try (split <;> [exact h; (split <;> exact h)]))
  · rename_i size m a v
    split
    · rename_i hs
      refine ⟨Memory.write_wf _ _ _ h.1, fun c hc => ?_⟩
      rcases cellsWrite_mem _ _ _ _ hc with hc | ⟨rfl, -⟩
      · exact h.2 c hc
      · simpa [leafOwns] using hs
    · exact h
  · rename_i size m a v
    split
    · rename_i hs
      refine ⟨Memory.writeWord_wf _ _ _ h.1, fun c hc => ?_⟩
      rcases Memory.writeWord_mem _ _ _ _ hc with hc | hc
      · exact h.2 c hc
      · simp only [leafOwns, decide_eq_true_eq]; omega
    · exact h
  · rename_i lo hi m a v
    split
    · exact h
    · split
      · exact h
      · refine ⟨Memory.write_wf _ _ _ h.1, fun c hc => ?_⟩
        rcases cellsWrite_mem _ _ _ _ hc with hc | ⟨rfl, -⟩
        · exact h.2 c hc
        · simp only [leafOwns, decide_eq_true_eq]; omega

/-- Serving a request keeps the canonical form. -/
theorem leafServe_wf (l : Leaf) (q : Request) (h : leafWf l) : leafWf (leafServe l q).1 :=
  leafServe_keeps leafWf q (fun q' _ l' hl => leafDirect_wf l' q' hl) l h

theorem leafDirect_probe (l : Leaf) (q : Request) (hq : isProbe q) (hl : leafQuiet l) : (leafDirect l q).1 = l := by
  cases l <;> cases q <;> simp only [isProbe, leafQuiet, Bool.false_eq_true] at hq hl <;>
    simp only [leafDirect, ramServe, windowServe] <;> repeat' first | rfl | split

/-- A read leaves a leaf that is no collaborator unchanged. -/
theorem leafServe_probe (l : Leaf) (q : Request) (hq : isProbe q) (hl : leafQuiet l) : (leafServe l q).1 = l := by
  refine leafServe_keeps (fun l' => l' = l) q (fun q' hq' l' h => ?_) l rfl
  subst h
  refine leafDirect_probe l' q' ?_ hl
  cases q <;> simp only [isProbe, Bool.false_eq_true] at hq <;>
    simp only [requestParts, List.mem_cons, List.not_mem_nil, or_false] at hq' <;>
    (rcases hq' with rfl | rfl | rfl | rfl | rfl) <;> rfl

/-! ## Devices and buses -/

/-- A leaf as a request leaves it: untouched, or having served the request. -/
abbrev servedBy (q : Request) (l l' : Leaf) : Prop := l' = l ∨ l' = (leafServe l q).1

theorem forall₂_servedBy_refl (q : Request) (ls : List Leaf) : List.Forall₂ (servedBy q) ls ls :=
  List.forall₂_same.2 fun _ _ => .inl rfl

mutual

/-- A request leaves each leaf of a device untouched or having served it. -/
theorem Device.leaves_handle : ∀ (d : Device) (q : Request),
    List.Forall₂ (servedBy q) d.leaves (d.handle q).1.leaves
  | .leaf l, q => .cons (.inr rfl) .nil
  | .bus b, q => by
    have h := Bus.leaves_handle b 0 q
    simpa only [Device.handle, Device.leaves] using h

/-- A request leaves each leaf of a bus untouched or having served it. -/
theorem Bus.leaves_handle : ∀ (b : Bus) (k : Nat) (q : Request),
    List.Forall₂ (servedBy q) b.leaves (b.handle k q).1.leaves
  | .empty, k, q => by simp [Bus.handle, Bus.leaves]
  | .cons d rest, k, q => by
    have hd := Device.leaves_handle d q
    have hr := Bus.leaves_handle rest (k + 1) q
    simp only [Bus.handle]
    split
    · rename_i d' he
      rw [he] at hd
      exact List.rel_append hd (forall₂_servedBy_refl q _)
    · rename_i d' v he
      rw [he] at hd
      split
      · exact List.rel_append hd (forall₂_servedBy_refl q _)
      · exact List.rel_append hd hr
    · rename_i d' kind he
      rw [he] at hd
      split
      · exact List.rel_append hd hr
      · exact List.rel_append hd (forall₂_servedBy_refl q _)

end

mutual

/-- A request changes devices' contents only. -/
theorem Device.shape_handle : ∀ (d : Device) (q : Request), (d.handle q).1.shape = d.shape
  | .leaf l, q => by simp [Device.handle, Device.shape, leafServe_blank]
  | .bus b, q => by
    have h := Bus.shape_handle b 0 q
    simp only [Device.handle, Device.shape, h]

/-- A request changes neither the device list nor its order (rules R26, R51). -/
theorem Bus.shape_handle : ∀ (b : Bus) (k : Nat) (q : Request), (b.handle k q).1.shape = b.shape
  | .empty, k, q => by simp [Bus.handle, Bus.shape]
  | .cons d rest, k, q => by
    have hd := Device.shape_handle d q
    have hr := Bus.shape_handle rest (k + 1) q
    simp only [Bus.handle]
    split
    · rename_i d' he
      rw [he] at hd
      simp only [Bus.shape, hd]
    · rename_i d' v he
      rw [he] at hd
      split <;> simp only [Bus.shape, hd, hr]
    · rename_i d' kind he
      rw [he] at hd
      split <;> simp only [Bus.shape, hd, hr]

end

mutual

/-- A read leaves a device without collaborators unchanged. -/
theorem Device.handle_probe : ∀ (d : Device) (q : Request), isProbe q → d.leaves.all leafQuiet → (d.handle q).1 = d
  | .leaf l, q, hq, hl => by
    have hl : leafQuiet l := by simpa [Device.leaves] using hl
    simp [Device.handle, leafServe_probe l q hq hl]
  | .bus b, q, hq, hl => by
    have h := Bus.handle_probe b 0 q hq (by simpa only [Device.leaves] using hl)
    simp only [Device.handle, h]

/-- A read leaves a bus without collaborators unchanged. -/
theorem Bus.handle_probe : ∀ (b : Bus) (k : Nat) (q : Request), isProbe q → b.leaves.all leafQuiet →
    (b.handle k q).1 = b
  | .empty, k, q, _, _ => by simp [Bus.handle]
  | .cons d rest, k, q, hq, hl => by
    simp only [Bus.leaves, List.all_append, Bool.and_eq_true] at hl
    have hd := Device.handle_probe d q hq hl.1
    have hr := Bus.handle_probe rest (k + 1) q hq hl.2
    simp only [Bus.handle]
    split
    · rename_i d' he
      rw [he] at hd
      exact congrArg (Bus.cons · rest) hd
    · rename_i d' v he
      rw [he] at hd
      subst hd
      simp [hq]
    · rename_i d' kind he
      rw [he] at hd
      subst hd
      split
      · simp [hr]
      · rfl

end

/-- A fatal error a bus answers is never of a soft kind (rules R52, R65). -/
theorem Bus.handle_fatal : ∀ (b : Bus) (k : Nat) (q : Request) (b' : Bus) (e : BusError),
    b.handle k q = (b', .fatal e) → isSoft e.kind = false
  | .empty, k, q, b', e, h => by
    simp only [Bus.handle, exhausted, Prod.mk.injEq] at h
    obtain ⟨-, h⟩ := h
    split at h
    · cases h; rfl
    · cases h
  | .cons d rest, k, q, b', e, h => by
    have ih := Bus.handle_fatal rest (k + 1) q
    simp only [Bus.handle] at h
    split at h
    · simp at h
    · split at h
      · simp at h
      · simp only [Prod.mk.injEq] at h
        exact ih (rest.handle (k + 1) q).1 e (Prod.ext rfl h.2)
    · split at h
      · simp only [Prod.mk.injEq] at h
        exact ih (rest.handle (k + 1) q).1 e (Prod.ext rfl h.2)
      · rename_i hs
        simp only [Prod.mk.injEq, BusResult.fatal.injEq] at h
        obtain ⟨-, rfl⟩ := h
        simpa using hs

/-- A broadcast that succeeds answers 0. -/
theorem Bus.handle_broadcast_ok : ∀ (b : Bus) (k : Nat) (q : Request) (v : Word), isProbe q = false →
    (b.handle k q).2 = .ok v → v = 0
  | .empty, k, q, v, hq, h => by
    simp only [Bus.handle, exhausted, hq, Bool.false_eq_true, if_false, BusResult.ok.injEq] at h
    exact h.symm
  | .cons d rest, k, q, v, hq, h => by
    have ih := Bus.handle_broadcast_ok rest (k + 1) q v hq
    simp only [Bus.handle] at h
    split at h
    · cases h
    · simp only [hq, Bool.false_eq_true, if_false] at h
      exact ih h
    · split at h
      · exact ih h
      · cases h

/-! ## What follows for a request to a bus -/

theorem map_eq_of_forall₂ {α β : Type} {R : α → α → Prop} {f : α → β} (hf : ∀ x y, R x y → f y = f x)
    {xs ys : List α} (h : List.Forall₂ R xs ys) : ys.map f = xs.map f := by
  induction h with
  | nil => rfl
  | cons hxy _ ih => simp [hf _ _ hxy, ih]

/-- Every stored byte a request does not store to is kept, in every device. -/
theorem Bus.bytesAt_request (b : Bus) (q : Request) (x : Word) (h : ¬ storesTo q x) :
    (b.request q).1.bytesAt x = b.bytesAt x := by
  refine map_eq_of_forall₂ (fun l l' hl => ?_) (Bus.leaves_handle b 0 q)
  rcases hl with rfl | rfl
  · rfl
  · exact leafServe_byte l q x h

theorem Bus.shape_request (b : Bus) (q : Request) : (b.request q).1.shape = b.shape := Bus.shape_handle b 0 q

/-- A request keeps the canonical form of every device's bytes. -/
theorem Bus.wf_request (b : Bus) (q : Request) (h : b.wf) : (b.request q).1.wf := by
  intro l' hl'
  obtain ⟨i, hi, rfl⟩ := List.mem_iff_getElem.1 hl'
  have hf := Bus.leaves_handle b 0 q
  have hlen := hf.length_eq
  have hi' : i < b.leaves.length := by rw [hlen]; exact hi
  have := List.Forall₂.get hf hi' hi
  simp only [List.get_eq_getElem] at this
  have hw := h _ (List.getElem_mem hi')
  rcases this with e | e
  · exact e ▸ hw
  · exact e ▸ leafServe_wf _ q hw

theorem Bus.quiet_request (b : Bus) (q : Request) : (b.request q).1.quiet = b.quiet := by
  have hq : ∀ l l' : Leaf, leafBlank l' = leafBlank l → leafQuiet l' = leafQuiet l := by
    intro l l' h; cases l <;> cases l' <;> simp_all [leafBlank, leafQuiet]
  have h : (b.request q).1.leaves.map leafQuiet = b.leaves.map leafQuiet := by
    refine map_eq_of_forall₂ (fun l l' hl => ?_) (Bus.leaves_handle b 0 q)
    rcases hl with rfl | rfl
    · rfl
    · exact hq _ _ (leafServe_blank l q)
  simpa [Bus.quiet, List.all_map] using congrArg (fun xs => xs.all id) h

/-- A read of a bus without collaborators leaves it unchanged. -/
theorem Bus.request_quiet (b : Bus) (q : Request) (hq : isProbe q) (hb : b.quiet) : (b.request q).1 = b :=
  Bus.handle_probe b 0 q hq hb

/-! ## The reference RAM -/

section Ram

variable (size : Word) (m : Memory) (a v : Word) (x : Byte)

theorem ram_get (h : a.toNat < size.toNat) :
    (Bus.cons (.leaf (.ram size m)) .empty).request (.get a) =
      (.cons (.leaf (.ram size m)) .empty, .ok ((m.read a.toNat).setWidth 32)) := by
  simp [Bus.request, Bus.handle, Device.handle, leafServe, leafDirect, ramServe, isProbe, h]

theorem ram_get32 (h : a.toNat + 3 < size.toNat) :
    (Bus.cons (.leaf (.ram size m)) .empty).request (.get32 a) =
      (.cons (.leaf (.ram size m)) .empty, .ok (m.readWord a.toNat)) := by
  simp [Bus.request, Bus.handle, Device.handle, leafServe, leafHasGet32, leafDirect, ramServe, isProbe, h]

theorem ram_set (h : a.toNat < size.toNat) :
    (Bus.cons (.leaf (.ram size m)) .empty).request (.set a x) =
      (.cons (.leaf (.ram size (m.write a.toNat x))) .empty, .ok 0) := by
  simp [Bus.request, Bus.handle, Device.handle, leafServe, leafDirect, ramServe, isProbe, exhausted, h]

theorem ram_set32 (h : a.toNat + 3 < size.toNat) :
    (Bus.cons (.leaf (.ram size m)) .empty).request (.set32 a v) =
      (.cons (.leaf (.ram size (m.writeWord a.toNat v))) .empty, .ok 0) := by
  simp [Bus.request, Bus.handle, Device.handle, leafServe, leafHasSet32, leafDirect, ramServe, isProbe, exhausted, h]

/-- Outside the RAM a read is the fatal AllDevicesFaulted (rule R56). -/
theorem ram_get_outside (h : size.toNat ≤ a.toNat) :
    (Bus.cons (.leaf (.ram size m)) .empty).request (.get a) =
      (.cons (.leaf (.ram size m)) .empty, .fatal ⟨.allDevicesFaulted 1, none, .get, some a⟩) := by
  simp [Bus.request, Bus.handle, Device.handle, leafServe, leafDirect, ramServe, isProbe, exhausted, isSoft,
    requestOp, requestAddr, Nat.not_lt.2 h]

/-- Outside the RAM a word read is the fatal AllDevicesFaulted (rules R56, R61). -/
theorem ram_get32_outside (h : size.toNat ≤ a.toNat + 3) :
    (Bus.cons (.leaf (.ram size m)) .empty).request (.get32 a) =
      (.cons (.leaf (.ram size m)) .empty, .fatal ⟨.allDevicesFaulted 1, none, .get32, some a⟩) := by
  simp [Bus.request, Bus.handle, Device.handle, leafServe, leafHasGet32, leafDirect, ramServe, isProbe, exhausted,
    isSoft, requestOp, requestAddr, Nat.not_lt.2 h]

/-- Outside the RAM a write succeeds and writes nothing (rule R57). -/
theorem ram_set_outside (h : size.toNat ≤ a.toNat) :
    (Bus.cons (.leaf (.ram size m)) .empty).request (.set a x) = (.cons (.leaf (.ram size m)) .empty, .ok 0) := by
  simp [Bus.request, Bus.handle, Device.handle, leafServe, leafDirect, ramServe, isProbe, exhausted, isSoft,
    Nat.not_lt.2 h]

/-- Outside the RAM a word write succeeds and writes nothing (rules R57, R62). -/
theorem ram_set32_outside (h : size.toNat ≤ a.toNat + 3) :
    (Bus.cons (.leaf (.ram size m)) .empty).request (.set32 a v) = (.cons (.leaf (.ram size m)) .empty, .ok 0) := by
  simp [Bus.request, Bus.handle, Device.handle, leafServe, leafHasSet32, leafDirect, ramServe, isProbe, exhausted,
    isSoft, Nat.not_lt.2 h]

end Ram

/-! ## Composed words -/

@[simp] theorem leafThen_ok (l : Leaf) (v : Word) (k : Leaf → Word → Leaf × Answer) :
    leafThen (l, .ok v) k = k l v := rfl

/-- The composition stops at an answer that is no success (rule R63). -/
theorem leafThen_stop (l : Leaf) (x : Answer) (k : Leaf → Word → Leaf × Answer) (h : ∀ v, x ≠ .ok v) :
    leafThen (l, x) k = (l, x) := by
  cases x with
  | ok v => exact absurd rfl (h v)
  | err kind => rfl
  | held => rfl

/-- A device without its own `get32` answers a word by its four bytes (rule R63). -/
theorem handle_get32_composed (l : Leaf) (a : Word) (h : leafHasGet32 l = false) :
    (Device.leaf l).handle (.get32 a) = (.leaf (composeGet l a).1, (composeGet l a).2) := by
  simp [Device.handle, leafServe, h]

/-- A device without its own `set32` stores a word by its four bytes (rule R63). -/
theorem handle_set32_composed (l : Leaf) (a v : Word) (h : leafHasSet32 l = false) :
    (Device.leaf l).handle (.set32 a v) = (.leaf (composeSet l a v).1, (composeSet l a v).2) := by
  simp [Device.handle, leafServe, h]

/-! ## The loader's write -/

/-- Loading a byte into the reference platform's RAM writes it there. -/
theorem Bus.loadByte_ram (size : Word) (m : Memory) (a : Nat) (v : Byte) (h : a < size.toNat) :
    (Bus.cons (.leaf (.ram size m)) .empty).loadByte a v = .cons (.leaf (.ram size (m.write a v))) .empty := by
  simp [Bus.loadByte, Device.loadByte, Device.ramOwns, h]

mutual

theorem Device.shape_loadByte : ∀ (d : Device) (a : Nat) (v : Byte), (d.loadByte a v).shape = d.shape
  | .leaf (.ram size m), a, v => by simp [Device.loadByte, Device.shape, leafBlank]
  | .leaf (.rom _ _), _, _ => rfl
  | .leaf (.window _ _ _), _, _ => rfl
  | .leaf (.failing _), _, _ => rfl
  | .leaf (.collaborator _ _ _ _), _, _ => rfl
  | .bus b, a, v => by simp [Device.loadByte, Device.shape, Bus.shape_loadByte b a v]

/-- Loading changes neither the device list nor its order (rules R26, R301). -/
theorem Bus.shape_loadByte : ∀ (b : Bus) (a : Nat) (v : Byte), (b.loadByte a v).shape = b.shape
  | .empty, _, _ => rfl
  | .cons d rest, a, v => by
    simp only [Bus.loadByte]
    split
    · simp [Bus.shape, Device.shape_loadByte d a v]
    · simp [Bus.shape, Bus.shape_loadByte rest a v]

end

mutual

theorem Device.wf_loadByte : ∀ (d : Device) (a : Nat) (v : Byte), (∀ l ∈ d.leaves, leafWf l) →
    ∀ l ∈ (d.loadByte a v).leaves, leafWf l
  | .leaf (.ram size m), a, v, h => by
    simp only [Device.loadByte, Device.leaves, List.mem_singleton, forall_eq] at h ⊢
    split
    · rename_i hs
      refine ⟨Memory.write_wf _ _ _ h.1, fun c hc => ?_⟩
      rcases cellsWrite_mem _ _ _ _ hc with hc | ⟨rfl, -⟩
      · exact h.2 c hc
      · simpa [leafOwns] using hs
    · exact h
  | .leaf (.rom _ _), _, _, h => h
  | .leaf (.window _ _ _), _, _, h => h
  | .leaf (.failing _), _, _, h => h
  | .leaf (.collaborator _ _ _ _), _, _, h => h
  | .bus b, a, v, h => Bus.wf_loadByte b a v h

/-- Loading keeps the canonical form of every device's bytes. -/
theorem Bus.wf_loadByte : ∀ (b : Bus) (a : Nat) (v : Byte), (∀ l ∈ b.leaves, leafWf l) →
    ∀ l ∈ (b.loadByte a v).leaves, leafWf l
  | .empty, _, _, h => h
  | .cons d rest, a, v, h => by
    simp only [Bus.leaves, List.forall_mem_append] at h
    simp only [Bus.loadByte]
    split
    · simp only [Bus.leaves, List.forall_mem_append]
      exact ⟨Device.wf_loadByte d a v h.1, h.2⟩
    · simp only [Bus.leaves, List.forall_mem_append]
      exact ⟨h.1, Bus.wf_loadByte rest a v h.2⟩

end

/-- A word written to the RAM reads back whole (rules R69, R77). -/
theorem Memory.readWord_writeWord (m : Memory) (a : Nat) (v : Word) (h : m.wf) :
    (m.writeWord a v).readWord a = v := by
  have h0 := Memory.read_writeWord_same m a 0 v h (by omega)
  rw [Nat.add_zero] at h0
  rw [Memory.readWord, h0, Memory.read_writeWord_same m a 1 v h (by omega),
    Memory.read_writeWord_same m a 2 v h (by omega), Memory.read_writeWord_same m a 3 v h (by omega)]
  exact wordByte_append v

end Sys2Proof.Machine
end

