-- ==== Sys2Proof/Laws/Operands.lean ====
section
/-! SUPPORT. Alignment masking as arithmetic: `align4` clears the remainder modulo 4, and the addresses the stack
helpers compute from it. -/

namespace Sys2Proof.Machine

theorem align4_eq_shift (a : Word) : align4 a = (a >>> 2) <<< 2 := by
  apply BitVec.eq_of_getLsbD_eq
  intro i hi
  simp only [align4, BitVec.getLsbD_and, BitVec.getLsbD_shiftLeft, BitVec.getLsbD_ushiftRight]
  have hm : (0xFFFFFFFC#32).getLsbD i = decide (2 ≤ i) := by
    revert i; decide
  rw [show (0xFFFFFFFC : Word) = 0xFFFFFFFC#32 from rfl, hm]
  by_cases h : 2 ≤ i
  · have h' : ¬ i < 2 := by omega
    have e : 2 + (i - 2) = i := by omega
    simp [h, h', hi, e]
  · have h' : i < 2 := by omega
    simp [h, h']

theorem align4_toNat (a : Word) : (align4 a).toNat = a.toNat - a.toNat % 4 := by
  have := a.isLt
  rw [align4_eq_shift, BitVec.toNat_shiftLeft, BitVec.toNat_ushiftRight, Nat.shiftLeft_eq, Nat.shiftRight_eq_div_pow]
  omega

theorem toNat_four : (4 : Word).toNat = 4 := rfl

@[simp] theorem align4_align4 (a : Word) : align4 (align4 a) = align4 a := by
  apply BitVec.eq_of_toNat_eq
  simp only [align4_toNat]
  omega

theorem align4_add_four (a : Word) : align4 (a + 4) = align4 a + 4 := by
  apply BitVec.eq_of_toNat_eq
  have := a.isLt
  simp only [align4_toNat, BitVec.toNat_add, toNat_four]
  omega

theorem align4_sub_four (a : Word) : align4 (a - 4) = align4 a - 4 := by
  apply BitVec.eq_of_toNat_eq
  have := a.isLt
  simp only [align4_toNat, BitVec.toNat_sub, toNat_four]
  omega

@[simp] theorem add_four_sub_four (a : Word) : a + 4 - 4 = a := by
  apply BitVec.eq_of_toNat_eq
  have := a.isLt
  simp only [BitVec.toNat_sub, BitVec.toNat_add, toNat_four]
  omega

@[simp] theorem sub_four_add_four (a : Word) : a - 4 + 4 = a := by
  apply BitVec.eq_of_toNat_eq
  have := a.isLt
  simp only [BitVec.toNat_sub, BitVec.toNat_add, toNat_four]
  omega

/-! The same in the literal form that `simp` leaves numerals in, with the other sums of slot addresses. -/

@[simp] theorem align4_add_4 (a : Word) : align4 (a + 4#32) = align4 a + 4#32 := align4_add_four a

@[simp] theorem align4_sub_4 (a : Word) : align4 (a - 4#32) = align4 a - 4#32 := align4_sub_four a

@[simp] theorem align4_add_8 (a : Word) : align4 (a + 8#32) = align4 a + 8#32 := by
  have h : ∀ x : Word, x + 8#32 = x + 4#32 + 4#32 := fun x => by rw [BitVec.add_assoc]; rfl
  rw [h, align4_add_4, align4_add_4, h]

@[simp] theorem add_4_sub_4 (a : Word) : a + 4#32 - 4#32 = a := add_four_sub_four a

@[simp] theorem sub_4_add_4 (a : Word) : a - 4#32 + 4#32 = a := sub_four_add_four a

@[simp] theorem add_4_add_4 (a : Word) : a + 4#32 + 4#32 = a + 8#32 := by rw [BitVec.add_assoc]; rfl

@[simp] theorem add_8_sub_4 (a : Word) : a + 8#32 - 4#32 = a + 4#32 := by
  rw [← add_4_add_4, add_4_sub_4]

theorem align4_toNat_mod (a : Word) : (align4 a).toNat % 4 = 0 := by
  rw [align4_toNat]
  omega

end Sys2Proof.Machine
end

