-- ==== Sys2Proof/Laws/State.lean ====
section
/-! SUPPORT. The state's field updates: one lemma per field per update, so that no proof unfolds a record update, and
the plain facts about the start of a step. -/

namespace Sys2Proof.Machine

@[simp] theorem State.withPc_pc (s : State) (v : Word) : (s.withPc v).pc = v := rfl
@[simp] theorem State.withPc_sp (s : State) (v : Word) : (s.withPc v).sp = s.sp := rfl
@[simp] theorem State.withPc_lastIm (s : State) (v : Word) : (s.withPc v).lastIm = s.lastIm := rfl
@[simp] theorem State.withPc_state (s : State) (v : Word) : (s.withPc v).state = s.state := rfl
@[simp] theorem State.withPc_params (s : State) (v : Word) : (s.withPc v).params = s.params := rfl
@[simp] theorem State.withPc_bus (s : State) (v : Word) : (s.withPc v).bus = s.bus := rfl
@[simp] theorem State.withPc_prevIm (s : State) (v : Word) : (s.withPc v).prevIm = s.prevIm := rfl
@[simp] theorem State.withPc_report (s : State) (v : Word) : (s.withPc v).report = s.report := rfl

@[simp] theorem State.withSp_pc (s : State) (v : Word) : (s.withSp v).pc = s.pc := rfl
@[simp] theorem State.withSp_sp (s : State) (v : Word) : (s.withSp v).sp = v := rfl
@[simp] theorem State.withSp_lastIm (s : State) (v : Word) : (s.withSp v).lastIm = s.lastIm := rfl
@[simp] theorem State.withSp_state (s : State) (v : Word) : (s.withSp v).state = s.state := rfl
@[simp] theorem State.withSp_params (s : State) (v : Word) : (s.withSp v).params = s.params := rfl
@[simp] theorem State.withSp_bus (s : State) (v : Word) : (s.withSp v).bus = s.bus := rfl
@[simp] theorem State.withSp_prevIm (s : State) (v : Word) : (s.withSp v).prevIm = s.prevIm := rfl
@[simp] theorem State.withSp_report (s : State) (v : Word) : (s.withSp v).report = s.report := rfl

@[simp] theorem State.withState_pc (s : State) (v : RunState) : (s.withState v).pc = s.pc := rfl
@[simp] theorem State.withState_sp (s : State) (v : RunState) : (s.withState v).sp = s.sp := rfl
@[simp] theorem State.withState_lastIm (s : State) (v : RunState) : (s.withState v).lastIm = s.lastIm := rfl
@[simp] theorem State.withState_state (s : State) (v : RunState) : (s.withState v).state = v := rfl
@[simp] theorem State.withState_params (s : State) (v : RunState) : (s.withState v).params = s.params := rfl
@[simp] theorem State.withState_bus (s : State) (v : RunState) : (s.withState v).bus = s.bus := rfl
@[simp] theorem State.withState_prevIm (s : State) (v : RunState) : (s.withState v).prevIm = s.prevIm := rfl
@[simp] theorem State.withState_report (s : State) (v : RunState) : (s.withState v).report = s.report := rfl

@[simp] theorem State.withBus_pc (s : State) (b : Bus) : (s.withBus b).pc = s.pc := rfl
@[simp] theorem State.withBus_sp (s : State) (b : Bus) : (s.withBus b).sp = s.sp := rfl
@[simp] theorem State.withBus_lastIm (s : State) (b : Bus) : (s.withBus b).lastIm = s.lastIm := rfl
@[simp] theorem State.withBus_state (s : State) (b : Bus) : (s.withBus b).state = s.state := rfl
@[simp] theorem State.withBus_params (s : State) (b : Bus) : (s.withBus b).params = s.params := rfl
@[simp] theorem State.withBus_bus (s : State) (b : Bus) : (s.withBus b).bus = b := rfl
@[simp] theorem State.withBus_prevIm (s : State) (b : Bus) : (s.withBus b).prevIm = s.prevIm := rfl
@[simp] theorem State.withBus_report (s : State) (b : Bus) : (s.withBus b).report = s.report := rfl

@[simp] theorem State.withReport_pc (s : State) (r : StepReport) : (s.withReport r).pc = s.pc := rfl
@[simp] theorem State.withReport_sp (s : State) (r : StepReport) : (s.withReport r).sp = s.sp := rfl
@[simp] theorem State.withReport_lastIm (s : State) (r : StepReport) : (s.withReport r).lastIm = s.lastIm := rfl
@[simp] theorem State.withReport_state (s : State) (r : StepReport) : (s.withReport r).state = s.state := rfl
@[simp] theorem State.withReport_params (s : State) (r : StepReport) : (s.withReport r).params = s.params := rfl
@[simp] theorem State.withReport_bus (s : State) (r : StepReport) : (s.withReport r).bus = s.bus := rfl
@[simp] theorem State.withReport_prevIm (s : State) (r : StepReport) : (s.withReport r).prevIm = s.prevIm := rfl
@[simp] theorem State.withReport_report (s : State) (r : StepReport) : (s.withReport r).report = r := rfl

@[simp] theorem State.advance_pc (s : State) : s.advance.pc = s.pc + 1 := rfl
@[simp] theorem State.advance_sp (s : State) : s.advance.sp = s.sp := rfl
@[simp] theorem State.advance_lastIm (s : State) : s.advance.lastIm = s.lastIm := rfl
@[simp] theorem State.advance_state (s : State) : s.advance.state = s.state := rfl
@[simp] theorem State.advance_params (s : State) : s.advance.params = s.params := rfl
@[simp] theorem State.advance_bus (s : State) : s.advance.bus = s.bus := rfl
@[simp] theorem State.advance_prevIm (s : State) : s.advance.prevIm = s.prevIm := rfl
@[simp] theorem State.advance_report (s : State) : s.advance.report = s.report := rfl

@[simp] theorem State.setLastIm_pc (s : State) : s.setLastIm.pc = s.pc := rfl
@[simp] theorem State.setLastIm_sp (s : State) : s.setLastIm.sp = s.sp := rfl
@[simp] theorem State.setLastIm_lastIm (s : State) : s.setLastIm.lastIm = true := rfl
@[simp] theorem State.setLastIm_state (s : State) : s.setLastIm.state = s.state := rfl
@[simp] theorem State.setLastIm_params (s : State) : s.setLastIm.params = s.params := rfl
@[simp] theorem State.setLastIm_bus (s : State) : s.setLastIm.bus = s.bus := rfl
@[simp] theorem State.setLastIm_prevIm (s : State) : s.setLastIm.prevIm = s.prevIm := rfl
@[simp] theorem State.setLastIm_report (s : State) : s.setLastIm.report = s.report := rfl

@[simp] theorem State.beginStep_pc (s : State) : s.beginStep.pc = s.pc := rfl
@[simp] theorem State.beginStep_sp (s : State) : s.beginStep.sp = s.sp := rfl
@[simp] theorem State.beginStep_lastIm (s : State) : s.beginStep.lastIm = false := rfl
@[simp] theorem State.beginStep_state (s : State) : s.beginStep.state = s.state := rfl
@[simp] theorem State.beginStep_params (s : State) : s.beginStep.params = s.params := rfl
@[simp] theorem State.beginStep_bus (s : State) : s.beginStep.bus = s.bus := rfl
@[simp] theorem State.beginStep_prevIm (s : State) : s.beginStep.prevIm = s.lastIm := rfl
@[simp] theorem State.beginStep_report (s : State) : s.beginStep.report = .ok := rfl

/-- Two states are equal when their fields are. -/
theorem State.ext_fields {s t : State} (pc : s.pc = t.pc) (sp : s.sp = t.sp) (im : s.lastIm = t.lastIm)
    (st : s.state = t.state) (ps : s.params = t.params) (b : s.bus = t.bus) (pi : s.prevIm = t.prevIm)
    (r : s.report = t.report) : s = t := by
  cases s; cases t; simp_all

end Sys2Proof.Machine
end

