-- ==== Sys2Proof/Laws/Ops.lean ====
section
/-! SUPPORT. What the shared operations do, said once: what each access gives when the bus answers, when the bus
fails, and what it did if it gave a value; and `exec_keeps`, by which anything that register writes and bus requests
keep is kept by every instruction. -/

namespace Sys2Proof.Machine

open Sys2Proof.Config

/-! ## Composition -/

@[simp] theorem Access.andThen_done {α β : Type} (v : α) (s : State) (k : α → State → Access β) :
    (Access.done v s).andThen k = k v s := rfl

@[simp] theorem Access.andThen_stop {α β : Type} (f : Fault) (k : α → State → Access β) :
    (Access.stop f : Access α).andThen k = .stop f := rfl

@[simp] theorem Access.finish_done {α : Type} (v : α) (s : State)
    (k : α → State → Host.Outcome State Fault Refusal) : (Access.done v s).finish k = k v s := rfl

@[simp] theorem Access.finish_stop {α : Type} (f : Fault) (k : α → State → Host.Outcome State Fault Refusal) :
    (Access.stop f : Access α).finish k = .fault f := rfl

/-- A step that gives a next state got a value from its access. -/
theorem Access.finish_next {α : Type} {x : Access α} {k : α → State → Host.Outcome State Fault Refusal} {t : State}
    (h : x.finish k = .next t) : ∃ v s, x = .done v s ∧ k v s = .next t := by
  cases x with
  | done v s => exact ⟨v, s, rfl, h⟩
  | stop f => cases h

theorem Access.andThen_done_iff {α β : Type} {x : Access α} {k : α → State → Access β} {w : β} {t : State} :
    x.andThen k = .done w t ↔ ∃ v s, x = .done v s ∧ k v s = .done w t := by
  cases x <;> simp

/-! ## One access -/

theorem busAccess_of_answers {q : Request} {s : State} {v : Word} {b : Bus} (h : Answers s.bus q v b) :
    busAccess q s = .done v (s.withBus b) := by
  simp [busAccess, h]

theorem busAccess_of_fails {q : Request} {s : State} {e : BusError} {b : Bus} (h : Fails s.bus q e b) :
    busAccess q s = .stop (.busFault e (s.withBus b)) := by
  simp [busAccess, h]

/-- An access that gives a value: the bus answered it, and only the bus has changed. -/
theorem busAccess_done {q : Request} {s t : State} {v : Word} (h : busAccess q s = .done v t) :
    ∃ b, Answers s.bus q v b ∧ t = s.withBus b := by
  unfold busAccess at h
  split at h
  · rename_i b w he
    cases h
    exact ⟨b, he, rfl⟩
  · cases h
  · cases h

theorem memRead4_of_answers {a : Word} {s : State} {v : Word} {b : Bus} (h : Answers s.bus (.get32 a) v b) :
    memRead4 a s = .done v (s.withBus b) := busAccess_of_answers h

theorem memRead4_of_fails {a : Word} {s : State} {e : BusError} {b : Bus} (h : Fails s.bus (.get32 a) e b) :
    memRead4 a s = .stop (.busFault e (s.withBus b)) := busAccess_of_fails h

theorem memRead1_of_answers {a : Word} {s : State} {v : Word} {b : Bus} (h : Answers s.bus (.get a) v b) :
    memRead1 a s = .done (v.setWidth 8) (s.withBus b) := by
  simp [memRead1, busAccess_of_answers h]

theorem memRead1_of_fails {a : Word} {s : State} {e : BusError} {b : Bus} (h : Fails s.bus (.get a) e b) :
    memRead1 a s = .stop (.busFault e (s.withBus b)) := by
  simp [memRead1, busAccess_of_fails h]

theorem memWrite4_of_answers {a v : Word} {s : State} {w : Word} {b : Bus} (h : Answers s.bus (.set32 a v) w b) :
    memWrite4 a v s = .done () (s.withBus b) := by
  simp [memWrite4, busAccess_of_answers h]

theorem memWrite4_of_fails {a v : Word} {s : State} {e : BusError} {b : Bus} (h : Fails s.bus (.set32 a v) e b) :
    memWrite4 a v s = .stop (.busFault e (s.withBus b)) := by
  simp [memWrite4, busAccess_of_fails h]

theorem memWrite1_of_answers {a : Word} {v : Byte} {s : State} {w : Word} {b : Bus}
    (h : Answers s.bus (.set a v) w b) : memWrite1 a v s = .done () (s.withBus b) := by
  simp [memWrite1, busAccess_of_answers h]

theorem memWrite1_of_fails {a : Word} {v : Byte} {s : State} {e : BusError} {b : Bus}
    (h : Fails s.bus (.set a v) e b) : memWrite1 a v s = .stop (.busFault e (s.withBus b)) := by
  simp [memWrite1, busAccess_of_fails h]

theorem memRead1_done {a : Word} {s t : State} {v : Byte} (h : memRead1 a s = .done v t) :
    ∃ w b, Answers s.bus (.get a) w b ∧ v = w.setWidth 8 ∧ t = s.withBus b := by
  obtain ⟨w, u, hw, hk⟩ := Access.andThen_done_iff.1 h
  obtain ⟨b, hb, rfl⟩ := busAccess_done hw
  cases hk
  exact ⟨w, b, hb, rfl, rfl⟩

theorem memWrite1_done {a : Word} {v : Byte} {s t : State} {u : Unit} (h : memWrite1 a v s = .done u t) :
    ∃ w b, Answers s.bus (.set a v) w b ∧ t = s.withBus b := by
  obtain ⟨w, u, hw, hk⟩ := Access.andThen_done_iff.1 h
  obtain ⟨b, hb, rfl⟩ := busAccess_done hw
  cases hk
  exact ⟨w, b, hb, rfl⟩

theorem memWrite4_done {a v : Word} {s t : State} {u : Unit} (h : memWrite4 a v s = .done u t) :
    ∃ w b, Answers s.bus (.set32 a v) w b ∧ t = s.withBus b := by
  obtain ⟨w, u, hw, hk⟩ := Access.andThen_done_iff.1 h
  obtain ⟨b, hb, rfl⟩ := busAccess_done hw
  cases hk
  exact ⟨w, b, hb, rfl⟩

/-! ## The stack helpers -/

theorem pop_of_answers {s : State} {v : Word} {b : Bus} (h : Answers s.bus (.get32 (align4 s.sp)) v b) :
    pop s = .done v ((s.withBus b).withSp (align4 (s.sp + 4))) := by
  simp [pop, memRead4_of_answers h]

theorem pop_of_fails {s : State} {e : BusError} {b : Bus} (h : Fails s.bus (.get32 (align4 s.sp)) e b) :
    pop s = .stop (.busFault e (s.withBus b)) := by
  simp [pop, memRead4_of_fails h]

theorem push_of_answers {s : State} {v w : Word} {b : Bus} (h : Answers s.bus (.set32 (align4 (s.sp - 4)) v) w b) :
    push v s = .done () ((s.withSp (s.sp - 4)).withBus b) :=
  memWrite4_of_answers (s := s.withSp (s.sp - 4)) h

theorem push_of_fails {s : State} {v : Word} {e : BusError} {b : Bus}
    (h : Fails s.bus (.set32 (align4 (s.sp - 4)) v) e b) :
    push v s = .stop (.busFault e ((s.withSp (s.sp - 4)).withBus b)) :=
  memWrite4_of_fails (s := s.withSp (s.sp - 4)) h

/-- A pop that gives a value: the word at `align4(sp)`, and `sp` and the bus have changed (rule R76). -/
theorem pop_done {s t : State} {v : Word} (h : pop s = .done v t) :
    ∃ b, Answers s.bus (.get32 (align4 s.sp)) v b ∧ t = (s.withBus b).withSp (align4 (s.sp + 4)) := by
  obtain ⟨w, u, hw, hk⟩ := Access.andThen_done_iff.1 h
  obtain ⟨b, hb, rfl⟩ := busAccess_done hw
  cases hk
  exact ⟨b, hb, rfl⟩

/-- A push that gives a value: the word stored at `align4(sp - 4)`, and `sp` and the bus have changed (rule R75). -/
theorem push_done {s t : State} {v : Word} {u : Unit} (h : push v s = .done u t) :
    ∃ w b, Answers s.bus (.set32 (align4 (s.sp - 4)) v) w b ∧ t = (s.withSp (s.sp - 4)).withBus b :=
  memWrite4_done h

/-! ## Addresses of the stack slots -/

theorem spPop_sub_four (sp : Word) : align4 (sp + 4) - 4 = align4 sp := by
  rw [align4_add_four, add_four_sub_four]

theorem align4_add_four_align4 (sp : Word) : align4 (align4 sp + 4) = align4 sp + 4 := by
  rw [align4_add_four, align4_align4]

theorem align4_add_eight (sp : Word) : align4 (align4 sp + 4 + 4) = align4 sp + 8 := by
  rw [align4_add_four, align4_add_four_align4]
  have h : ∀ x : Word, x + 4 + 4 = x + 8 := fun x => by
    rw [BitVec.add_assoc]; rfl
  exact h _

theorem add_eight_sub_four (x : Word) : x + 8 - 4 = x + 4 := by
  have h : x + 8 = x + 4 + 4 := by rw [BitVec.add_assoc]; rfl
  rw [h, add_four_sub_four]

/-! ## The shapes of opcodes, when the bus answers -/

theorem pushNext_of_answers {s : State} {v w : Word} {b : Bus} (h : Answers s.bus (.set32 (align4 (s.sp - 4)) v) w b) :
    pushNext v s = .next { s with pc := s.pc + 1, sp := s.sp - 4, bus := b } := by
  simp only [pushNext, push_of_answers h, Access.finish_done]
  rfl

theorem takeTrap_of_answers {index : BitVec 5} {s : State} {w : Word} {b : Bus}
    (h : Answers s.bus (.set32 (align4 (s.sp - 4)) (s.pc + 1)) w b) :
    takeTrap index s = .next { s with pc := trapVector index, sp := s.sp - 4, bus := b } := by
  simp only [takeTrap, push_of_answers h, Access.finish_done]
  rfl

theorem unaryOp_of_answers {f : Word → Word} {s : State} {a w : Word} {b1 b2 : Bus}
    (h1 : Answers s.bus (.get32 (align4 s.sp)) a b1) (h2 : Answers b1 (.set32 (align4 s.sp) (f a)) w b2) :
    unaryOp f s = .next { s with pc := s.pc + 1, sp := align4 s.sp, bus := b2 } := by
  simp only [unaryOp, pop_of_answers h1, Access.finish_done]
  rw [pushNext_of_answers (b := b2) (w := w)]
  · simp only [State.withSp_sp, spPop_sub_four]; rfl
  · simpa only [State.withSp_sp, State.withSp_bus, State.withBus_bus, spPop_sub_four, align4_align4] using h2

theorem pop_pop_of_answers {s : State} {a b : Word} {b1 b2 : Bus}
    (h1 : Answers s.bus (.get32 (align4 s.sp)) a b1) (h2 : Answers b1 (.get32 (align4 s.sp + 4)) b b2)
    (k : Word → Word → State → Host.Outcome State Fault Refusal) :
    (pop s).finish (fun a s => (pop s).finish fun b s => k a b s) =
      k a b { s with sp := align4 s.sp + 8, bus := b2 } := by
  rw [pop_of_answers h1, Access.finish_done, pop_of_answers (v := b) (b := b2)]
  · simp only [Access.finish_done, State.withSp_sp, align4_add_four s.sp, align4_add_eight]
    rfl
  · simpa only [State.withSp_sp, State.withSp_bus, State.withBus_bus, align4_align4, align4_add_four s.sp,
      align4_add_four_align4] using h2

theorem binaryOp_of_answers {f : Word → Word → Word} {s : State} {a b w : Word} {b1 b2 b3 : Bus}
    (h1 : Answers s.bus (.get32 (align4 s.sp)) a b1) (h2 : Answers b1 (.get32 (align4 s.sp + 4)) b b2)
    (h3 : Answers b2 (.set32 (align4 s.sp + 4) (f a b)) w b3) :
    binaryOp f s = .next { s with pc := s.pc + 1, sp := align4 s.sp + 4, bus := b3 } := by
  rw [binaryOp, pop_pop_of_answers h1 h2 (fun a b s => pushNext (f a b) s), pushNext_of_answers (b := b3) (w := w)]
  · simp only [add_eight_sub_four]
  · simpa only [add_eight_sub_four, align4_add_four_align4] using h3

/-! ## The shapes of opcodes, when the bus fails -/

/-- The first pop of any opcode fails: no register has changed (rules R76, R276). -/
theorem pop_finish_of_fails {s : State} {e : BusError} {b : Bus}
    {k : Word → State → Host.Outcome State Fault Refusal} (h : Fails s.bus (.get32 (align4 s.sp)) e b) :
    (pop s).finish k = .fault (.busFault e { s with bus := b }) := by
  rw [pop_of_fails h]
  rfl

/-- The second pop fails: `sp` is as the first left it (rules R76, R276). -/
theorem pop_pop_of_fails {s : State} {a : Word} {e : BusError} {b1 b2 : Bus}
    {k : Word → Word → State → Host.Outcome State Fault Refusal}
    (h1 : Answers s.bus (.get32 (align4 s.sp)) a b1) (h2 : Fails b1 (.get32 (align4 s.sp + 4)) e b2) :
    (pop s).finish (fun a s => (pop s).finish fun b s => k a b s) =
      .fault (.busFault e { s with sp := align4 s.sp + 4, bus := b2 }) := by
  rw [pop_of_answers h1, Access.finish_done, pop_finish_of_fails (e := e) (b := b2)]
  · simp only [align4_add_four s.sp]
    rfl
  · simpa only [State.withSp_sp, State.withSp_bus, State.withBus_bus, align4_align4, align4_add_four s.sp,
      align4_add_four_align4] using h2

theorem pushNext_of_fails {s : State} {v : Word} {e : BusError} {b : Bus}
    (h : Fails s.bus (.set32 (align4 (s.sp - 4)) v) e b) :
    pushNext v s = .fault (.busFault e { s with sp := s.sp - 4, bus := b }) := by
  simp only [pushNext, push_of_fails h, Access.finish_stop]
  rfl

/-- The trap's push fails: `sp` decremented, `pc` unchanged (rule R183). -/
theorem takeTrap_of_fails {index : BitVec 5} {s : State} {e : BusError} {b : Bus}
    (h : Fails s.bus (.set32 (align4 (s.sp - 4)) (s.pc + 1)) e b) :
    takeTrap index s = .fault (.busFault e { s with sp := s.sp - 4, bus := b }) := by
  simp only [takeTrap, push_of_fails h, Access.finish_stop]
  rfl

/-- A slot that runs natively is its body (rule R182). -/
theorem emulate_native {index : BitVec 5} {body : State → Host.Outcome State Fault Refusal} {s : State}
    (h : native s) (hi : implemented s.params index = true) : emulate index body s = body s := by
  simp [emulate, h, hi]

/-- A slot that does not run natively traps (rules R182, R183). -/
theorem emulate_trap {index : BitVec 5} {body : State → Host.Outcome State Fault Refusal} {s : State}
    (h : s.params.hwEmulation = false ∨ implemented s.params index = false) :
    emulate index body s = takeTrap index s := by
  unfold emulate
  rcases h with h | h <;> simp [h]

/-- The native slots are implemented whatever the parameters (rules R181, R185). -/
theorem implemented_native (p : Params) (index : BitVec 5) (h : nativeSlots.contains index.toNat = true) :
    implemented p index = true := by
  simp only [implemented, h, Bool.true_or]

/-! ## The shapes of opcodes, when they give a next state -/

theorem pushNext_next {v : Word} {s t : State} (h : pushNext v s = .next t) :
    ∃ w b, Answers s.bus (.set32 (align4 (s.sp - 4)) v) w b ∧
      t = { s with pc := s.pc + 1, sp := s.sp - 4, bus := b } := by
  obtain ⟨_, u, hu, hk⟩ := Access.finish_next h
  obtain ⟨w, b, hb, rfl⟩ := push_done hu
  cases hk
  exact ⟨w, b, hb, rfl⟩

theorem takeTrap_next {index : BitVec 5} {s t : State} (h : takeTrap index s = .next t) :
    ∃ w b, Answers s.bus (.set32 (align4 (s.sp - 4)) (s.pc + 1)) w b ∧
      t = { s with pc := trapVector index, sp := s.sp - 4, bus := b } := by
  obtain ⟨_, u, hu, hk⟩ := Access.finish_next h
  obtain ⟨w, b, hb, rfl⟩ := push_done hu
  cases hk
  exact ⟨w, b, hb, rfl⟩

theorem unaryOp_next {f : Word → Word} {s t : State} (h : unaryOp f s = .next t) :
    ∃ a w b1 b2, Answers s.bus (.get32 (align4 s.sp)) a b1 ∧
      Answers b1 (.set32 (align4 (align4 (s.sp + 4) - 4)) (f a)) w b2 ∧
      t = { s with pc := s.pc + 1, sp := align4 (s.sp + 4) - 4, bus := b2 } := by
  obtain ⟨a, u, hu, hk⟩ := Access.finish_next h
  obtain ⟨b1, hb1, rfl⟩ := pop_done hu
  obtain ⟨w, b2, hb2, rfl⟩ := pushNext_next hk
  exact ⟨a, w, b1, b2, hb1, hb2, rfl⟩

theorem binaryOp_next {f : Word → Word → Word} {s t : State} (h : binaryOp f s = .next t) :
    ∃ a b w b1 b2 b3, Answers s.bus (.get32 (align4 s.sp)) a b1 ∧
      Answers b1 (.get32 (align4 (align4 (s.sp + 4)))) b b2 ∧
      Answers b2 (.set32 (align4 (align4 (align4 (s.sp + 4) + 4) - 4)) (f a b)) w b3 ∧
      t = { s with pc := s.pc + 1, sp := align4 (align4 (s.sp + 4) + 4) - 4, bus := b3 } := by
  obtain ⟨a, u, hu, hk⟩ := Access.finish_next h
  obtain ⟨b1, hb1, rfl⟩ := pop_done hu
  obtain ⟨b, u, hu, hk⟩ := Access.finish_next hk
  obtain ⟨b2, hb2, rfl⟩ := pop_done hu
  obtain ⟨w, b3, hb3, rfl⟩ := pushNext_next hk
  exact ⟨a, b, w, b1, b2, b3, hb1, hb2, hb3, rfl⟩

/-- An EMULATE slot runs its body or traps, by the parameters alone (rule R182). -/
theorem emulate_cases (index : BitVec 5) (body : State → Host.Outcome State Fault Refusal) (s : State) :
    (native s ∧ implemented s.params index = true ∧ emulate index body s = body s) ∨
    ((s.params.hwEmulation = false ∨ implemented s.params index = false) ∧
      emulate index body s = takeTrap index s) := by
  unfold emulate
  cases h : s.params.hwEmulation <;> cases hi : implemented s.params index <;> simp [native, h]

/-! ## What every instruction keeps -/

/-- A property of states that register writes and bus requests keep. -/
structure Kept (P : State → Prop) : Prop where
  pc : ∀ s v, P s → P (s.withPc v)
  sp : ∀ s v, P s → P (s.withSp v)
  im : ∀ s, P s → P s.setLastIm
  state : ∀ s v, P s → P (s.withState v)
  report : ∀ s r, P s → P (s.withReport r)
  bus : ∀ s q, P s → P (s.withBus (s.bus.request q).1)

/-- `P` holds of the state an access leaves, whether it gives a value or a bus fault. -/
def Access.leaves {α : Type} (P : State → Prop) : Access α → Prop
  | .done _ s => P s
  | .stop (.busFault _ s) => P s
  | .stop .notRunning | .stop (.deviceHolds _ _) => True

/-- `P` holds of the state an outcome leaves, next state or bus fault. -/
def outcomeLeaves (P : State → Prop) : Host.Outcome State Fault Refusal → Prop
  | .next s => P s
  | .fault (.busFault _ s) => P s
  | .fault .notRunning | .fault (.deviceHolds _ _) | .refused _ => True

section Keeps

variable {P : State → Prop} (hP : Kept P)

theorem Access.finish_leaves {α : Type} {x : Access α} {k : α → State → Host.Outcome State Fault Refusal}
    (hx : x.leaves P) (hk : ∀ v s, P s → outcomeLeaves P (k v s)) : outcomeLeaves P (x.finish k) := by
  cases x with
  | done v s => exact hk v s hx
  | stop f => cases f <;> exact hx

theorem Access.andThen_leaves {α β : Type} {x : Access α} {k : α → State → Access β}
    (hx : x.leaves P) (hk : ∀ v s, P s → (k v s).leaves P) : (x.andThen k).leaves P := by
  cases x with
  | done v s => exact hk v s hx
  | stop f => cases f <;> exact hx

include hP

theorem busAccess_leaves (q : Request) (s : State) (h : P s) : (busAccess q s).leaves P := by
  have hb := hP.bus s q h
  unfold busAccess
  split
  · rename_i he; rw [he] at hb; exact hb
  · rename_i he; rw [he] at hb; exact hb
  · trivial

theorem memRead1_leaves (a : Word) (s : State) (h : P s) : (memRead1 a s).leaves P :=
  Access.andThen_leaves (busAccess_leaves hP _ s h) fun _ _ h => h

theorem memWrite1_leaves (a : Word) (v : Byte) (s : State) (h : P s) : (memWrite1 a v s).leaves P :=
  Access.andThen_leaves (busAccess_leaves hP _ s h) fun _ _ h => h

theorem memRead4_leaves (a : Word) (s : State) (h : P s) : (memRead4 a s).leaves P := busAccess_leaves hP _ s h

theorem memWrite4_leaves (a v : Word) (s : State) (h : P s) : (memWrite4 a v s).leaves P :=
  Access.andThen_leaves (busAccess_leaves hP _ s h) fun _ _ h => h

theorem memRead2_leaves (a : Word) (s : State) (h : P s) : (memRead2 a s).leaves P :=
  Access.andThen_leaves (memRead1_leaves hP _ s h) fun _ s h =>
    Access.andThen_leaves (memRead1_leaves hP _ s h) fun _ _ h => h

theorem memWrite2_leaves (a : Word) (v : BitVec 16) (s : State) (h : P s) : (memWrite2 a v s).leaves P :=
  Access.andThen_leaves (memWrite1_leaves hP _ _ s h) fun _ s h => memWrite1_leaves hP _ _ s h

theorem pop_leaves (s : State) (h : P s) : (pop s).leaves P :=
  Access.andThen_leaves (memRead4_leaves hP _ s h) fun _ s h => hP.sp s _ h

theorem push_leaves (v : Word) (s : State) (h : P s) : (push v s).leaves P :=
  memWrite4_leaves hP _ _ _ (hP.sp s _ h)

theorem nextPc_leaves (s : State) (h : P s) : outcomeLeaves P (nextPc s) := hP.pc s _ h

theorem pushNext_leaves (v : Word) (s : State) (h : P s) : outcomeLeaves P (pushNext v s) :=
  Access.finish_leaves (push_leaves hP v s h) fun _ s h => nextPc_leaves hP s h

theorem takeTrap_leaves (index : BitVec 5) (s : State) (h : P s) : outcomeLeaves P (takeTrap index s) :=
  Access.finish_leaves (push_leaves hP _ s h) fun _ s h => hP.pc s _ h

theorem unaryOp_leaves (f : Word → Word) (s : State) (h : P s) : outcomeLeaves P (unaryOp f s) :=
  Access.finish_leaves (pop_leaves hP s h) fun _ s h => pushNext_leaves hP _ s h

theorem binaryOp_leaves (f : Word → Word → Word) (s : State) (h : P s) : outcomeLeaves P (binaryOp f s) :=
  Access.finish_leaves (pop_leaves hP s h) fun _ s h =>
    Access.finish_leaves (pop_leaves hP s h) fun _ s h => pushNext_leaves hP _ s h

theorem divideOp_leaves (f : Word → Word → Word) (s : State) (h : P s) : outcomeLeaves P (divideOp f s) := by
  refine Access.finish_leaves (pop_leaves hP s h) fun a s h =>
    Access.finish_leaves (pop_leaves hP s h) fun b s h => ?_
  split
  · exact hP.report _ _ (hP.state _ _ h)
  · split
    · exact hP.report _ _ (hP.state _ _ h)
    · exact pushNext_leaves hP _ s h

theorem branchOp_leaves (taken : Word → Bool) (s : State) (h : P s) : outcomeLeaves P (branchOp taken s) := by
  refine Access.finish_leaves (pop_leaves hP s h) fun a s h =>
    Access.finish_leaves (pop_leaves hP s h) fun b s h => ?_
  split
  · exact hP.pc s _ h
  · exact nextPc_leaves hP s h

theorem emulate_leaves (index : BitVec 5) (body : State → Host.Outcome State Fault Refusal) (s : State) (h : P s)
    (hb : ∀ s, P s → outcomeLeaves P (body s)) : outcomeLeaves P (emulate index body s) := by
  unfold emulate
  split
  · exact hb s h
  · exact takeTrap_leaves hP index s h

/-- What register writes and bus requests keep, every instruction keeps, whether it gives a next state or a fault. -/
theorem exec_keeps (i : Instr) (s : State) (h : P s) : outcomeLeaves P (exec i s) := by
  cases i with
  | breakpoint =>
    simp only [exec, execBreakpoint]
    split
    · exact nextPc_leaves hP _ (hP.state s _ h)
    · exact hP.state s _ h
  | pushsp => exact pushNext_leaves hP _ s h
  | poppc => exact Access.finish_leaves (pop_leaves hP s h) fun _ s h => hP.pc s _ h
  | add => exact binaryOp_leaves hP _ s h
  | and => exact binaryOp_leaves hP _ s h
  | or => exact binaryOp_leaves hP _ s h
  | load =>
    exact Access.finish_leaves (pop_leaves hP s h) fun _ s h =>
      Access.finish_leaves (memRead4_leaves hP _ s h) fun _ s h => pushNext_leaves hP _ s h
  | not => exact unaryOp_leaves hP _ s h
  | flip => exact unaryOp_leaves hP _ s h
  | nop => exact nextPc_leaves hP s h
  | store =>
    exact Access.finish_leaves (pop_leaves hP s h) fun _ s h =>
      Access.finish_leaves (pop_leaves hP s h) fun _ s h =>
        Access.finish_leaves (memWrite4_leaves hP _ _ s h) fun _ s h => nextPc_leaves hP s h
  | popsp => exact Access.finish_leaves (pop_leaves hP s h) fun _ s h => nextPc_leaves hP _ (hP.sp s _ h)
  | illegal op => exact hP.report _ _ (hP.state s _ h)
  | im k =>
    have himm : ∀ v s, P s → outcomeLeaves P (pushImmediate v s) := fun v s h =>
      Access.finish_leaves (push_leaves hP v s h) fun _ s h => nextPc_leaves hP _ (hP.im s h)
    simp only [exec, execIm]
    split
    · exact Access.finish_leaves (pop_leaves hP s h) fun _ s h => himm _ s h
    · exact himm _ s h
  | storesp x =>
    exact Access.finish_leaves (pop_leaves hP s h) fun _ s h =>
      Access.finish_leaves (memWrite4_leaves hP _ _ s h) fun _ s h => nextPc_leaves hP s h
  | loadsp x => exact Access.finish_leaves (memRead4_leaves hP _ s h) fun _ s h => pushNext_leaves hP _ s h
  | addsp n =>
    exact Access.finish_leaves (memRead4_leaves hP _ s h) fun _ s h =>
      Access.finish_leaves (pop_leaves hP s h) fun _ s h => pushNext_leaves hP _ s h
  | loadh =>
    exact emulate_leaves hP _ _ s h fun s h => Access.finish_leaves (pop_leaves hP s h) fun _ s h =>
      Access.finish_leaves (memRead2_leaves hP _ s h) fun _ s h => pushNext_leaves hP _ s h
  | storeh =>
    exact emulate_leaves hP _ _ s h fun s h => Access.finish_leaves (pop_leaves hP s h) fun _ s h =>
      Access.finish_leaves (pop_leaves hP s h) fun _ s h =>
        Access.finish_leaves (memWrite2_leaves hP _ _ s h) fun _ s h => nextPc_leaves hP s h
  | loadb =>
    exact emulate_leaves hP _ _ s h fun s h => Access.finish_leaves (pop_leaves hP s h) fun _ s h =>
      Access.finish_leaves (memRead1_leaves hP _ s h) fun _ s h => pushNext_leaves hP _ s h
  | storeb =>
    exact emulate_leaves hP _ _ s h fun s h => Access.finish_leaves (pop_leaves hP s h) fun _ s h =>
      Access.finish_leaves (pop_leaves hP s h) fun _ s h =>
        Access.finish_leaves (memWrite1_leaves hP _ _ s h) fun _ s h => nextPc_leaves hP s h
  | swap =>
    exact emulate_leaves hP _ _ s h fun s h => Access.finish_leaves (pop_leaves hP s h) fun _ s h =>
      Access.finish_leaves (pop_leaves hP s h) fun _ s h =>
        Access.finish_leaves (push_leaves hP _ s h) fun _ s h => pushNext_leaves hP _ s h
  | poppcrel =>
    exact emulate_leaves hP _ _ s h fun s h =>
      Access.finish_leaves (pop_leaves hP s h) fun _ s h => hP.pc s _ h
  | callpcrel =>
    exact emulate_leaves hP _ _ s h fun s h => Access.finish_leaves (pop_leaves hP s h) fun _ s h =>
      Access.finish_leaves (push_leaves hP _ s h) fun _ s h => hP.pc s _ h
  | neg => exact emulate_leaves hP _ _ s h fun s h => unaryOp_leaves hP _ s h
  | pushspadd => exact emulate_leaves hP _ _ s h fun s h => unaryOp_leaves hP _ s h
  | div => exact emulate_leaves hP _ _ s h fun s h => divideOp_leaves hP _ s h
  | mod => exact emulate_leaves hP _ _ s h fun s h => divideOp_leaves hP _ s h
  | eqbranch => exact emulate_leaves hP _ _ s h fun s h => branchOp_leaves hP _ s h
  | neqbranch => exact emulate_leaves hP _ _ s h fun s h => branchOp_leaves hP _ s h
  | emulate0 => exact takeTrap_leaves hP _ s h
  | call => exact takeTrap_leaves hP _ s h
  | config => exact takeTrap_leaves hP _ s h
  | pushpc => exact takeTrap_leaves hP _ s h
  | syscall => exact takeTrap_leaves hP _ s h
  | halfmult => exact takeTrap_leaves hP _ s h
  | emulate31 => exact takeTrap_leaves hP _ s h
  | lessthan => exact emulate_leaves hP _ _ s h fun s h => binaryOp_leaves hP _ s h
  | lessthanorequal => exact emulate_leaves hP _ _ s h fun s h => binaryOp_leaves hP _ s h
  | ulessthan => exact emulate_leaves hP _ _ s h fun s h => binaryOp_leaves hP _ s h
  | ulessthanorequal => exact emulate_leaves hP _ _ s h fun s h => binaryOp_leaves hP _ s h
  | mult => exact emulate_leaves hP _ _ s h fun s h => binaryOp_leaves hP _ s h
  | lshiftright => exact emulate_leaves hP _ _ s h fun s h => binaryOp_leaves hP _ s h
  | ashiftleft => exact emulate_leaves hP _ _ s h fun s h => binaryOp_leaves hP _ s h
  | ashiftright => exact emulate_leaves hP _ _ s h fun s h => binaryOp_leaves hP _ s h
  | eq => exact emulate_leaves hP _ _ s h fun s h => binaryOp_leaves hP _ s h
  | neq => exact emulate_leaves hP _ _ s h fun s h => binaryOp_leaves hP _ s h
  | sub => exact emulate_leaves hP _ _ s h fun s h => binaryOp_leaves hP _ s h
  | xor => exact emulate_leaves hP _ _ s h fun s h => binaryOp_leaves hP _ s h

end Keeps

/-- A next state of `step` comes from the fetch and the opcode's body. -/
theorem step_next {s t : State} (h : step s = .next t) :
    s.state = .running ∧ ∃ w b, Answers s.bus (.get s.pc) w b ∧
      exec (decodeByte (w.setWidth 8)) (s.beginStep.withBus b) = .next t := by
  unfold step at h
  split at h
  · rename_i hs
    obtain ⟨v, u, hv, hk⟩ := Access.finish_next h
    obtain ⟨w, b, hb, rfl, rfl⟩ := memRead1_done hv
    exact ⟨hs, w, b, hb, hk⟩
  · cases h

end Sys2Proof.Machine
end

