-- ==== Sys2Proof/Laws/PerInstr.lean ====
section
/-! SUPPORT. The per-instruction family Encoding: the byte of a well-formed instruction has the selecting bits of the
instruction's format (rule R101). -/

namespace Sys2Proof.Laws.Encoding

/-- The instruction's byte, under its format's mask, is its format's pattern. -/
def Statement (i : Instr) : Prop := i.wf = true → encode i &&& i.format.selects.1 = i.format.selects.2

theorem breakpoint : Statement .breakpoint := fun _ => by decide

theorem pushsp : Statement .pushsp := fun _ => by decide

theorem poppc : Statement .poppc := fun _ => by decide

theorem add : Statement .add := fun _ => by decide

theorem and : Statement .and := fun _ => by decide

theorem or : Statement .or := fun _ => by decide

theorem load : Statement .load := fun _ => by decide

theorem not : Statement .not := fun _ => by decide

theorem flip : Statement .flip := fun _ => by decide

theorem nop : Statement .nop := fun _ => by decide

theorem store : Statement .store := fun _ => by decide

theorem popsp : Statement .popsp := fun _ => by decide

theorem illegal (op : Byte) : Statement (.illegal op) := by
  intro h
  have : op = 0x01 ∨ op = 0x03 ∨ op = 0x0E ∨ op = 0x0F := by
    simpa [Instr.wf, illegalBytes] using h
  rcases this with rfl | rfl | rfl | rfl <;> decide

theorem im (x : BitVec 7) : Statement (.im x) := by
  intro _
  revert x
  decide

theorem storesp (x : BitVec 5) : Statement (.storesp x) := by
  intro _
  revert x
  decide

theorem loadsp (x : BitVec 5) : Statement (.loadsp x) := by
  intro _
  revert x
  decide

theorem addsp (x : BitVec 4) : Statement (.addsp x) := by
  intro _
  revert x
  decide

theorem emulate0 : Statement .emulate0 := fun _ => by decide

theorem loadh : Statement .loadh := fun _ => by decide

theorem storeh : Statement .storeh := fun _ => by decide

theorem lessthan : Statement .lessthan := fun _ => by decide

theorem lessthanorequal : Statement .lessthanorequal := fun _ => by decide

theorem ulessthan : Statement .ulessthan := fun _ => by decide

theorem ulessthanorequal : Statement .ulessthanorequal := fun _ => by decide

theorem swap : Statement .swap := fun _ => by decide

theorem mult : Statement .mult := fun _ => by decide

theorem lshiftright : Statement .lshiftright := fun _ => by decide

theorem ashiftleft : Statement .ashiftleft := fun _ => by decide

theorem ashiftright : Statement .ashiftright := fun _ => by decide

theorem call : Statement .call := fun _ => by decide

theorem eq : Statement .eq := fun _ => by decide

theorem neq : Statement .neq := fun _ => by decide

theorem neg : Statement .neg := fun _ => by decide

theorem sub : Statement .sub := fun _ => by decide

theorem xor : Statement .xor := fun _ => by decide

theorem loadb : Statement .loadb := fun _ => by decide

theorem storeb : Statement .storeb := fun _ => by decide

theorem div : Statement .div := fun _ => by decide

theorem mod : Statement .mod := fun _ => by decide

theorem eqbranch : Statement .eqbranch := fun _ => by decide

theorem neqbranch : Statement .neqbranch := fun _ => by decide

theorem poppcrel : Statement .poppcrel := fun _ => by decide

theorem config : Statement .config := fun _ => by decide

theorem pushpc : Statement .pushpc := fun _ => by decide

theorem syscall : Statement .syscall := fun _ => by decide

theorem pushspadd : Statement .pushspadd := fun _ => by decide

theorem halfmult : Statement .halfmult := fun _ => by decide

theorem callpcrel : Statement .callpcrel := fun _ => by decide

theorem emulate31 : Statement .emulate31 := fun _ => by decide

end Sys2Proof.Laws.Encoding
end

