-- ==== Sys2Proof/Tests/Slice0.lean ====
section
/-! SUPPORT. Tests on small states. The expected values are those of 95_test_vectors.md (the section stands before each
group) or read off the rule named; then, for every statement with hypotheses, a witness that meets them. -/

namespace Sys2Proof.Tests

open Sys2Proof.Config Sys2Proof.Machine

/-! ## Builders -/

/-- A memory from words at addresses. -/
def memoryOf (ws : List (Nat × Word)) : Memory := ws.foldl (fun m w => m.writeWord w.1 w.2) .blank

/-- The stack words at 0x7FF0 on. -/
def stackWords : Nat → List Word → List (Nat × Word)
  | _, [] => []
  | a, w :: ws => (a, w) :: stackWords (a + 4) ws

/-- The bus of one RAM(0x10000) with contents `m`. -/
def ramBus (m : Memory) : Bus := .cons (.leaf (.ram ramSize m)) .empty

/-- The common set-up of 95_test_vectors.md L2: Running, `pc` 0x100 holding `op`, `sp` 0x7FF0, the stack given. -/
def vec (op : Byte) (stack : List Word) : State :=
  { State.reset with
    state := .running, pc := 0x100, sp := 0x7FF0
    bus := ramBus ((memoryOf (stackWords 0x7FF0 stack)).write 0x100 op) }

/-- The same with one more word in memory. -/
def vecAt (op : Byte) (stack : List Word) (a : Nat) (w : Word) : State :=
  { vec op stack with bus := ramBus ((memoryOf ((a, w) :: stackWords 0x7FF0 stack)).write 0x100 op) }

/-- The words of the stack from `a` on. -/
def wordsFrom (b : Bus) : Word → Nat → List BusResult
  | _, 0 => []
  | a, n + 1 => (b.request (.get32 a)).2 :: wordsFrom b (a + 4) n

/-- The step gives a next state, still Running and reported Ok, with this `sp`, this `pc` and this stack. -/
def gives (s : State) (sp pc : Word) (stack : List Word) : Bool :=
  match step s with
  | .next t =>
    t.sp == sp && t.pc == pc && t.state == .running && t.report == .ok &&
      wordsFrom t.bus (align4 sp) stack.length == stack.map .ok
  | .fault _ => false
  | .refused _ => false

/-- The step gives a next state with this word at `a`. -/
def stores (s : State) (a w : Word) : Bool :=
  match step s with
  | .next t => (t.bus.request (.get32 a)).2 == .ok w
  | .fault _ => false
  | .refused _ => false

/-- The outcome is a next state. -/
def isNext (o : Host.Outcome State Fault Refusal) : Bool :=
  match o with
  | .next _ => true
  | .fault _ => false
  | .refused _ => false

/-- The next state of an outcome that has one. -/
def nextOf (o : Host.Outcome State Fault Refusal) : Option State :=
  match o with
  | .next t => some t
  | .fault _ => none
  | .refused _ => none

/-- The bus fault a step raised, with the `sp`, `pc`, execution state and `last_im` it left. -/
def busFaultOf (o : Host.Outcome State Fault Refusal) : Option (BusError × Word × Word × RunState × Bool) :=
  match o with
  | .fault (.busFault e t) => some (e, t.sp, t.pc, t.state, t.lastIm)
  | .fault .notRunning => none
  | .fault (.deviceHolds _ _) => none
  | .next _ => none
  | .refused _ => none

/-! ## Well-formedness and decoding (L2.1, L1.9; rules R101 to R112) -/

theorem test_wf_refuses_exact_byte_as_illegal : (Instr.illegal 0x05).wf = false := by decide

theorem test_wf_refuses_im_byte_as_illegal : (Instr.illegal 0x80).wf = false := by decide

theorem test_wf_accepts_illegal : ∀ op ∈ [0x01, 0x03, 0x0E, 0x0F], (Instr.illegal op).wf = true := by decide

theorem test_decode_exact :
    decodeByte 0b00000000 = .breakpoint ∧ decodeByte 0b00000010 = .pushsp ∧ decodeByte 0b00000100 = .poppc ∧
    decodeByte 0b00000101 = .add ∧ decodeByte 0b00000110 = .and ∧ decodeByte 0b00000111 = .or ∧
    decodeByte 0b00001000 = .load ∧ decodeByte 0b00001001 = .not ∧ decodeByte 0b00001010 = .flip ∧
    decodeByte 0b00001011 = .nop ∧ decodeByte 0b00001100 = .store ∧ decodeByte 0b00001101 = .popsp := by decide

theorem test_decode_illegal :
    decodeByte 0x01 = .illegal 0x01 ∧ decodeByte 0x03 = .illegal 0x03 ∧ decodeByte 0x0E = .illegal 0x0E ∧
    decodeByte 0x0F = .illegal 0x0F := by decide

theorem test_decode_emulate_low :
    decodeByte 0x20 = .emulate0 ∧ decodeByte 0x21 = .loadh ∧ decodeByte 0x22 = .storeh ∧ decodeByte 0x23 = .lessthan ∧
    decodeByte 0x24 = .lessthanorequal ∧ decodeByte 0x25 = .ulessthan ∧ decodeByte 0x26 = .ulessthanorequal ∧
    decodeByte 0x27 = .swap ∧ decodeByte 0x28 = .mult ∧ decodeByte 0x29 = .lshiftright ∧
    decodeByte 0x2A = .ashiftleft ∧ decodeByte 0x2B = .ashiftright ∧ decodeByte 0x2C = .call ∧ decodeByte 0x2D = .eq ∧
    decodeByte 0x2E = .neq ∧ decodeByte 0x2F = .neg := by decide

theorem test_decode_emulate_high :
    decodeByte 0x30 = .sub ∧ decodeByte 0x31 = .xor ∧ decodeByte 0x32 = .loadb ∧ decodeByte 0x33 = .storeb ∧
    decodeByte 0x34 = .div ∧ decodeByte 0x35 = .mod ∧ decodeByte 0x36 = .eqbranch ∧ decodeByte 0x37 = .neqbranch ∧
    decodeByte 0x38 = .poppcrel ∧ decodeByte 0x39 = .config ∧ decodeByte 0x3A = .pushpc ∧ decodeByte 0x3B = .syscall ∧
    decodeByte 0x3C = .pushspadd ∧ decodeByte 0x3D = .halfmult ∧ decodeByte 0x3E = .callpcrel ∧
    decodeByte 0x3F = .emulate31 := by decide

theorem test_decode_fields :
    decodeByte 0x10 = .addsp 0 ∧ decodeByte 0x1F = .addsp 15 ∧ decodeByte 0x80 = .im 0x00 ∧
    decodeByte 0xBF = .im 0x3F ∧ decodeByte 0xC0 = .im 0x40 ∧ decodeByte 0xFF = .im 0x7F ∧
    decodeByte 0x40 = .storesp 0x00 ∧ decodeByte 0x51 = .storesp 0x11 ∧ decodeByte 0x6F = .loadsp 0x0F ∧
    decodeByte 0x7F = .loadsp 0x1F := by decide

theorem test_decode_offsets :
    sprelOffset 0x00 = 64 ∧ sprelOffset 0x0F = 124 ∧ sprelOffset 0x10 = 0 ∧ sprelOffset 0x11 = 4 ∧
    sprelOffset 0x1F = 60 ∧ addspOffset 15 = 60 ∧ trapVector 31 = 0x3E0 := by decide

theorem test_imm_expansion_short :
    (immLiterals 1).map (fun i => encode (.im i)) = [0x81] ∧ (immLiterals 0xFFFFFFFF).map (fun i => encode (.im i)) = [0xFF] ∧
    (immLiterals 0x40).map (fun i => encode (.im i)) = [0x80, 0xC0] ∧
    (immLiterals 0x1234).map (fun i => encode (.im i)) = [0xA4, 0xB4] ∧
    (immLiterals 0xFFFFFFBF).map (fun i => encode (.im i)) = [0xFF, 0xBF] := by decide

theorem test_imm_expansion_long :
    (immLiterals 0x12345678).map (fun i => encode (.im i)) = [0x81, 0x91, 0xD1, 0xAC, 0xF8] ∧
    (immLiterals 0x80000000).map (fun i => encode (.im i)) = [0x88, 0x80, 0x80, 0x80, 0x80] ∧
    (immLiterals 0x7FFFFFFF).map (fun i => encode (.im i)) = [0x87, 0xFF, 0xFF, 0xFF, 0xFF] := by decide

/-! ## Exact-match opcodes (L2.2) -/

theorem test_breakpoint_keeps_pc :
    nextOf (step (vec 0x00 [0x11])) = some { vec 0x00 [0x11] with state := .sleeping } := by decide

theorem test_breakpoint_advances_pc :
    nextOf (step { vec 0x00 [0x11] with params := { Config.params with breakAdvancesPc := true } }) =
      some { vec 0x00 [0x11] with
        params := { Config.params with breakAdvancesPc := true }, state := .sleeping, pc := 0x101 } := by decide

theorem test_pushsp : gives (vec 0x02 [0x11]) 0x7FEC 0x101 [0x7FF0, 0x11] = true := by decide

theorem test_pushsp_unaligned : gives { vec 0x02 [0x11] with sp := 0x7FF2 } 0x7FEE 0x101 [0x7FF2, 0x11] = true := by decide

theorem test_poppc_odd_target : gives (vec 0x04 [0x1235, 0x22]) 0x7FF4 0x1235 [0x22] = true := by decide

theorem test_add : gives (vec 0x05 [2, 3, 0x99]) 0x7FF4 0x101 [5, 0x99] = true := by decide

theorem test_add_wraps : gives (vec 0x05 [0xFFFFFFFF, 1, 0x99]) 0x7FF4 0x101 [0, 0x99] = true := by decide

theorem test_and :
    gives (vec 0x06 [0xFF00FF00, 0x0FF00FF0, 0x99]) 0x7FF4 0x101 [0x0F000F00, 0x99] = true := by decide

theorem test_or :
    gives (vec 0x07 [0xFF00FF00, 0x0FF00FF0, 0x99]) 0x7FF4 0x101 [0xFFF0FFF0, 0x99] = true := by decide

theorem test_load_masks_address :
    gives (vecAt 0x08 [0x1007, 0x99] 0x1004 0xCAFEBABE) 0x7FF0 0x101 [0xCAFEBABE, 0x99] = true := by decide

theorem test_load_outside :
    busFaultOf (step (vec 0x08 [0x20000, 0x99])) =
      some (⟨.allDevicesFaulted 1, none, .get32, some 0x20000⟩, 0x7FF4, 0x100, .running, false) := by decide

theorem test_not : gives (vec 0x09 [0x12345678]) 0x7FF0 0x101 [0xEDCBA987] = true := by decide

theorem test_flip : gives (vec 0x0A [0x12345678]) 0x7FF0 0x101 [0x1E6A2C48] = true := by decide +kernel

theorem test_nop : gives (vec 0x0B [0x11]) 0x7FF0 0x101 [0x11] = true := by decide

theorem test_store_masks_address :
    gives (vec 0x0C [0x1003, 0xDEADBEEF, 0x99]) 0x7FF8 0x101 [0x99] = true ∧
    stores (vec 0x0C [0x1003, 0xDEADBEEF, 0x99]) 0x1000 0xDEADBEEF = true := by decide

theorem test_store_unowned : gives (vec 0x0C [0x20000, 5, 0x99]) 0x7FF8 0x101 [0x99] = true := by decide

theorem test_popsp_masks : gives (vec 0x0D [0x6003, 0x99]) 0x6000 0x101 [] = true := by decide

theorem test_popsp_overwrites_pop : gives (vec 0x0D [0x7FF8, 0x22, 0x33]) 0x7FF8 0x101 [0x33] = true := by decide

/-- L1.7: the halt is sticky. -/
theorem test_illegal :
    nextOf (step { vec 0x01 [] with lastIm := true }) =
      some { vec 0x01 [] with state := .stopped, prevIm := true, report := .decodeFault 0x01 } := by decide

/-! ## Immediate and stack-relative (L2.3, L2.4) -/

theorem test_im_pushes_sign_extended :
    gives (vec 0xC1 [0x11]) 0x7FEC 0x101 [0xFFFFFFC1, 0x11] = true ∧
    gives (vec 0xBF [0x11]) 0x7FEC 0x101 [0x3F, 0x11] = true := by decide

theorem test_im_chains :
    gives { vec 0x81 [0xFFFFFFC1, 0x99] with lastIm := true } 0x7FF0 0x101 [0xFFFFE081, 0x99] = true ∧
    gives { vec 0x80 [0x20000000, 0x99] with lastIm := true } 0x7FF0 0x101 [0, 0x99] = true := by decide

theorem test_storesp_4_removes_nos :
    gives (vec 0x51 [0x11, 0x22, 0x33]) 0x7FF4 0x101 [0x11, 0x33] = true := by decide

theorem test_storesp_124 : stores (vec 0x4F [0x11, 0x22]) 0x806C 0x11 = true := by decide

theorem test_loadsp_0_duplicates : gives (vec 0x70 [0x11, 0x22]) 0x7FEC 0x101 [0x11, 0x11, 0x22] = true := by decide

theorem test_loadsp_124 :
    gives (vecAt 0x6F [0x11, 0x22] 0x806C 0x77) 0x7FEC 0x101 [0x77, 0x11, 0x22] = true := by decide

theorem test_addsp_12 :
    gives (vec 0x13 [0x11, 0x22, 0x33, 0x44]) 0x7FF0 0x101 [0x55, 0x22, 0x33, 0x44] = true := by decide

theorem test_storesp_unaligned_sp :
    gives { vec 0x51 [0x11, 0x22, 0x33] with sp := 0x7FF2 } 0x7FF4 0x101 [0x11, 0x33] = true := by decide

/-! ## EMULATE (L1.6, L2.5) -/

theorem test_reserved_slots_trap :
    gives (vec 0x20 [0x11]) 0x7FEC 0x000 [0x101, 0x11] = true ∧ gives (vec 0x2C [0x11]) 0x7FEC 0x180 [0x101, 0x11] = true ∧
    gives (vec 0x39 [0x11]) 0x7FEC 0x320 [0x101, 0x11] = true ∧ gives (vec 0x3A [0x11]) 0x7FEC 0x340 [0x101, 0x11] = true := by
  decide

theorem test_reserved_slots_trap_high :
    gives (vec 0x3B [0x11]) 0x7FEC 0x360 [0x101, 0x11] = true ∧ gives (vec 0x3D [0x11]) 0x7FEC 0x3A0 [0x101, 0x11] = true ∧
    gives (vec 0x3F [0x11]) 0x7FEC 0x3E0 [0x101, 0x11] = true := by decide

theorem test_emulation_off_traps :
    gives { vec 0x30 [0x11, 0x22] with params := { Config.params with hwEmulation := false } } 0x7FEC 0x200
      [0x101, 0x11, 0x22] = true := by decide

/-- The trap still jumps where no device owns the slot pushed. -/
theorem test_trap_unowned_push :
    gives { vec 0x3B [] with sp := 0x20004 } 0x20000 0x360 [] = true := by decide

/-! ## Comparisons, SWAP, MULT, shifts (L2.6, L2.7) -/

theorem test_lessthan :
    gives (vec 0x23 [0x80000000, 0x7FFFFFFF, 0x99]) 0x7FF4 0x101 [1, 0x99] = true ∧
    gives (vec 0x23 [2, 1, 0x99]) 0x7FF4 0x101 [0, 0x99] = true := by decide

theorem test_lessthanorequal :
    gives (vec 0x24 [2, 2, 0x99]) 0x7FF4 0x101 [1, 0x99] = true ∧
    gives (vec 0x24 [3, 2, 0x99]) 0x7FF4 0x101 [0, 0x99] = true := by decide

theorem test_ulessthan :
    gives (vec 0x25 [0xFFFFFFFF, 1, 0x99]) 0x7FF4 0x101 [0, 0x99] = true ∧
    gives (vec 0x25 [1, 0xFFFFFFFF, 0x99]) 0x7FF4 0x101 [1, 0x99] = true := by decide

theorem test_ulessthanorequal :
    gives (vec 0x26 [2, 2, 0x99]) 0x7FF4 0x101 [1, 0x99] = true ∧
    gives (vec 0x26 [0xFFFFFFFF, 0, 0x99]) 0x7FF4 0x101 [0, 0x99] = true := by decide

theorem test_swap : gives (vec 0x27 [0x11, 0x22, 0x99]) 0x7FF0 0x101 [0x22, 0x11, 0x99] = true := by decide

theorem test_mult :
    gives (vec 0x28 [0xFFFFFFFF, 2, 0x99]) 0x7FF4 0x101 [0xFFFFFFFE, 0x99] = true ∧
    gives (vec 0x28 [0x10000, 0x10000, 0x99]) 0x7FF4 0x101 [0, 0x99] = true := by decide

theorem test_lshiftright :
    gives (vec 0x29 [31, 0x80000000, 0x99]) 0x7FF4 0x101 [1, 0x99] = true ∧
    gives (vec 0x29 [0xFFFFFFFF, 1, 0x99]) 0x7FF4 0x101 [2, 0x99] = true := by decide

theorem test_lshiftright_mask6 :
    gives { vec 0x29 [0x44, 0x80000000, 0x99] with params := { Config.params with shiftCountMode := .mask6 } }
      0x7FF4 0x101 [0x08000000, 0x99] = true := by decide

theorem test_ashiftleft :
    gives (vec 0x2A [4, 0x12345678, 0x99]) 0x7FF4 0x101 [0x23456780, 0x99] = true ∧
    gives (vec 0x2A [0xFFFFFFFC, 0x12345678, 0x99]) 0x7FF4 0x101 [0x01234567, 0x99] = true := by decide

theorem test_ashiftright :
    gives (vec 0x2B [4, 0x80000000, 0x99]) 0x7FF4 0x101 [0xF8000000, 0x99] = true ∧
    gives (vec 0x2B [40, 0x7FFFFFFF, 0x99]) 0x7FF4 0x101 [0, 0x99] = true := by decide

/-! ## EQ to MOD (L2.8, L2.9) -/

theorem test_eq :
    gives (vec 0x2D [5, 5, 0x99]) 0x7FF4 0x101 [1, 0x99] = true ∧
    gives (vec 0x2D [5, 6, 0x99]) 0x7FF4 0x101 [0, 0x99] = true := by decide

theorem test_neq :
    gives (vec 0x2E [5, 6, 0x99]) 0x7FF4 0x101 [1, 0x99] = true ∧
    gives (vec 0x2E [0, 0, 0x99]) 0x7FF4 0x101 [0, 0x99] = true := by decide

theorem test_neg :
    gives (vec 0x2F [1, 0x99]) 0x7FF0 0x101 [0xFFFFFFFF, 0x99] = true ∧
    gives (vec 0x2F [0x80000000, 0x99]) 0x7FF0 0x101 [0x80000000, 0x99] = true := by decide

theorem test_sub : gives (vec 0x30 [3, 10, 0x99]) 0x7FF4 0x101 [7, 0x99] = true := by decide

theorem test_sub_tos_minus_nos :
    gives { vec 0x30 [3, 10, 0x99] with params := { Config.params with subOrder := .tosMinusNos } }
      0x7FF4 0x101 [0xFFFFFFF9, 0x99] = true := by decide

theorem test_xor :
    gives (vec 0x31 [0xFFFFFFFF, 0x12345678, 0x99]) 0x7FF4 0x101 [0xEDCBA987, 0x99] = true := by decide

theorem test_div :
    gives (vec 0x34 [0xFFFFFFF9, 2, 0x99]) 0x7FF4 0x101 [0xFFFFFFFD, 0x99] = true ∧
    gives (vec 0x34 [0x80000000, 1, 0x99]) 0x7FF4 0x101 [0x80000000, 0x99] = true := by decide

theorem test_div_by_zero :
    nextOf (step (vec 0x34 [7, 0, 0x99])) = some { vec 0x34 [7, 0, 0x99] with
      sp := 0x7FF8, state := .stopped, report := .arithmeticFault .divideByZero } := by decide

theorem test_mod :
    gives (vec 0x35 [0xFFFFFFF9, 0xFFFFFFFE, 0x99]) 0x7FF4 0x101 [0xFFFFFFFF, 0x99] = true ∧
    gives (vec 0x35 [7, 0xFFFFFFFE, 0x99]) 0x7FF4 0x101 [1, 0x99] = true := by decide

theorem test_mod_overflow :
    nextOf (step (vec 0x35 [0x80000000, 0xFFFFFFFF, 0x99])) = some { vec 0x35 [0x80000000, 0xFFFFFFFF, 0x99] with
      sp := 0x7FF8, state := .stopped, report := .arithmeticFault .divideOverflow } := by decide

/-! ## Bytes, halves, branches, calls (L2.10, L2.11) -/

theorem test_loadb : gives (vecAt 0x32 [0x1001, 0x99] 0x1000 0x12AB5678) 0x7FF0 0x101 [0xAB, 0x99] = true := by decide

theorem test_loadb_outside :
    busFaultOf (step (vec 0x32 [0x20000, 0x99])) =
      some (⟨.allDevicesFaulted 1, none, .get, some 0x20000⟩, 0x7FF4, 0x100, .running, false) := by decide

theorem test_storeb :
    gives (vecAt 0x33 [0x1002, 0x12345678, 0x99] 0x1000 0x12AB5678) 0x7FF8 0x101 [0x99] = true ∧
    stores (vecAt 0x33 [0x1002, 0x12345678, 0x99] 0x1000 0x12AB5678) 0x1000 0x12AB7878 = true := by decide

theorem test_loadh :
    gives { vecAt 0x21 [0x1001, 0x99] 0x1000 0x12AB5678 with params := { Config.params with hwHalfword := true } }
      0x7FF0 0x101 [0xAB56, 0x99] = true := by decide

theorem test_loadh_traps_by_default : gives (vec 0x21 [0x1001, 0x99]) 0x7FEC 0x020 [0x101, 0x1001, 0x99] = true := by
  decide

theorem test_storeh :
    stores { vecAt 0x22 [0x1001, 0x12345678, 0x99] 0x1000 0x12AB5678 with
      params := { Config.params with hwHalfword := true } } 0x1000 0x12567878 = true := by decide

theorem test_storeh_traps_by_default : gives (vec 0x22 [0x1001, 0x99]) 0x7FEC 0x040 [0x101, 0x1001, 0x99] = true := by
  decide

theorem test_eqbranch :
    gives (vec 0x36 [0xFFFFFFF0, 0, 0x99]) 0x7FF8 0x0F0 [0x99] = true ∧
    gives (vec 0x36 [0x10, 5, 0x99]) 0x7FF8 0x101 [0x99] = true := by decide

theorem test_neqbranch :
    gives (vec 0x37 [0x10, 5, 0x99]) 0x7FF8 0x110 [0x99] = true ∧
    gives (vec 0x37 [0x10, 0, 0x99]) 0x7FF8 0x101 [0x99] = true := by decide

theorem test_poppcrel : gives (vec 0x38 [0xFFFFFFF0, 0x99]) 0x7FF4 0x0F0 [0x99] = true := by decide

theorem test_pushspadd :
    gives (vec 0x3C [2, 0x99]) 0x7FF0 0x101 [0x7FF8, 0x99] = true ∧
    gives (vec 0x3C [0xFFFFFFFF, 0x99]) 0x7FF0 0x101 [0x7FEC, 0x99] = true := by decide

theorem test_pushspadd_unaligned :
    gives { vec 0x3C [1, 0x99] with sp := 0x7FF2 } 0x7FF0 0x101 [0x7FF4, 0x99] = true := by decide

theorem test_callpcrel : gives (vec 0x3E [0x20, 0x99]) 0x7FF0 0x120 [0x101, 0x99] = true := by decide

/-! ## The bus (L1.1 to L1.3, L2.12) -/

/-- The bus of L1.1. -/
def windows : List Device :=
  [.leaf (.window 0x000 0x0FF .blank), .leaf (.window 0x100 0x1FF .blank),
   .leaf (.window 0x200 0x2FF (Memory.blank.write 0x250 0x5A))]

/-- W(0, 0xFF), and F. -/
def lowWindow : Device := .leaf (.window 0x00 0xFF .blank)
def faulty : Device := .leaf (.failing .hardwareFault)

/-- W(0x100, 0x10F) over RAM(0x10000). -/
def shadowed : List Device := [.leaf (.window 0x100 0x10F .blank), .leaf (.ram ramSize .blank)]

theorem test_probe_third_device : (busOf windows).request (.get 0x250) = (busOf windows, .ok 0x5A) := by decide

theorem test_probe_exhausted :
    (busOf windows).request (.get 0x300) =
      (busOf windows, .fatal ⟨.allDevicesFaulted 3, none, .get, some 0x300⟩) := by decide

theorem test_broadcast_second_device :
    ((busOf windows).request (.set 0x150 0xAB)).2 = .ok 0 ∧
    readByte ((busOf windows).request (.set 0x150 0xAB)).1 0x150 = .ok 0xAB := by decide

theorem test_fatal_first :
    ((busOf [faulty, lowWindow]).request (.get 0x10)).2 = .fatal ⟨.hardwareFault, some 0, .get, some 0x10⟩ ∧
    (busOf [faulty, lowWindow]).request (.set 0x10 7) =
      (busOf [faulty, lowWindow], .fatal ⟨.hardwareFault, some 0, .set, some 0x10⟩) := by decide

theorem test_fatal_second :
    readByte (busOf [lowWindow, faulty]) 0x10 = .ok 0 ∧
    (busOf [lowWindow, faulty]).request (.set 0x10 7) =
      (busOf [.leaf (.window 0x00 0xFF (Memory.blank.write 0x10 7)), faulty],
        .fatal ⟨.hardwareFault, some 1, .set, some 0x10⟩) := by decide

theorem test_shadowed_write_reaches_both :
    ((busOf shadowed).request (.set 0x105 9)).1.bytesAt 0x105 = [some 9, some 9] ∧
    (busOf shadowed).getSize = 0x10000 := by decide

theorem test_empty_bus :
    readByte Bus.empty 0 = .fatal ⟨.allDevicesFaulted 0, none, .get, some 0⟩ ∧
    (Bus.empty.request (.set 0 1)).2 = .ok 0 ∧ Bus.empty.getSize = 0 := by decide

theorem test_nested_bus :
    readByte (busOf [.bus (busOf [lowWindow]), .leaf (.window 0x100 0x1FF .blank)]) 0x150 =
      .fatal ⟨.allDevicesFaulted 1, some 0, .get, some 0x150⟩ := by decide

theorem test_composed_word :
    ((busOf [.leaf (.window 0x100 0x1FF (memoryOf [(0x100, 0x01020304)]))]).request (.get32 0x100)).2 = .ok 0x01020304 ∧
    ((busOf [.leaf (.window 0x100 0x1FF .blank)]).request (.get32 0x1FE)).2 =
      .fatal ⟨.allDevicesFaulted 1, none, .get32, some 0x1FE⟩ := by decide

theorem test_composed_word_partial :
    (busOf [.leaf (.window 0x100 0x1FF .blank)]).request (.set32 0x1FE 0xAABBCCDD) =
      (busOf [.leaf (.window 0x100 0x1FF ((Memory.blank.write 0x1FE 0xAA).write 0x1FF 0xBB))], .ok 0) := by decide

/-- Each accessor is optional by itself (rule R50). -/
theorem test_accessors_optional :
    (∀ n g t, leafHasGet32 (.collaborator n g t []) = g ∧ leafHasSet32 (.collaborator n g t []) = t) ∧
    (leafHasGet32 (.collaborator 1 true false []) = true ∧ leafHasSet32 (.collaborator 1 true false []) = false) := by
  exact ⟨fun _ _ _ => ⟨rfl, rfl⟩, rfl, rfl⟩

/-- The loader reaches a RAM inside a nested bus (rules R51, R301). -/
theorem test_load_nested_ram :
    readByte ((busOf [.bus (ramBus .blank)]).loadByte 0x10 0x5A) 0x10 = .ok 0x5A := by decide

/-- bus.init() that ends in a fatal error gives the error and the state it leaves (rule R54). -/
theorem test_init_fatal :
    busInit { State.reset with bus := busOf [lowWindow, faulty] } =
      .error (.busError ⟨.hardwareFault, some 1, .init, none⟩ { State.reset with bus := busOf [lowWindow, faulty] }) := by
  decide

/-- Rule R82. -/
theorem test_rom_ignores_write :
    (busOf [.leaf (.rom 0x100 .blank)]).request (.set 0x10 7) = (busOf [.leaf (.rom 0x100 .blank)], .ok 0) := by decide

/-! ## Reset, the memory's form, the host (rules R31, R302) -/

theorem test_reset_memory_wf : State.reset.wf := by decide

/-- Writing what an unlisted address holds removes the entry. -/
theorem test_memory_canonical : (Memory.blank.write 5 0x11).write 5 unwrittenByte = .blank := by decide

theorem test_start :
    start State.reset = .ok { State.reset with state := .running } ∧ start (vec 0 []) = .error .notStopped := by decide

theorem test_not_running : stepOutcome (step State.reset) = some .notRunning := by decide

theorem test_fetch_word_runs : nextOf (step (State.reset.withFetchWord 8 0x0B)) =
    some { State.reset.withFetchWord 8 0x0B with pc := 1 } := by decide

/-! ## Witnesses: the encoding and the step -/

theorem test_met_asm_forms :
    asmIm (-64) = some 0xC0 ∧ asmIm 63 = some 0xBF ∧ asmStoresp 0 = some 0x50 ∧ asmStoresp 124 = some 0x4F ∧
    asmLoadsp 64 = some 0x60 ∧ asmLoadsp 60 = some 0x7F ∧ asmAddsp 60 = some 0x1F ∧ asmEmulate 31 = some 0x3F := by
  decide

theorem test_met_decode_encode : (Instr.im 0x7F).wf = true ∧ (Instr.illegal 0x0F).wf = true := by decide

theorem test_met_not_running : State.reset.state ≠ .running := by decide

theorem test_met_step_runs :
    (vec 0x05 []).state = .running ∧ Answers (vec 0x05 []).bus (.get (vec 0x05 []).pc) 5 (vec 0x05 []).bus ∧
    Instr.add.wf = true ∧ (5 : Word).setWidth 8 = encode .add := by decide

theorem test_met_fetch_fault :
    Fails (vec 0x05 []).bus (.get 0x20000) ⟨.allDevicesFaulted 1, none, .get, some 0x20000⟩ (vec 0x05 []).bus := by
  decide

/-- At `pc` 0 and at the RAM's last byte. -/
theorem test_met_placed_byte :
    onRam State.reset.bus ramSize .blank ∧ Memory.blank.wf ∧ State.reset.pc.toNat < ramSize.toNat ∧
    (0xFFFF : Word).toNat < ramSize.toNat ∧ Instr.swap.wf = true := by decide

/-! ## Witnesses: whole-machine rules -/

/-- L2.13: the first pop fails, and then the second. -/
theorem test_met_bus_fault :
    busFaultOf (step { vec 0x05 [] with sp := 0x10000 }) =
      some (⟨.allDevicesFaulted 1, none, .get32, some 0x10000⟩, 0x10000, 0x100, .running, false) ∧
    busFaultOf (step { vec 0x05 [] with sp := 0xFFFC }) =
      some (⟨.allDevicesFaulted 1, none, .get32, some 0x10000⟩, 0x10000, 0x100, .running, false) := by decide

theorem test_met_exec_bus_fault : (busFaultOf (exec .add { vec 0x05 [] with sp := 0x10000 })).isSome = true := by decide

theorem test_met_invariants :
    (vec 0x05 [2, 3]).wf ∧ spAligned (vec 0x05 [2, 3]) ∧ isNext (step (vec 0x05 [2, 3])) = true ∧
    (vec 0x05 []).wf ∧ spAligned { vec 0x05 [] with sp := 0xFFFC } := by decide

theorem test_met_last_im :
    isNext (step (vec 0x81 [])) = true ∧ Answers (vec 0x81 []).bus (.get 0x100) 0x81 (vec 0x81 []).bus ∧
    isNext (step (vec 0x0B [])) = true ∧ Answers (vec 0x0B []).bus (.get 0x100) 0x0B (vec 0x0B []).bus := by decide

theorem test_met_prev_im : ∀ k, Instr.add ≠ .im k := by decide

/-- The stack and the loads at the top of the RAM. -/
theorem test_met_ram_progress :
    onRam (vec 0x05 []).bus ramSize ((memoryOf []).write 0x100 5) ∧ stackInRam 0xFF83 ramSize ∧
    loadInRam .load 0xFFFF ramSize ∧ loadInRam .loadb 0xFFFF ramSize ∧ loadInRam .loadh 0xFFFE ramSize ∧
    loadInRam .swap 0xFFFFFFFF ramSize := by decide

/-! ## Witnesses: the bus -/

theorem test_met_probe_first_owner :
    isProbe (.get 0x250) = true ∧ (∀ x ∈ windows.take 2, answersSoft (x.handle (.get 0x250)).2 = true) ∧
    (windows.getD 2 faulty).handle (.get 0x250) = (windows.getD 2 faulty, .ok 0x5A) := by decide

theorem test_met_probe_exhausted :
    (∀ x ∈ windows, answersSoft (x.handle (.get 0x300)).2 = true) ∧
    ∀ x ∈ windows, answersSoft (x.handle (.get32 0xFD)).2 = true := by decide

theorem test_met_broadcast :
    isProbe (.set 0x150 0xAB) = false ∧ (∀ x ∈ windows, answersOn (x.handle (.set 0x150 0xAB)).2 = true) ∧
    ∀ x ∈ windows, answersOn (x.handle .init).2 = true := by decide

theorem test_met_fatal_aborts :
    answersSoft (lowWindow.handle (.get 0x150)).2 = true ∧ answersOn (lowWindow.handle (.set 0x10 7)).2 = true ∧
    faulty.handle (.get 0x150) = (faulty, .err .hardwareFault) ∧
    faulty.handle (.set 0x10 7) = (faulty, .err .hardwareFault) ∧ isFatal .hardwareFault = true := by decide

theorem test_met_nested_bus :
    isProbe (.get 0x150) = true ∧ (∀ x ∈ [lowWindow], answersSoft (x.handle (.get 0x150)).2 = true) ∧
    isProbe (.set 0x150 7) = false ∧ (∀ x ∈ [lowWindow], answersOn (x.handle (.set 0x150 7)).2 = true) ∧
    ∀ x ∈ windows, answersOn (x.handle (.set 0x150 7)).2 = true := by decide

/-- The last word of the RAM. -/
theorem test_met_ram_read_back : Memory.blank.wf ∧ (0xFFFC : Word).toNat + 3 < ramSize.toNat := by decide

theorem test_met_request_frame :
    ¬ storesTo (.set32 0x100 5) 0xFF ∧ ¬ storesTo (.set32 0x100 5) 0x104 ∧ storesTo (.set32 0x100 5) 0x103 ∧
    ¬ storesTo (.set 0x100 5) 0x101 ∧ ¬ storesTo (.get32 0x100) 0x100 := by decide

theorem test_met_quiet_reads :
    (busOf shadowed).quiet = true ∧
    ((busOf shadowed).request (.set 0x106 7)).1.shape = (busOf shadowed).shape ∧
    ((busOf shadowed).request (.set 0x106 7)).1.bytesAt 0x105 = (busOf shadowed).bytesAt 0x105 := by decide

/-- The composed word of a window: served whole at 0x100, stopped by its third byte at 0x1FE, whose first two stay. -/
theorem test_met_composed (w0 w1 w2 w3 : Byte) : ∃ m m',
    leafHasGet32 (.window 0x100 0x1FF .blank) = false ∧ leafHasSet32 (.window 0x100 0x1FF .blank) = false ∧
    serves (.leaf (.window 0x100 0x1FF .blank)) (byteGets 0x100) [0, 0, 0, 0] (.leaf (.window 0x100 0x1FF .blank)) ∧
    serves (.leaf (.window 0x100 0x1FF .blank)) [.set 0x100 w0, .set (0x100 + 1) w1, .set (0x100 + 2) w2,
      .set (0x100 + 3) w3] [0, 0, 0, 0] (.leaf (.window 0x100 0x1FF m)) ∧
    serves (.leaf (.window 0x100 0x1FF .blank)) ((byteGets 0x1FE).take 2) [0, 0] (.leaf (.window 0x100 0x1FF .blank)) ∧
    (Device.leaf (.window 0x100 0x1FF .blank)).handle (.get (0x1FE + 2)) =
      (.leaf (.window 0x100 0x1FF .blank), .err .addressTooBig) ∧
    serves (.leaf (.window 0x100 0x1FF .blank)) [.set 0x1FE w0, .set (0x1FE + 1) w1] [0, 0]
      (.leaf (.window 0x100 0x1FF m')) ∧
    (Device.leaf (.window 0x100 0x1FF m')).handle (.set (0x1FE + 2) w2) =
      (.leaf (.window 0x100 0x1FF m'), .err .addressTooBig) :=
  ⟨_, _, rfl, rfl, ⟨_, rfl, _, rfl, _, rfl, _, rfl, rfl⟩, ⟨_, rfl, _, rfl, _, rfl, _, rfl, rfl⟩, ⟨_, rfl, _, rfl, rfl⟩, rfl,
    ⟨_, rfl, _, rfl, rfl⟩, rfl⟩

/-- Two orders of writing. -/
theorem test_met_memory_extensional :
    memoryOf [(0x10, 1), (0x20, 2)] = memoryOf [(0x20, 2), (0x10, 1)] ∧ (memoryOf [(0x10, 1), (0x20, 2)]).wf := by decide

/-- A stack that starts at the RAM's end, and one that fills the RAM down to address 0. -/
theorem test_met_stack_round_trip :
    onRam (ramBus .blank) ramSize .blank ∧ Memory.blank.wf ∧ align4 0x10000 = 0x10000 ∧
    4 * [1, 2, 3].length ≤ (0x10000 : Word).toNat ∧ (0x10000 : Word).toNat ≤ ramSize.toNat ∧
    align4 12 = 12 ∧ 4 * [1, 2, 3].length ≤ (12 : Word).toNat := by decide

/-! ## Witnesses: results

The bus answers depend neither on the parameters nor on the word stored, so one witness serves every clause of its
shape: the mode may be any, the result `r` may be any. -/

/-- Stack `[a, b]` for the results. -/
def pair (a b : Word) : State := vec 0x0B [a, b]

theorem test_met_unary (r : Word) : ∃ b2,
    Answers (pair 7 3).bus (.get32 (align4 0x7FF0)) 7 (pair 7 3).bus ∧
    Answers (pair 7 3).bus (.set32 (align4 0x7FF0) r) 0 b2 := ⟨_, rfl, rfl⟩

theorem test_met_binary (r : Word) : ∃ b3,
    Answers (pair 7 3).bus (.get32 (align4 0x7FF0)) 7 (pair 7 3).bus ∧
    Answers (pair 7 3).bus (.get32 (align4 0x7FF0 + 4)) 3 (pair 7 3).bus ∧
    Answers (pair 7 3).bus (.set32 (align4 0x7FF0 + 4) r) 0 b3 := ⟨_, rfl, rfl, rfl⟩

theorem test_met_modes :
    native State.reset ∧ nativeHalf { State.reset with params := { Config.params with hwHalfword := true } } ∧
    State.reset.params.subOrder = .nosMinusTos ∧ State.reset.params.hwHalfword = false ∧
    State.reset.params.breakAdvancesPc = false := by decide

/-- DIV and MOD with a result: the operands of the rows beside the two faults. -/
theorem test_met_divide :
    (3 : Word) ≠ 0 ∧ ¬ ((7 : Word) = 0x80000000 ∧ (3 : Word) = 0xFFFFFFFF) ∧
    ¬ ((0x80000000 : Word) = 0x80000000 ∧ (1 : Word) = 0xFFFFFFFF) ∧
    ¬ ((7 : Word) = 0x80000000 ∧ (0xFFFFFFFF : Word) = 0xFFFFFFFF) := by decide

/-- DIV and MOD by zero, and the overflow. -/
theorem test_met_divide_fault :
    Answers (pair 7 0).bus (.get32 0x7FF0) 7 (pair 7 0).bus ∧ Answers (pair 7 0).bus (.get32 0x7FF4) 0 (pair 7 0).bus ∧
    Answers (pair 0x80000000 0xFFFFFFFF).bus (.get32 0x7FF0) 0x80000000 (pair 0x80000000 0xFFFFFFFF).bus ∧
    Answers (pair 0x80000000 0xFFFFFFFF).bus (.get32 0x7FF4) 0xFFFFFFFF (pair 0x80000000 0xFFFFFFFF).bus := by decide

/-- A condition of zero, and one that is not. -/
theorem test_met_branch :
    Answers (pair 16 0).bus (.get32 (align4 0x7FF0)) 16 (pair 16 0).bus ∧
    Answers (pair 16 0).bus (.get32 (align4 0x7FF0 + 4)) 0 (pair 16 0).bus ∧
    Answers (pair 16 5).bus (.get32 (align4 0x7FF0 + 4)) 5 (pair 16 5).bus := by decide

/-- The push of PUSHSP, of IM and of every trap. -/
theorem test_met_push (r : Word) : ∃ b, Answers (pair 7 3).bus (.set32 (align4 (0x7FF0 - 4)) r) 0 b := ⟨_, rfl⟩

theorem test_met_emulation_off :
    { pair 7 3 with params := { Config.params with hwEmulation := false } }.params.hwEmulation = false := by decide

/-- LOAD, STORE and STOREB at an address of the RAM. -/
theorem test_met_load_store : ∃ b2 b3 b4,
    Answers (pair 0x1007 9).bus (.get32 (align4 0x7FF0)) 0x1007 (pair 0x1007 9).bus ∧
    Answers (pair 0x1007 9).bus (.get32 (align4 0x1007)) 0 (pair 0x1007 9).bus ∧
    Answers (pair 0x1007 9).bus (.set32 (align4 0x7FF0) 0) 0 b2 ∧
    Answers (pair 0x1007 9).bus (.get32 (align4 0x7FF0 + 4)) 9 (pair 0x1007 9).bus ∧
    Answers (pair 0x1007 9).bus (.set32 (align4 0x1007) 9) 0 b3 ∧
    Answers (pair 0x1007 9).bus (.get 0x1007) 0 (pair 0x1007 9).bus ∧
    Answers (pair 0x1007 9).bus (.set 0x1007 9) 0 b4 := ⟨_, _, _, rfl, rfl, rfl, rfl, rfl, rfl, rfl⟩

/-- LOADH and STOREH. -/
theorem test_met_half : ∃ b4 b5,
    Answers (pair 0x1007 9).bus (.get 0x1007) 0 (pair 0x1007 9).bus ∧
    Answers (pair 0x1007 9).bus (.get (0x1007 + 1)) 0 (pair 0x1007 9).bus ∧
    Answers (pair 0x1007 9).bus (.set 0x1007 0) 0 b4 ∧ Answers b4 (.set (0x1007 + 1) 9) 0 b5 :=
  ⟨_, _, rfl, rfl, rfl, rfl⟩

/-- STORESP, LOADSP and ADDSP, at the largest offset. -/
theorem test_met_stack_relative (r : Word) : ∃ b2 b3 b4,
    Answers (pair 7 3).bus (.get32 (align4 0x7FF0)) 7 (pair 7 3).bus ∧
    Answers (pair 7 3).bus (.set32 (align4 (0x7FF0 + BitVec.ofNat 32 (4 * ((0x0F : BitVec 5) ^^^ 0x10).toNat))) 7) 0 b2 ∧
    Answers (pair 7 3).bus (.get32 (align4 (0x7FF0 + BitVec.ofNat 32 (4 * ((0x0F : BitVec 5) ^^^ 0x10).toNat)))) 0
      (pair 7 3).bus ∧
    Answers (pair 7 3).bus (.set32 (align4 (0x7FF0 - 4)) 0) 0 b3 ∧
    Answers (pair 7 3).bus (.get32 (align4 (0x7FF0 + BitVec.ofNat 32 (4 * (15 : BitVec 4).toNat)))) 0 (pair 7 3).bus ∧
    Answers (pair 7 3).bus (.set32 (align4 0x7FF0) r) 0 b4 := ⟨_, _, _, rfl, rfl, rfl, rfl, rfl, rfl⟩

/-- SWAP's two reads and two writes. -/
theorem test_met_swap : ∃ b3 b4,
    Answers (pair 7 3).bus (.get32 (align4 0x7FF0)) 7 (pair 7 3).bus ∧
    Answers (pair 7 3).bus (.get32 (align4 0x7FF0 + 4)) 3 (pair 7 3).bus ∧
    Answers (pair 7 3).bus (.set32 (align4 0x7FF0 + 4) 7) 0 b3 ∧ Answers b3 (.set32 (align4 0x7FF0) 3) 0 b4 :=
  ⟨_, _, rfl, rfl, rfl, rfl⟩

/-- The bounds of the shift clauses, worked by hand. -/
theorem test_met_shift_values :
    shift 1 31 = 0x80000000 ∧ shift 1 32 = 0 ∧ shift 0x80000000 (-31) = 1 ∧ shift 0x80000000 (-32) = 0 ∧
    ashr 0x80000000 (-31) = 0xFFFFFFFF ∧ ashr 0x80000000 (-32) = 0xFFFFFFFF ∧
    shiftCount .signed32 31 = 31 ∧ shiftCount .mask6 31 = 31 := by decide

/-! ## Witnesses: faults part-way, frames, the host -/

/-- RAM, then F: reads are answered, a write meets the fatal error after the RAM has it. -/
def failingWrites : Bus := .cons (.leaf (.ram ramSize .blank)) (.cons faulty .empty)

/-- The first pop fails at the RAM's end, the second one word below it; LOADSP and the byte reads of LOADB and LOADH
fail there too. -/
theorem test_met_failing_reads :
    Fails (ramBus .blank) (.get32 (align4 0x10000)) ⟨.allDevicesFaulted 1, none, .get32, some 0x10000⟩ (ramBus .blank) ∧
    Answers (ramBus .blank) (.get32 (align4 0xFFFC)) 0 (ramBus .blank) ∧
    Fails (ramBus .blank) (.get32 (align4 0xFFFC + 4)) ⟨.allDevicesFaulted 1, none, .get32, some 0x10000⟩
      (ramBus .blank) ∧
    Fails (ramBus .blank) (.get32 (sprelAddr 0xFFFC (sprelOffset 0x11)))
      ⟨.allDevicesFaulted 1, none, .get32, some 0x10000⟩ (ramBus .blank) := by decide

theorem test_met_failing_loads :
    Fails (pair 0x20003 0).bus (.get32 (align4 0x20003)) ⟨.allDevicesFaulted 1, none, .get32, some 0x20000⟩
      (pair 0x20003 0).bus ∧
    Fails (pair 0x20000 0).bus (.get 0x20000) ⟨.allDevicesFaulted 1, none, .get, some 0x20000⟩ (pair 0x20000 0).bus ∧
    Answers (pair 0xFFFF 0).bus (.get 0xFFFF) 0 (pair 0xFFFF 0).bus ∧
    Fails (pair 0xFFFF 0).bus (.get (0xFFFF + 1)) ⟨.allDevicesFaulted 1, none, .get, some 0x10000⟩
      (pair 0xFFFF 0).bus := by decide

/-- Reads that are answered, then a store that fails: at TOS, at NOS, at the slot a push takes, at the address 0 that
STORE and LOAD pop, at a stack-relative slot. -/
theorem test_met_failing_writes (r : Word) : ∃ b1 b2 b3 b4 b5,
    Answers failingWrites (.get32 (align4 0x7FF0)) 0 failingWrites ∧
    Answers failingWrites (.get32 (align4 0x7FF0 + 4)) 0 failingWrites ∧
    Answers failingWrites (.get32 (align4 0)) 0 failingWrites ∧
    Fails failingWrites (.set32 (align4 0x7FF0) r) ⟨.hardwareFault, some 1, .set32, some 0x7FF0⟩ b1 ∧
    Fails failingWrites (.set32 (align4 0x7FF0 + 4) r) ⟨.hardwareFault, some 1, .set32, some 0x7FF4⟩ b2 ∧
    Fails failingWrites (.set32 (align4 (0x7FF0 - 4)) r) ⟨.hardwareFault, some 1, .set32, some 0x7FEC⟩ b3 ∧
    Fails failingWrites (.set32 (align4 0) 0) ⟨.hardwareFault, some 1, .set32, some 0⟩ b4 ∧
    Fails failingWrites (.set32 (sprelAddr 0x7FF0 (sprelOffset 0x0F)) 0)
      ⟨.hardwareFault, some 1, .set32, some 0x806C⟩ b5 :=
  ⟨_, _, _, _, _, rfl, rfl, rfl, rfl, rfl, rfl, rfl, rfl⟩

/-- Byte reads that are answered, then a push or a byte write that fails: LOADB, STOREB, LOADH, STOREH, and the pushes of
PUSHSPADD, CALLPCREL and ADDSP. -/
theorem test_met_failing_byte_writes (r : Byte) : ∃ b1,
    Answers failingWrites (.get 0) 0 failingWrites ∧ Answers failingWrites (.get (0 + 1)) 0 failingWrites ∧
    Fails failingWrites (.set 0 r) ⟨.hardwareFault, some 1, .set, some 0⟩ b1 := ⟨_, rfl, rfl, rfl⟩

/-- ADDSP 1: its load fails at the RAM's end; with `sp` 0xFFFFFFFC the load is answered at 0 and the pop fails. -/
theorem test_met_failing_addsp :
    Fails (ramBus .blank) (.get32 (sprelAddr 0xFFFC (addspOffset 1))) ⟨.allDevicesFaulted 1, none, .get32, some 0x10000⟩
      (ramBus .blank) ∧
    Answers (ramBus .blank) (.get32 (sprelAddr 0xFFFFFFFC (addspOffset 1))) 0 (ramBus .blank) ∧
    Fails (ramBus .blank) (.get32 (align4 0xFFFFFFFC)) ⟨.allDevicesFaulted 1, none, .get32, some 0xFFFFFFFC⟩
      (ramBus .blank) := by decide

/-- Every frame's instruction gives a next state here. -/
theorem test_met_frames :
    ∀ i ∈ [Instr.nop, .poppc, .popsp, .eqbranch, .neqbranch, .poppcrel, .breakpoint, .illegal 0x01, .pushsp,
      .loadsp 0, .emulate0, .call, .config, .pushpc, .syscall, .halfmult, .emulate31, .load, .not, .flip, .addsp 0],
      isNext (exec i (pair 16 3)) = true := by decide

theorem test_met_frames_native :
    ∀ i ∈ [Instr.neg, .loadb, .pushspadd, .callpcrel, .add, .and, .or, .lessthan, .lessthanorequal, .ulessthan,
      .ulessthanorequal, .mult, .lshiftright, .ashiftleft, .ashiftright, .eq, .neq, .sub, .xor, .im 5, .store,
      .storesp 0, .storeb, .swap, .div, .mod], isNext (exec i (pair 16 3)) = true := by decide

theorem test_met_frames_by_parameter :
    (∀ i ∈ [Instr.loadh, .storeh], isNext (exec i (pair 16 3)) = true ∧
      isNext (exec i { pair 16 3 with params := { Config.params with hwHalfword := true } }) = true) ∧
    isNext (exec (emulateSlot 16) { pair 16 3 with params := { Config.params with hwEmulation := false } }) = true ∧
    isNext (exec (.im 5) { pair 16 3 with prevIm := true }) = true ∧
    isNext (exec .div (pair 16 0)) = true := by decide

theorem test_met_start_and_seed :
    State.reset.state = .stopped ∧ (pair 16 3).state = .running ∧
    { State.reset with state := .sleeping }.state ≠ .stopped ∧ { State.reset with state := .waiting }.state ≠ .running := by
  decide

theorem test_met_launch : [0x81, 0x0B, 0x82, 0x05].length ≤ ramSize.toNat := by decide

end Sys2Proof.Tests
end

section
/-! SUPPORT. What an instruction can do, said once: `Within` are the states it passes through, `Ending` is how it can
end, and `exec_ending` says that every instruction ends so. `step_next_ending` and `step_busFault` say it of the step,
and the statements about 10_state.md are read off these. -/

namespace Sys2Proof.Machine

open Sys2Proof.Config

/-! ## The states an instruction passes through -/

/-- `t` is a state an instruction begun in `s` can pass through: only bus requests and moves of `sp` lie between, and
`sp` moves to an aligned address or by one push (rules R75, R76, R144). -/
inductive Within (s : State) : State → Prop where
  | refl : Within s s
  | request {t : State} (ht : Within s t) (q : Request) : Within s (t.withBus (t.bus.request q).1)
  | alignSp {t : State} (ht : Within s t) (v : Word) : Within s (t.withSp (align4 v))
  | dropSp {t : State} (ht : Within s t) : Within s (t.withSp (t.sp - 4))

/-- A field that is neither `sp` nor the bus has its old value all through the instruction. -/
theorem Within.field_eq {α : Type} {s t : State} (field : State → α) (hbus : ∀ s b, field (s.withBus b) = field s)
    (hsp : ∀ s v, field (s.withSp v) = field s) (h : Within s t) : field t = field s := by
  induction h with
  | refl => rfl
  | request _ q ih => rw [hbus, ih]
  | alignSp _ v ih => rw [hsp, ih]
  | dropSp _ ih => rw [hsp, ih]

theorem Within.pc_eq {s t : State} (h : Within s t) : t.pc = s.pc :=
  h.field_eq State.pc (fun _ _ => rfl) fun _ _ => rfl

theorem Within.state_eq {s t : State} (h : Within s t) : t.state = s.state :=
  h.field_eq State.state (fun _ _ => rfl) fun _ _ => rfl

theorem Within.lastIm_eq {s t : State} (h : Within s t) : t.lastIm = s.lastIm :=
  h.field_eq State.lastIm (fun _ _ => rfl) fun _ _ => rfl

theorem Within.report_eq {s t : State} (h : Within s t) : t.report = s.report :=
  h.field_eq State.report (fun _ _ => rfl) fun _ _ => rfl

theorem align4_sub_four_of_aligned {a : Word} (h : align4 a = a) : align4 (a - 4) = a - 4 := by
  rw [align4_sub_four, h]

/-- The stack pointer is aligned all through the instruction if it was at the start (rule R22). -/
theorem Within.spAligned {s t : State} (h : Within s t) (hs : spAligned s) : spAligned t := by
  induction h with
  | refl => exact hs
  | request _ q ih => exact ih
  | alignSp _ v _ => exact align4_align4 v
  | dropSp _ ih => exact align4_sub_four_of_aligned ih

/-! ## How an instruction ends -/

/-- How an instruction begun in `s` stops short of a next state: at a bus access, with what it did before done
(rules R68, R276). -/
inductive StopsAt (s : State) : Fault → Prop where
  | busFault {t : State} {q : Request} {e : BusError} {b : Bus} (ht : Within s t) (hb : Fails t.bus q e b) :
    StopsAt s (.busFault e (t.withBus b))
  | held (op : BusOp) (addr : Option Word) : StopsAt s (.deviceHolds op addr)

/-- How instruction `i` begun in `s` ends. `pc` is written last (D10); only BREAKPOINT sleeps, and only IM sets
`last_im`. -/
inductive Ending (i : Instr) (s : State) : Host.Outcome State Fault Refusal → Prop where
  | goOn {t : State} (ht : Within s t) (v : Word) : Ending i s (.next (t.withPc v))
  | loaded {t : State} (ht : Within s t) {k : BitVec 7} (hi : i = .im k) (v : Word) :
    Ending i s (.next (t.setLastIm.withPc v))
  | sleep {t : State} (ht : Within s t) (hi : i = .breakpoint) (v : Word) :
    Ending i s (.next ((t.withState .sleeping).withPc v))
  | decodeFault {t : State} (ht : Within s t) (op : Byte) :
    Ending i s (.next ((t.withState .stopped).withReport (.decodeFault op)))
  | arithmeticFault {t : State} (ht : Within s t) (cause : ArithCause) :
    Ending i s (.next ((t.withState .stopped).withReport (.arithmeticFault cause)))
  | stop {f : Fault} (hf : StopsAt s f) : Ending i s (.fault f)

/-- A part of the instruction leaves a state within it, or stops it. -/
inductive Access.StaysWithin {α : Type} (s : State) : Access α → Prop where
  | done {t : State} (v : α) (ht : Within s t) : Access.StaysWithin s (.done v t)
  | stop {f : Fault} (hf : StopsAt s f) : Access.StaysWithin s (.stop f)

/-- BREAKPOINT goes to sleep, with `pc` advanced or kept (rule R131). -/
theorem execBreakpoint_eq (s : State) : execBreakpoint s =
    .next ((s.withState .sleeping).withPc (if s.params.breakAdvancesPc then s.pc + 1 else s.pc)) := by
  unfold execBreakpoint
  split <;> rfl

section Endings

variable {s t : State} {i : Instr}

theorem Access.finish_ending {α : Type} {x : Access α} {k : α → State → Host.Outcome State Fault Refusal}
    (hx : x.StaysWithin s) (hk : ∀ v t, Within s t → Ending i s (k v t)) : Ending i s (x.finish k) := by
  cases hx with
  | done v ht => exact hk v _ ht
  | stop hf => exact .stop hf

theorem Access.andThen_within {α β : Type} {x : Access α} {k : α → State → Access β}
    (hx : x.StaysWithin s) (hk : ∀ v t, Within s t → (k v t).StaysWithin s) : (x.andThen k).StaysWithin s := by
  cases hx with
  | done v ht => exact hk v _ ht
  | stop hf => exact .stop hf

theorem busAccess_within (q : Request) (ht : Within s t) : (busAccess q t).StaysWithin s := by
  have hq := ht.request q
  unfold busAccess
  split
  · rename_i he; rw [he] at hq; exact .done _ hq
  · rename_i he; exact .stop (.busFault ht he)
  · exact .stop (.held _ _)

theorem memRead1_within (a : Word) (ht : Within s t) : (memRead1 a t).StaysWithin s :=
  Access.andThen_within (busAccess_within _ ht) fun _ _ ht => .done _ ht

theorem memWrite1_within (a : Word) (v : Byte) (ht : Within s t) : (memWrite1 a v t).StaysWithin s :=
  Access.andThen_within (busAccess_within _ ht) fun _ _ ht => .done _ ht

theorem memRead4_within (a : Word) (ht : Within s t) : (memRead4 a t).StaysWithin s := busAccess_within _ ht

theorem memWrite4_within (a v : Word) (ht : Within s t) : (memWrite4 a v t).StaysWithin s :=
  Access.andThen_within (busAccess_within _ ht) fun _ _ ht => .done _ ht

theorem memRead2_within (a : Word) (ht : Within s t) : (memRead2 a t).StaysWithin s :=
  Access.andThen_within (memRead1_within a ht) fun _ _ ht =>
    Access.andThen_within (memRead1_within _ ht) fun _ _ ht => .done _ ht

theorem memWrite2_within (a : Word) (v : BitVec 16) (ht : Within s t) : (memWrite2 a v t).StaysWithin s :=
  Access.andThen_within (memWrite1_within a _ ht) fun _ _ ht => memWrite1_within _ _ ht

theorem pop_within (ht : Within s t) : (pop t).StaysWithin s :=
  Access.andThen_within (memRead4_within _ ht) fun _ _ ht => .done _ (ht.alignSp _)

theorem push_within (v : Word) (ht : Within s t) : (push v t).StaysWithin s := memWrite4_within _ _ ht.dropSp

theorem nextPc_ending (ht : Within s t) : Ending i s (nextPc t) := .goOn ht _

theorem pushNext_ending (v : Word) (ht : Within s t) : Ending i s (pushNext v t) :=
  Access.finish_ending (push_within v ht) fun _ _ ht => nextPc_ending ht

theorem takeTrap_ending (index : BitVec 5) (ht : Within s t) : Ending i s (takeTrap index t) :=
  Access.finish_ending (push_within _ ht) fun _ _ ht => .goOn ht _

theorem unaryOp_ending (f : Word → Word) (ht : Within s t) : Ending i s (unaryOp f t) :=
  Access.finish_ending (pop_within ht) fun _ _ ht => pushNext_ending _ ht

theorem binaryOp_ending (f : Word → Word → Word) (ht : Within s t) : Ending i s (binaryOp f t) :=
  Access.finish_ending (pop_within ht) fun _ _ ht => unaryOp_ending _ ht

theorem divideOp_ending (f : Word → Word → Word) (ht : Within s t) : Ending i s (divideOp f t) := by
  refine Access.finish_ending (pop_within ht) fun a _ ht => Access.finish_ending (pop_within ht) fun b _ ht => ?_
  split
  · exact .arithmeticFault ht _
  · split
    · exact .arithmeticFault ht _
    · exact pushNext_ending _ ht

theorem branchOp_ending (taken : Word → Bool) (ht : Within s t) : Ending i s (branchOp taken t) := by
  refine Access.finish_ending (pop_within ht) fun a _ ht => Access.finish_ending (pop_within ht) fun b _ ht => ?_
  split
  · exact .goOn ht _
  · exact nextPc_ending ht

theorem emulate_ending {index : BitVec 5} {body : State → Host.Outcome State Fault Refusal} (ht : Within s t)
    (hb : Ending i s (body t)) : Ending i s (emulate index body t) := by
  unfold emulate
  split
  · exact hb
  · exact takeTrap_ending index ht

theorem pushImmediate_ending {k : BitVec 7} (v : Word) (ht : Within s t) :
    Ending (.im k) s (pushImmediate v t) :=
  Access.finish_ending (push_within v ht) fun _ _ ht => .loaded ht rfl _

theorem execBreakpoint_ending (ht : Within s t) : Ending .breakpoint s (execBreakpoint t) :=
  execBreakpoint_eq t ▸ .sleep ht rfl _

theorem execIm_ending (k : BitVec 7) (ht : Within s t) : Ending (.im k) s (execIm k t) := by
  unfold execIm
  split
  · exact Access.finish_ending (pop_within ht) fun _ _ ht => pushImmediate_ending _ ht
  · exact pushImmediate_ending _ ht

/-- Every instruction ends in one of the ways of `Ending`, also from a state within a step already begun. -/
theorem exec_ending (i : Instr) (ht : Within s t) : Ending i s (exec i t) := by
  cases i with
  | breakpoint => exact execBreakpoint_ending ht
  | pushsp => exact pushNext_ending _ ht
  | poppc => exact Access.finish_ending (pop_within ht) fun _ _ ht => .goOn ht _
  | add | and | or => exact binaryOp_ending _ ht
  | not | flip => exact unaryOp_ending _ ht
  | load =>
    exact Access.finish_ending (pop_within ht) fun _ _ ht =>
      Access.finish_ending (memRead4_within _ ht) fun _ _ ht => pushNext_ending _ ht
  | nop => exact nextPc_ending ht
  | store =>
    exact Access.finish_ending (pop_within ht) fun _ _ ht => Access.finish_ending (pop_within ht) fun _ _ ht =>
      Access.finish_ending (memWrite4_within _ _ ht) fun _ _ ht => nextPc_ending ht
  | popsp => exact Access.finish_ending (pop_within ht) fun _ _ ht => nextPc_ending (ht.alignSp _)
  | illegal op => exact .decodeFault ht op
  | im k => exact execIm_ending k ht
  | storesp x =>
    exact Access.finish_ending (pop_within ht) fun _ _ ht =>
      Access.finish_ending (memWrite4_within _ _ ht) fun _ _ ht => nextPc_ending ht
  | loadsp x => exact Access.finish_ending (memRead4_within _ ht) fun _ _ ht => pushNext_ending _ ht
  | addsp n => exact Access.finish_ending (memRead4_within _ ht) fun _ _ ht => unaryOp_ending _ ht
  | emulate0 | call | config | pushpc | syscall | halfmult | emulate31 => exact takeTrap_ending _ ht
  | loadh =>
    exact emulate_ending ht <| Access.finish_ending (pop_within ht) fun _ _ ht =>
      Access.finish_ending (memRead2_within _ ht) fun _ _ ht => pushNext_ending _ ht
  | loadb =>
    exact emulate_ending ht <| Access.finish_ending (pop_within ht) fun _ _ ht =>
      Access.finish_ending (memRead1_within _ ht) fun _ _ ht => pushNext_ending _ ht
  | storeh =>
    exact emulate_ending ht <| Access.finish_ending (pop_within ht) fun _ _ ht =>
      Access.finish_ending (pop_within ht) fun _ _ ht =>
        Access.finish_ending (memWrite2_within _ _ ht) fun _ _ ht => nextPc_ending ht
  | storeb =>
    exact emulate_ending ht <| Access.finish_ending (pop_within ht) fun _ _ ht =>
      Access.finish_ending (pop_within ht) fun _ _ ht =>
        Access.finish_ending (memWrite1_within _ _ ht) fun _ _ ht => nextPc_ending ht
  | swap =>
    exact emulate_ending ht <| Access.finish_ending (pop_within ht) fun _ _ ht =>
      Access.finish_ending (pop_within ht) fun _ _ ht =>
        Access.finish_ending (push_within _ ht) fun _ _ ht => pushNext_ending _ ht
  | poppcrel => exact emulate_ending ht <| Access.finish_ending (pop_within ht) fun _ _ ht => .goOn ht _
  | callpcrel =>
    exact emulate_ending ht <| Access.finish_ending (pop_within ht) fun _ _ ht =>
      Access.finish_ending (push_within _ ht) fun _ _ ht => .goOn ht _
  | neg | pushspadd => exact emulate_ending ht (unaryOp_ending _ ht)
  | div | mod => exact emulate_ending ht (divideOp_ending _ ht)
  | eqbranch | neqbranch => exact emulate_ending ht (branchOp_ending _ ht)
  | lessthan | lessthanorequal | ulessthan | ulessthanorequal | eq | neq | mult | sub | xor | lshiftright | ashiftleft
  | ashiftright => exact emulate_ending ht (binaryOp_ending _ ht)

end Endings

/-! ## How the step ends -/

/-- A part that ends in a fault stopped at its access, or went on to a fault. -/
theorem Access.finish_fault {α : Type} {x : Access α} {k : α → State → Host.Outcome State Fault Refusal} {f : Fault}
    (h : x.finish k = .fault f) : x = .stop f ∨ ∃ v s, x = .done v s ∧ k v s = .fault f := by
  cases x with
  | done v s => exact .inr ⟨v, s, rfl, h⟩
  | stop f' => cases h; exact .inl rfl

/-- The state after the fetch is still within the step (rule R130). -/
theorem Within.fetched {s : State} {w : Word} {b : Bus} (hb : Answers s.bus (.get s.pc) w b) :
    Within s.beginStep (s.beginStep.withBus b) := by
  have h := (Within.refl (s := s.beginStep)).request (.get s.pc)
  rwa [State.beginStep_bus, hb] at h

/-- A step that gives a next state ends as the instruction it decodes ends, counted from the start of the step
(rule R130). -/
theorem step_next_ending {s t : State} (h : step s = .next t) :
    s.state = .running ∧ ∃ w b, Answers s.bus (.get s.pc) w b ∧
      Ending (decodeByte (w.setWidth 8)) s.beginStep (.next t) := by
  obtain ⟨hs, w, b, hb, hx⟩ := step_next h
  exact ⟨hs, w, b, hb, hx ▸ exec_ending _ (.fetched hb)⟩

theorem StopsAt.of_ending {i : Instr} {s : State} {f : Fault} (h : Ending i s (.fault f)) : StopsAt s f := by
  cases h with
  | stop hf => exact hf

/-- A step that ends in a bus fault was Running and stopped at the fetch or at an access of the instruction
(rules R274, R279). -/
theorem step_busFault {s t : State} {e : BusError} (h : step s = .fault (.busFault e t)) :
    s.state = .running ∧ StopsAt s.beginStep (.busFault e t) := by
  unfold step at h
  split at h
  · next hs =>
    refine ⟨hs, ?_⟩
    rcases Access.finish_fault h with hx | ⟨v, u, hx, hk⟩
    · have hf : (fetch s.beginStep).StaysWithin s.beginStep := memRead1_within _ .refl
      rw [hx] at hf
      cases hf with
      | stop hf => exact hf
    · obtain ⟨w, b, hb, rfl, rfl⟩ := memRead1_done hx
      exact .of_ending (hk ▸ exec_ending _ (Within.fetched (s := s) hb))
  · cases h

/-! ## The construction (rules R25, R26) -/

/-- What register writes and bus requests keep, the whole step keeps. -/
theorem step_keeps {P : State → Prop} (hP : Kept P) (s : State) (h : P s.beginStep) : outcomeLeaves P (step s) := by
  unfold step
  split
  · exact Access.finish_leaves (memRead1_leaves hP _ _ h) fun op s h => exec_keeps hP (decodeByte op) s h
  · trivial

theorem outcomeLeaves.of_left {P : State → Prop} {o : Host.Outcome State Fault Refusal} {t : State}
    (h : outcomeLeaves P o) (ho : o = .next t ∨ ∃ e, o = .fault (.busFault e t)) : P t := by
  rcases ho with rfl | ⟨e, rfl⟩
  · exact h
  · exact h

/-- `t` has the construction parameters and the device list of `s`. -/
def sameConstruction (s t : State) : Prop := t.params = s.params ∧ t.bus.shape = s.bus.shape

theorem sameConstruction_kept (s : State) : Kept (sameConstruction s) where
  pc _ _ h := h
  sp _ _ h := h
  im _ h := h
  state _ _ h := h
  report _ _ h := h
  bus t q h := ⟨h.1, (Bus.shape_request t.bus q).trans h.2⟩

/-- Settles O12: the parameters and the shape of the bus are kept by every register write and every bus request. -/
theorem constructionFixed : Obligations.ConstructionFixed := fun s _ ht =>
  (step_keeps (sameConstruction_kept s) s ⟨rfl, rfl⟩).of_left ht

/-! ## The stack pointer (rule R22) -/

theorem Ending.spAligned {i : Instr} {s t : State} (h : Ending i s (.next t)) (hs : spAligned s) : spAligned t := by
  cases h with
  | goOn ht | loaded ht | sleep ht | decodeFault ht | arithmeticFault ht => exact ht.spAligned hs

theorem StopsAt.spAligned {s t : State} {e : BusError} (h : StopsAt s (.busFault e t)) (hs : spAligned s) :
    spAligned t := by
  cases h with
  | busFault ht hb => exact ht.spAligned hs

/-- Settles O15: within an instruction `sp` moves to an aligned address or by one word (D9), and no ending moves it. -/
theorem stepKeepsSpAligned : Obligations.StepKeepsSpAligned := by
  rintro s t hs (h | ⟨e, h⟩)
  · obtain ⟨-, w, b, -, hend⟩ := step_next_ending h
    exact hend.spAligned hs
  · exact (step_busFault h).2.spAligned hs

/-! ## The bus fault (rules R65, R274, R276) -/

/-- Settles O11: a stop leaves a state within the instruction with a new bus, and a bus answers no soft error as
fatal. -/
theorem busFaultPrecise : Obligations.BusFaultPrecise := by
  intro s e t h
  obtain ⟨hs, hstop⟩ := step_busFault h
  cases hstop with
  | busFault ht hb => exact ⟨ht.pc_eq, ht.state_eq.trans hs, ht.lastIm_eq, Bus.handle_fatal _ _ _ _ _ hb⟩

/-! ## The execution state (rules R24, R270) -/

/-- An instruction that gives a next state keeps the execution state and the report, or is BREAKPOINT and sleeps, or
stops with a fault reported. -/
theorem Ending.state_cases {i : Instr} {s t : State} (h : Ending i s (.next t)) :
    t.state = s.state ∧ t.report = s.report ∨
    t.state = .sleeping ∧ t.report = s.report ∧ i = .breakpoint ∨
    t.state = .stopped ∧ ((∃ op, t.report = .decodeFault op) ∨ ∃ c, t.report = .arithmeticFault c) := by
  cases h with
  | goOn ht | loaded ht => exact .inl ⟨ht.state_eq, ht.report_eq⟩
  | sleep ht hi => exact .inr (.inl ⟨rfl, ht.report_eq, hi⟩)
  | decodeFault ht op => exact .inr (.inr ⟨rfl, .inl ⟨op, rfl⟩⟩)
  | arithmeticFault ht c => exact .inr (.inr ⟨rfl, .inr ⟨c, rfl⟩⟩)

/-- BREAKPOINT is decoded from its own byte only (rule R103). -/
theorem eq_encode_of_decodeByte_breakpoint :
    ∀ op : Byte, decodeByte op = .breakpoint → op = encode .breakpoint := by decide

/-- Settles O16, by the cases of the instruction's ending. -/
theorem executionStates : Obligations.ExecutionStates := by
  intro s t h
  obtain ⟨hs, w, b, hw, hend⟩ := step_next_ending h
  refine ⟨hs, ?_⟩
  rcases hend.state_cases with ⟨hst, hr⟩ | ⟨hst, hr, hi⟩ | hstop
  · exact .inl ⟨hst.trans hs, hr⟩
  · exact .inr (.inl ⟨hst, hr, w, b, hw, eq_encode_of_decodeByte_breakpoint _ hi⟩)
  · exact .inr (.inr hstop)

/-! ## The chaining flag (rules R23, R160, R161) -/

/-- Only an immediate load sets `last_im`. -/
theorem Ending.im_of_lastIm {i : Instr} {s t : State} (h : Ending i s (.next t)) (hs : s.lastIm = false)
    (ht : t.lastIm = true) : ∃ k, i = .im k := by
  cases h with
  | loaded _ hi => exact ⟨_, hi⟩
  | goOn hu | sleep hu | decodeFault hu | arithmeticFault hu =>
    cases ht.symm.trans (hu.lastIm_eq.trans hs)

theorem pushImmediate_lastIm {v : Word} {s t : State} (h : pushImmediate v s = .next t) : t.lastIm = true := by
  obtain ⟨_, u, -, hk⟩ := Access.finish_next h
  cases hk
  rfl

/-- An immediate load that gives a next state sets `last_im`, chained or not. -/
theorem execIm_lastIm {k : BitVec 7} {s t : State} (h : execIm k s = .next t) : t.lastIm = true := by
  unfold execIm at h
  split at h
  · obtain ⟨x, u, -, hk⟩ := Access.finish_next h
    exact pushImmediate_lastIm hk
  · exact pushImmediate_lastIm h

/-- A bus gives one answer to a request. -/
theorem Answers.unique {b b₁ b₂ : Bus} {q : Request} {v₁ v₂ : Word} (h₁ : Answers b q v₁ b₁)
    (h₂ : Answers b q v₂ b₂) : b₁ = b₂ ∧ v₁ = v₂ := by
  simpa only [Prod.mk.injEq, BusResult.ok.injEq] using h₁.symm.trans h₂

/-- Settles O17: the step clears `last_im`, only an immediate load sets it, and every immediate load does. -/
theorem lastImExact : Obligations.LastImExact := by
  intro s t w b h hw
  obtain ⟨-, w', b', hw', hx⟩ := step_next h
  obtain ⟨rfl, rfl⟩ := Answers.unique hw hw'
  have hend : Ending (decodeByte (w.setWidth 8)) s.beginStep (.next t) := hx ▸ exec_ending _ (.fetched hw)
  constructor
  · exact hend.im_of_lastIm rfl
  · rintro ⟨k, hk⟩
    rw [hk] at hx
    exact execIm_lastIm hx

/-! ## Reset and the host (rules R31, R28, R302) -/

/-- Settles O14: the state after construction is the literal `State.reset`. -/
theorem resetState : Obligations.ResetState := ⟨by decide, by decide, rfl, rfl, rfl, rfl⟩

theorem start_of_stopped {s : State} (h : s.state = .stopped) : start s = .ok (s.withState .running) := by
  simp only [start, h]

theorem start_refused {s : State} (h : s.state ≠ .stopped) : start s = .error .notStopped := by
  cases hs : s.state with
  | stopped => exact absurd hs h
  | running | sleeping | waiting => simp only [start, hs]

theorem seedPc_of_not_running (v : Word) {s : State} (h : s.state ≠ .running) : seedPc v s = .ok (s.withPc v) := by
  cases hs : s.state with
  | running => exact absurd hs h
  | stopped | sleeping | waiting => simp only [seedPc, hs]

theorem seedSp_of_not_running (v : Word) {s : State} (h : s.state ≠ .running) : seedSp v s = .ok (s.withSp v) := by
  cases hs : s.state with
  | running => exact absurd hs h
  | stopped | sleeping | waiting => simp only [seedSp, hs]

theorem seedPc_of_running (v : Word) {s : State} (h : s.state = .running) : seedPc v s = .error .stillRunning := by
  simp only [seedPc, h]

theorem seedSp_of_running (v : Word) {s : State} (h : s.state = .running) : seedSp v s = .error .stillRunning := by
  simp only [seedSp, h]

/-- Settles O59, by the execution state the host finds (D19, D20). -/
theorem startAndSeed : Obligations.StartAndSeed :=
  ⟨fun _ => start_of_stopped, fun _ => start_refused,
    fun _ v h => ⟨seedPc_of_not_running v h, seedSp_of_not_running v h⟩,
    fun _ v h => ⟨seedPc_of_running v h, seedSp_of_running v h⟩⟩

end Sys2Proof.Machine
end

section
/-! SUPPORT. The pre-step value of `last_im` changes nothing but an immediate load (rule R30): every access and every
shape of opcode commutes with `State.withPrevIm`, so every instruction but IM does. -/

namespace Sys2Proof.Machine

open Sys2Proof.Config

/-- The state with `prev_im` replaced. -/
def State.withPrevIm (s : State) (p : Bool) : State := { s with prevIm := p }

/-- `prev_im` replaced in the state a bus fault leaves. -/
def Fault.withPrevIm (p : Bool) : Fault → Fault
  | .busFault e t => .busFault e (t.withPrevIm p)
  | .notRunning => .notRunning
  | .deviceHolds op a => .deviceHolds op a

/-- `prev_im` replaced in the state an access leaves. -/
def Access.withPrevIm {α : Type} (p : Bool) : Access α → Access α
  | .done v t => .done v (t.withPrevIm p)
  | .stop f => .stop (f.withPrevIm p)

/-- `prev_im` replaced in the state an outcome leaves. -/
def outcomeWithPrevIm (p : Bool) : Host.Outcome State Fault Refusal → Host.Outcome State Fault Refusal :=
  mapOutcome fun t => { t with prevIm := p }

theorem outcomeWithPrevIm_fault (p : Bool) (f : Fault) : outcomeWithPrevIm p (.fault f) = .fault (f.withPrevIm p) := by
  cases f <;> rfl

section Commutes

variable (p : Bool)

/-! ## Composition and accesses -/

/-- A part that commutes with replacing `prev_im`, followed by one that does, commutes with it. -/
theorem Access.finish_withPrevIm {α : Type} {x x' : Access α} {k k' : α → State → Host.Outcome State Fault Refusal}
    (hx : x' = x.withPrevIm p) (hk : ∀ v t, k' v (t.withPrevIm p) = outcomeWithPrevIm p (k v t)) :
    x'.finish k' = outcomeWithPrevIm p (x.finish k) := by
  subst hx
  cases x with
  | done v t => exact hk v t
  | stop f => exact (outcomeWithPrevIm_fault p f).symm

theorem Access.andThen_withPrevIm {α β : Type} {x x' : Access α} {k : α → State → Access β}
    (hx : x' = x.withPrevIm p) (hk : ∀ v t, k v (t.withPrevIm p) = (k v t).withPrevIm p) :
    x'.andThen k = (x.andThen k).withPrevIm p := by
  subst hx
  cases x with
  | done v t => exact hk v t
  | stop f => rfl

theorem busAccess_withPrevIm (q : Request) (s : State) :
    busAccess q (s.withPrevIm p) = (busAccess q s).withPrevIm p := by
  cases h : s.bus.request q with
  | mk b r =>
    have h' : (s.withPrevIm p).bus.request q = (b, r) := h
    cases r <;> simp only [busAccess, h, h'] <;> rfl

theorem memRead1_withPrevIm (a : Word) (s : State) : memRead1 a (s.withPrevIm p) = (memRead1 a s).withPrevIm p :=
  Access.andThen_withPrevIm p (busAccess_withPrevIm p _ s) fun _ _ => rfl

theorem memWrite1_withPrevIm (a : Word) (v : Byte) (s : State) :
    memWrite1 a v (s.withPrevIm p) = (memWrite1 a v s).withPrevIm p :=
  Access.andThen_withPrevIm p (busAccess_withPrevIm p _ s) fun _ _ => rfl

theorem memRead4_withPrevIm (a : Word) (s : State) : memRead4 a (s.withPrevIm p) = (memRead4 a s).withPrevIm p :=
  busAccess_withPrevIm p _ s

theorem memWrite4_withPrevIm (a v : Word) (s : State) :
    memWrite4 a v (s.withPrevIm p) = (memWrite4 a v s).withPrevIm p :=
  Access.andThen_withPrevIm p (busAccess_withPrevIm p _ s) fun _ _ => rfl

theorem memRead2_withPrevIm (a : Word) (s : State) : memRead2 a (s.withPrevIm p) = (memRead2 a s).withPrevIm p :=
  Access.andThen_withPrevIm p (memRead1_withPrevIm p a s) fun _ t =>
    Access.andThen_withPrevIm p (memRead1_withPrevIm p _ t) fun _ _ => rfl

theorem memWrite2_withPrevIm (a : Word) (v : BitVec 16) (s : State) :
    memWrite2 a v (s.withPrevIm p) = (memWrite2 a v s).withPrevIm p :=
  Access.andThen_withPrevIm p (memWrite1_withPrevIm p a _ s) fun _ t => memWrite1_withPrevIm p _ _ t

theorem pop_withPrevIm (s : State) : pop (s.withPrevIm p) = (pop s).withPrevIm p :=
  Access.andThen_withPrevIm p (memRead4_withPrevIm p _ s) fun _ _ => rfl

theorem push_withPrevIm (v : Word) (s : State) : push v (s.withPrevIm p) = (push v s).withPrevIm p :=
  memWrite4_withPrevIm p _ v (s.withSp (s.sp - 4))

/-! ## The shapes of opcodes -/

theorem pop_finish_withPrevIm (s : State) {k k' : Word → State → Host.Outcome State Fault Refusal}
    (hk : ∀ v t, k' v (t.withPrevIm p) = outcomeWithPrevIm p (k v t)) :
    (pop (s.withPrevIm p)).finish k' = outcomeWithPrevIm p ((pop s).finish k) :=
  Access.finish_withPrevIm p (pop_withPrevIm p s) hk

theorem pushNext_withPrevIm (v : Word) (s : State) :
    pushNext v (s.withPrevIm p) = outcomeWithPrevIm p (pushNext v s) :=
  Access.finish_withPrevIm p (push_withPrevIm p v s) fun _ _ => rfl

theorem takeTrap_withPrevIm (index : BitVec 5) (s : State) :
    takeTrap index (s.withPrevIm p) = outcomeWithPrevIm p (takeTrap index s) :=
  Access.finish_withPrevIm p (push_withPrevIm p _ s) fun _ _ => rfl

theorem unaryOp_withPrevIm (f : Word → Word) (s : State) :
    unaryOp f (s.withPrevIm p) = outcomeWithPrevIm p (unaryOp f s) :=
  pop_finish_withPrevIm p s fun _ t => pushNext_withPrevIm p _ t

theorem binaryOp_withPrevIm (f : Word → Word → Word) (s : State) :
    binaryOp f (s.withPrevIm p) = outcomeWithPrevIm p (binaryOp f s) :=
  pop_finish_withPrevIm p s fun _ t => unaryOp_withPrevIm p _ t

theorem divideOp_withPrevIm (f : Word → Word → Word) (s : State) :
    divideOp f (s.withPrevIm p) = outcomeWithPrevIm p (divideOp f s) := by
  refine pop_finish_withPrevIm p s fun a t => pop_finish_withPrevIm p t fun b u => ?_
  split
  · rfl
  · split
    · rfl
    · exact pushNext_withPrevIm p _ u

theorem branchOp_withPrevIm (taken : Word → Bool) (s : State) :
    branchOp taken (s.withPrevIm p) = outcomeWithPrevIm p (branchOp taken s) := by
  refine pop_finish_withPrevIm p s fun a t => pop_finish_withPrevIm p t fun b u => ?_
  split <;> rfl

theorem emulate_withPrevIm {index : BitVec 5} {body body' : State → Host.Outcome State Fault Refusal} (s : State)
    (hb : body' (s.withPrevIm p) = outcomeWithPrevIm p (body s)) :
    emulate index body' (s.withPrevIm p) = outcomeWithPrevIm p (emulate index body s) := by
  rcases emulate_cases index body s with ⟨hn, hi, he⟩ | ⟨hm, he⟩
  · rw [he, emulate_native (s := s.withPrevIm p) hn hi, hb]
  · rw [he, emulate_trap (s := s.withPrevIm p) hm, takeTrap_withPrevIm]

theorem execBreakpoint_withPrevIm (s : State) :
    execBreakpoint (s.withPrevIm p) = outcomeWithPrevIm p (execBreakpoint s) := by
  rw [execBreakpoint_eq, execBreakpoint_eq]
  rfl

/-- Every instruction but an immediate load does the same whatever `prev_im` is. -/
theorem exec_withPrevIm (i : Instr) (s : State) (hi : ∀ k, i ≠ .im k) :
    exec i (s.withPrevIm p) = outcomeWithPrevIm p (exec i s) := by
  cases i with
  | im k => exact absurd rfl (hi k)
  | breakpoint => exact execBreakpoint_withPrevIm p s
  | nop | illegal op => rfl
  | pushsp => exact pushNext_withPrevIm p _ s
  | poppc | popsp => exact pop_finish_withPrevIm p s fun _ _ => rfl
  | add | and | or => exact binaryOp_withPrevIm p _ s
  | not | flip => exact unaryOp_withPrevIm p _ s
  | load =>
    exact pop_finish_withPrevIm p s fun _ t =>
      Access.finish_withPrevIm p (memRead4_withPrevIm p _ t) fun _ u => pushNext_withPrevIm p _ u
  | store =>
    exact pop_finish_withPrevIm p s fun _ t => pop_finish_withPrevIm p t fun _ u =>
      Access.finish_withPrevIm p (memWrite4_withPrevIm p _ _ u) fun _ _ => rfl
  | storesp x =>
    exact pop_finish_withPrevIm p s fun _ t =>
      Access.finish_withPrevIm p (memWrite4_withPrevIm p _ _ t) fun _ _ => rfl
  | loadsp x => exact Access.finish_withPrevIm p (memRead4_withPrevIm p _ s) fun _ t => pushNext_withPrevIm p _ t
  | addsp n => exact Access.finish_withPrevIm p (memRead4_withPrevIm p _ s) fun _ t => unaryOp_withPrevIm p _ t
  | emulate0 | call | config | pushpc | syscall | halfmult | emulate31 => exact takeTrap_withPrevIm p _ s
  | loadh =>
    exact emulate_withPrevIm p s <| pop_finish_withPrevIm p s fun _ t =>
      Access.finish_withPrevIm p (memRead2_withPrevIm p _ t) fun _ u => pushNext_withPrevIm p _ u
  | loadb =>
    exact emulate_withPrevIm p s <| pop_finish_withPrevIm p s fun _ t =>
      Access.finish_withPrevIm p (memRead1_withPrevIm p _ t) fun _ u => pushNext_withPrevIm p _ u
  | storeh =>
    exact emulate_withPrevIm p s <| pop_finish_withPrevIm p s fun _ t => pop_finish_withPrevIm p t fun _ u =>
      Access.finish_withPrevIm p (memWrite2_withPrevIm p _ _ u) fun _ _ => rfl
  | storeb =>
    exact emulate_withPrevIm p s <| pop_finish_withPrevIm p s fun _ t => pop_finish_withPrevIm p t fun _ u =>
      Access.finish_withPrevIm p (memWrite1_withPrevIm p _ _ u) fun _ _ => rfl
  | swap =>
    exact emulate_withPrevIm p s <| pop_finish_withPrevIm p s fun _ t => pop_finish_withPrevIm p t fun _ u =>
      Access.finish_withPrevIm p (push_withPrevIm p _ u) fun _ v => pushNext_withPrevIm p _ v
  | poppcrel => exact emulate_withPrevIm p s <| pop_finish_withPrevIm p s fun _ _ => rfl
  | callpcrel =>
    exact emulate_withPrevIm p s <| pop_finish_withPrevIm p s fun _ t =>
      Access.finish_withPrevIm p (push_withPrevIm p _ t) fun _ _ => rfl
  | neg | pushspadd => exact emulate_withPrevIm p s (unaryOp_withPrevIm p _ s)
  | div | mod => exact emulate_withPrevIm p s (divideOp_withPrevIm p _ s)
  | eqbranch | neqbranch => exact emulate_withPrevIm p s (branchOp_withPrevIm p _ s)
  | lessthan | lessthanorequal | ulessthan | ulessthanorequal | eq | neq | mult | sub | xor | lshiftright | ashiftleft
  | ashiftright => exact emulate_withPrevIm p s (binaryOp_withPrevIm p _ s)

end Commutes

/-- Settles O19: `State.withPrevIm` commutes with every instruction but an immediate load. -/
theorem prevImOnlyImmediate : Obligations.PrevImOnlyImmediate := fun i s p hi => exec_withPrevIm p i s hi

end Sys2Proof.Machine
end

section
/-! SUPPORT. The canonical form along a step (rule R69; assumption log 4), and what it is for: two memories in canonical
form that read alike are the same data. -/

namespace Sys2Proof.Machine

open Sys2Proof.Config

theorem wf_kept : Kept State.wf where
  pc _ _ h := h
  sp _ _ h := h
  im _ h := h
  state _ _ h := h
  report _ _ h := h
  bus t q h := Bus.wf_request t.bus q h

/-- Settles O13: register writes do not touch the bus, and every request keeps its canonical form. -/
theorem stepKeepsWf : Obligations.StepKeepsWf := fun s _ hs ht => (step_keeps wf_kept s hs).of_left ht

/-! ## Extensionality -/

/-- A listed cell of a sorted list is what its address reads. -/
theorem cellsRead_of_mem {cs : List Host.Cell} (hs : cs.Pairwise fun x y => x.1 < y.1) {c : Host.Cell} (hc : c ∈ cs) :
    cellsRead cs c.1 = c.2 := by
  induction cs with
  | nil => cases hc
  | cons d rest ih =>
    obtain ⟨hd, hrest⟩ := List.pairwise_cons.1 hs
    rcases List.mem_cons.1 hc with rfl | hc
    · simp [cellsRead]
    · have hne : c.1 ≠ d.1 := (Nat.ne_of_lt (hd c hc)).symm
      simpa only [cellsRead, hne, if_false] using ih hrest hc

/-- An address that does not read as unwritten is listed with what it reads. -/
theorem mem_of_cellsRead {cs : List Host.Cell} {a : Nat} (h : cellsRead cs a ≠ unwrittenByte) :
    (a, cellsRead cs a) ∈ cs := by
  induction cs with
  | nil => exact absurd rfl h
  | cons d rest ih =>
    obtain ⟨k, v⟩ := d
    by_cases hk : a = k
    · simp [cellsRead, hk]
    · simp only [cellsRead, hk, if_false] at h ⊢
      exact List.mem_cons_of_mem _ (ih h)

/-- The cells of a memory in canonical form are the addresses that do not read as unwritten, with what they read. -/
theorem Memory.mem_cells_iff {m : Memory} (h : m.wf) (c : Host.Cell) :
    c ∈ m.cells ↔ m.read c.1 = c.2 ∧ c.2 ≠ unwrittenByte := by
  constructor
  · exact fun hc => ⟨cellsRead_of_mem h.1 hc, h.2 c hc⟩
  · rintro ⟨hr, hne⟩
    have hmem : (c.1, m.read c.1) ∈ m.cells := mem_of_cellsRead (hr.trans_ne hne)
    rwa [hr] at hmem

/-- Settles O31: the two cell lists have the same members, and both are sorted. -/
theorem memoryExtensional : Obligations.MemoryExtensional := by
  intro m m' h h' hread
  have hmem : ∀ c, c ∈ m.cells ↔ c ∈ m'.cells := fun c => by
    rw [Memory.mem_cells_iff h, Memory.mem_cells_iff h', hread]
  have hnodup : ∀ {cs : List Host.Cell}, (cs.Pairwise fun x y => x.1 < y.1) → cs.Nodup := fun hs =>
    hs.imp fun hlt he => Nat.ne_of_lt hlt (congrArg Prod.fst he)
  have hperm := (List.perm_ext_iff_of_nodup (hnodup h.1) (hnodup h'.1)).2 hmem
  have hcells : m.cells = m'.cells :=
    hperm.eq_of_pairwise (fun _ _ _ _ hab hba => absurd hab (Nat.lt_asymm hba)) h.1 h'.1
  cases m
  cases m'
  exact congrArg Memory.mk hcells

end Sys2Proof.Machine
end

section
/-! SUPPORT. How a bus passes a request from device to device (rules R52 to R66): on a device that lets it go on, on the
first that ends it, and over a list of devices. Probing, broadcasting, the fatal error, nesting are read off these. -/

namespace Sys2Proof.Machine

open Sys2Proof.Config

/-! ## One device -/

/-- The answer lets the bus go on to the next device with the request: a soft answer to a probe (rules R56, R61), a
success or a soft answer to any other (rules R54, R57, R62). -/
def goesOn (q : Request) (a : Answer) : Prop :=
  if isProbe q then answersSoft a = true else answersOn a = true

theorem goesOn_probe {q : Request} (hq : isProbe q = true) {a : Answer} : goesOn q a ↔ answersSoft a = true := by
  simp only [goesOn, hq, if_true]

theorem goesOn_broadcast {q : Request} (hq : isProbe q = false) {a : Answer} : goesOn q a ↔ answersOn a = true := by
  simp only [goesOn, hq, Bool.false_eq_true, if_false]

/-- The bus goes on with the next device, and answers what the rest answers. -/
theorem Bus.handle_cons_goesOn {d : Device} {q : Request} (h : goesOn q (d.handle q).2) (rest : Bus) (k : Nat) :
    (Bus.cons d rest).handle k q = (.cons (d.handle q).1 (rest.handle (k + 1) q).1, (rest.handle (k + 1) q).2) := by
  cases hd : d.handle q with
  | mk d' a =>
    rw [hd] at h
    cases a with
    | ok v =>
      have hq : isProbe q = false := by
        by_contra hq
        simp [goesOn, hq, answersSoft] at h
      simp [Bus.handle, hd, hq]
    | err kind =>
      have hs : isSoft kind = true := by
        unfold goesOn at h
        split at h <;> exact h
      simp [Bus.handle, hd, hs]
    | held => simp [goesOn, answersSoft, answersOn] at h

/-- A probe ends at the device that succeeds (rules R56, R61). -/
theorem Bus.handle_cons_owner {d d' : Device} {q : Request} {v : Word} (hq : isProbe q = true)
    (h : d.handle q = (d', .ok v)) (rest : Bus) (k : Nat) :
    (Bus.cons d rest).handle k q = (.cons d' rest, .ok v) := by
  simp [Bus.handle, h, hq]

/-- Every request ends at the device that answers a fatal kind (rule R53). -/
theorem Bus.handle_cons_fatal {d d' : Device} {q : Request} {kind : ErrKind} (h : d.handle q = (d', .err kind))
    (hk : isFatal kind = true) (rest : Bus) (k : Nat) :
    (Bus.cons d rest).handle k q = (.cons d' rest, .fatal ⟨kind, some k, requestOp q, requestAddr q⟩) := by
  have hs : isSoft kind = false := by simpa [isFatal] using hk
  simp [Bus.handle, h, hs]

/-! ## A list of devices -/

/-- The device as the request leaves it. -/
abbrev served (q : Request) (d : Device) : Device := (d.handle q).1

/-- Past devices that let it go on, a request is what the devices after them make of it, at their positions. -/
theorem busOf_handle_append {pre rest rest' : List Device} {q : Request} {r : BusResult}
    (hpre : ∀ x ∈ pre, goesOn q (x.handle q).2) {k : Nat}
    (h : (busOf rest).handle (k + pre.length) q = (busOf rest', r)) :
    (busOf (pre ++ rest)).handle k q = (busOf (pre.map (served q) ++ rest'), r) := by
  induction pre generalizing k with
  | nil => exact h
  | cons d pre ih =>
    obtain ⟨hd, hpre⟩ := List.forall_mem_cons.1 hpre
    have hrest : (busOf (pre ++ rest)).handle (k + 1) q = (busOf (pre.map (served q) ++ rest'), r) :=
      ih hpre (by rwa [List.length_cons, Nat.add_comm pre.length, ← Nat.add_assoc] at h)
    simp only [List.cons_append, List.map_cons, busOf, Bus.handle_cons_goesOn hd, hrest]

/-- A request every device lets go on reaches every device, and ends as an exhausted bus does. -/
theorem busOf_handle_all {ds : List Device} {q : Request} (h : ∀ x ∈ ds, goesOn q (x.handle q).2) (k : Nat) :
    (busOf ds).handle k q = (busOf (ds.map (served q)), exhausted (k + ds.length) q) := by
  simpa using busOf_handle_append (rest := []) (rest' := []) h (k := k) rfl

theorem exhausted_probe (count : Nat) {q : Request} (hq : isProbe q = true) :
    exhausted count q = .fatal ⟨.allDevicesFaulted count, none, requestOp q, requestAddr q⟩ := by
  simp only [exhausted, hq, if_true]

theorem exhausted_broadcast (count : Nat) {q : Request} (hq : isProbe q = false) : exhausted count q = .ok 0 := by
  simp only [exhausted, hq, Bool.false_eq_true, if_false]

/-! ## The bus operations -/

/-- Settles O22: the bus goes on past the soft answers and ends at the owner. -/
theorem probeFirstOwner : Obligations.ProbeFirstOwner := by
  intro pre rest d d' q v hq hpre hd
  exact busOf_handle_append (fun x hx => (goesOn_probe hq).2 (hpre x hx))
    (rest' := d' :: rest) (Bus.handle_cons_owner hq hd (busOf rest) _)

/-- Settles O23: every device lets the probe go on, and an exhausted probe is AllDevicesFaulted. -/
theorem probeExhausted : Obligations.ProbeExhausted := by
  intro ds q hq hds
  have h := busOf_handle_all (fun x hx => (goesOn_probe hq).2 (hds x hx)) 0
  rwa [exhausted_probe _ hq, Nat.zero_add] at h

/-- Settles O24: every device lets the broadcast go on, and an exhausted broadcast has succeeded. -/
theorem broadcastReachesAll : Obligations.BroadcastReachesAll := by
  intro ds q hq hds
  have h := busOf_handle_all (fun x hx => (goesOn_broadcast hq).2 (hds x hx)) 0
  rwa [exhausted_broadcast _ hq] at h

/-- Settles O25: the bus goes on past the devices before, and ends at the fatal answer with their number as its
position. -/
theorem fatalAborts : Obligations.FatalAborts := by
  intro pre rest d d' q kind hpre hd hk
  refine busOf_handle_append (rest' := d' :: rest) hpre ?_
  rw [Nat.zero_add]
  exact Bus.handle_cons_fatal hd hk (busOf rest) _

/-- Settles O21, by the constructors of the error kinds. -/
theorem softKinds : Obligations.SoftKinds := by
  intro k
  refine ⟨?_, rfl⟩
  cases k <;> simp [isSoft]

/-! ## Nesting (rules R51, R64) -/

/-- A nested bus answers a request by the kind of its result, from position 0 of its own. -/
theorem Device.handle_bus {b b' : Bus} {q : Request} {r : BusResult} (h : b.request q = (b', r)) :
    (Device.bus b).handle q = (.bus b', resultAnswer r) := by
  simp only [Device.handle, show b.handle 0 q = (b', r) from h]

/-- Settles O26: the inner bus's exhaustion is a fatal kind to the outer bus, its successful broadcast is a success. -/
theorem nestedBus : Obligations.NestedBus := by
  refine fun inner rest q => ⟨fun hq hinner => ?_, fun hq hinner hrest => ?_⟩
  · have hd := Device.handle_bus (probeExhausted inner q hq hinner)
    exact Bus.handle_cons_fatal hd rfl (busOf rest) 0
  · have hd := Device.handle_bus (broadcastReachesAll inner q hq hinner)
    have hall : ∀ x ∈ Device.bus (busOf inner) :: rest, answersOn (x.handle q).2 = true :=
      List.forall_mem_cons.2 ⟨by rw [hd]; rfl, hrest⟩
    simpa only [List.map_cons, hd] using broadcastReachesAll _ q hq hall

/-! ## Size (rule R60) -/

theorem toNat_maxWord (a b : Word) : (maxWord a b).toNat = max a.toNat b.toNat := by
  unfold maxWord
  split <;> omega

theorem maxWord_cases (a b : Word) : maxWord a b = a ∨ maxWord a b = b := by
  unfold maxWord
  split
  · exact .inr rfl
  · exact .inl rfl

theorem getSize_le_busOf {ds : List Device} {d : Device} (h : d ∈ ds) :
    d.getSize.toNat ≤ (busOf ds).getSize.toNat := by
  induction ds with
  | nil => cases h
  | cons x ds ih =>
    simp only [busOf, Bus.getSize, toNat_maxWord]
    rcases List.mem_cons.1 h with rfl | h
    · exact Nat.le_max_left _ _
    · exact le_max_of_le_right (ih h)

/-- The size of a bus is 0 or that of one of its devices. -/
theorem busOf_getSize_attained (ds : List Device) :
    (busOf ds).getSize = 0 ∨ ∃ d ∈ ds, (busOf ds).getSize = d.getSize := by
  induction ds with
  | nil => exact .inl rfl
  | cons x ds ih =>
    simp only [busOf, Bus.getSize]
    rcases maxWord_cases x.getSize (busOf ds).getSize with h | h
    · exact .inr ⟨x, List.mem_cons_self, h⟩
    · rw [h]
      exact ih.imp_right fun ⟨d, hd, he⟩ => ⟨d, List.mem_cons_of_mem _ hd, he⟩

/-- Settles O27: every device is below the maximum, and the maximum is attained. -/
theorem sizeIsMaximum : Obligations.SizeIsMaximum := fun ds =>
  ⟨fun _ hd => getSize_le_busOf hd, busOf_getSize_attained ds⟩

end Sys2Proof.Machine
end

section
/-! SUPPORT. Composed word accesses (rule R63) as a chain of byte accesses, the frame of a request, and reads of a bus
without external collaborators (rules R56, R66, R67). -/

namespace Sys2Proof.Machine

open Sys2Proof.Config

/-! ## Composed words (rule R63) -/

/-- Accesses of a leaf one after another with the `?` of rule R63, and `f` of their values as the answer. -/
def leafChain : List Request → (List Word → Word) → Leaf → Leaf × Answer
  | [], f, l => (l, .ok (f []))
  | q :: qs, f, l => leafThen (leafDirect l q) fun l w => leafChain qs (fun ws => f (w :: ws)) l

/-- The big-endian word of four byte answers. -/
def joinBytes : List Word → Word
  | [w0, w1, w2, w3] => w0.setWidth 8 ++ w1.setWidth 8 ++ w2.setWidth 8 ++ w3.setWidth 8
  | _ => 0

theorem composeGet_eq (l : Leaf) (a : Word) : composeGet l a = leafChain (byteGets a) joinBytes l := rfl

theorem composeSet_eq (l : Leaf) (a v : Word) : composeSet l a v = leafChain (byteSets a v) (fun _ => 0) l := rfl

/-- An access to one byte, which a leaf serves with its own accessor. -/
def isByteAccess : Request → Bool
  | .get _ | .set _ _ => true
  | .get32 _ | .set32 _ _ | .delete _ _ | .flush | .init | .tick => false

theorem byteGets_isByteAccess (a : Word) : ∀ q ∈ byteGets a, isByteAccess q = true := by simp [byteGets, isByteAccess]

theorem byteSets_isByteAccess (a v : Word) : ∀ q ∈ byteSets a v, isByteAccess q = true := by
  simp [byteSets, isByteAccess]

theorem handle_leaf_byteAccess (l : Leaf) {q : Request} (hq : isByteAccess q = true) :
    (Device.leaf l).handle q = (.leaf (leafDirect l q).1, (leafDirect l q).2) := by
  cases q with
  | get | set => rfl
  | get32 | set32 | delete | flush | init | tick => cases hq

theorem serves_nil {d d' : Device} {ws : List Word} (h : serves d [] ws d') : ws = [] ∧ d' = d := by
  cases ws with
  | nil => exact ⟨rfl, h⟩
  | cons w ws => exact h.elim

/-- A leaf that serves a byte access and then others answers it with its own accessor, and serves the others from the
leaf that leaves. -/
theorem serves_leaf_cons {l : Leaf} {q : Request} {qs : List Request} {ws : List Word} {d : Device}
    (hq : isByteAccess q = true) (h : serves (.leaf l) (q :: qs) ws d) :
    ∃ l' w ws', ws = w :: ws' ∧ leafDirect l q = (l', .ok w) ∧ serves (.leaf l') qs ws' d := by
  cases ws with
  | nil => exact h.elim
  | cons w ws' =>
    obtain ⟨d1, hd, hs⟩ := h
    rw [handle_leaf_byteAccess l hq, Prod.mk.injEq] at hd
    obtain ⟨rfl, hw⟩ := hd
    exact ⟨_, w, ws', rfl, Prod.ext rfl hw, hs⟩

section Chain

variable {l : Leaf} {qs : List Request} (hqs : ∀ q ∈ qs, isByteAccess q = true)
include hqs

/-- The chain answers from the values of all its accesses. -/
theorem leafChain_of_serves {f : List Word → Word} {ws : List Word} {d : Device} (h : serves (.leaf l) qs ws d) :
    (Device.leaf (leafChain qs f l).1, (leafChain qs f l).2) = (d, .ok (f ws)) := by
  induction qs generalizing l f ws with
  | nil =>
    obtain ⟨rfl, rfl⟩ := serves_nil h
    rfl
  | cons q qs ih =>
    obtain ⟨hq, hqs⟩ := List.forall_mem_cons.1 hqs
    obtain ⟨l', w, ws', rfl, hl, hs⟩ := serves_leaf_cons hq h
    simp only [leafChain, hl, leafThen_ok]
    exact ih hqs hs

/-- The chain stops at the first access that does not succeed, with its answer and what was done before. -/
theorem leafChain_of_stop {f : List Word → Word} {k : Nat} {q : Request} {ws : List Word} {d d' : Device} {x : Answer}
    (hk : qs[k]? = some q) (h : serves (.leaf l) (qs.take k) ws d) (hd : d.handle q = (d', x))
    (hx : ∀ w, x ≠ .ok w) : (Device.leaf (leafChain qs f l).1, (leafChain qs f l).2) = (d', x) := by
  induction qs generalizing l f k ws with
  | nil => cases hk
  | cons q0 qs ih =>
    obtain ⟨hq0, hqs⟩ := List.forall_mem_cons.1 hqs
    cases k with
    | zero =>
      obtain ⟨rfl, rfl⟩ := serves_nil h
      cases hk
      rw [handle_leaf_byteAccess l hq0, Prod.mk.injEq] at hd
      obtain ⟨rfl, rfl⟩ := hd
      have hstop : leafChain (q :: qs) f l = leafDirect l q := leafThen_stop _ _ _ hx
      rw [hstop]
    | succ k =>
      obtain ⟨l', w, ws', rfl, hl, hs⟩ := serves_leaf_cons hq0 h
      simp only [leafChain, hl, leafThen_ok]
      exact ih hqs hk hs

end Chain

/-! ## The reference RAM (rules R69, R77) -/

section OnRam

variable {b : Bus} {size : Word} {m : Memory} {a : Word}

theorem onRam_answers_get (h : onRam b size m) (ha : a.toNat < size.toNat) :
    Answers b (.get a) ((m.read a.toNat).setWidth 32) b := by
  subst h
  exact ram_get size m a ha

theorem onRam_answers_get32 (h : onRam b size m) (ha : a.toNat + 3 < size.toNat) :
    Answers b (.get32 a) (m.readWord a.toNat) b := by
  subst h
  exact ram_get32 size m a ha

/-- A byte write succeeds wherever it goes, and leaves the one RAM (rule R57). -/
theorem onRam_answers_set (h : onRam b size m) (a : Word) (x : Byte) :
    ∃ b' m', Answers b (.set a x) 0 b' ∧ onRam b' size m' := by
  subst h
  rcases Nat.lt_or_ge a.toNat size.toNat with ha | ha
  · exact ⟨_, _, ram_set size m a x ha, rfl⟩
  · exact ⟨_, _, ram_set_outside size m a x ha, rfl⟩

/-- A word write succeeds wherever it goes, and leaves the one RAM (rules R57, R62). -/
theorem onRam_answers_set32 (h : onRam b size m) (a v : Word) :
    ∃ b' m', Answers b (.set32 a v) 0 b' ∧ onRam b' size m' := by
  subst h
  rcases Nat.lt_or_ge (a.toNat + 3) size.toNat with ha | ha
  · exact ⟨_, _, ram_set32 size m a v ha, rfl⟩
  · exact ⟨_, _, ram_set32_outside size m a v ha, rfl⟩

end OnRam

theorem setWidth_wordByte_zero (v : Word) : (wordByte v 0).setWidth 32 = v >>> 24 := by
  apply BitVec.eq_of_toNat_eq
  have := v.isLt
  simp [wordByte, Nat.shiftRight_eq_div_pow]
  omega

/-- A byte zero-extended is the word's low 8 bits. -/
theorem setWidth_byte (w : Word) : (w.setWidth 8).setWidth 32 = w &&& 0xFF := by
  apply BitVec.eq_of_toNat_eq
  have hmask : w.toNat &&& 255 = w.toNat % 256 := Nat.and_two_pow_sub_one_eq_mod _ 8
  have hlt : w.toNat % 256 < 4294967296 := by omega
  simp [hmask, Nat.mod_eq_of_lt hlt]

/-- A byte of the RAM inside a word just written reads as that byte of the word. -/
theorem ram_get_writeWord {size : Word} {m : Memory} {a v : Word} (hm : m.wf) (ha : a.toNat + 3 < size.toNat) {k : Nat}
    (hk : k < 4) :
    Answers (.cons (.leaf (.ram size (m.writeWord a.toNat v))) .empty) (.get (a + BitVec.ofNat 32 k))
      ((wordByte v k).setWidth 32) (.cons (.leaf (.ram size (m.writeWord a.toNat v))) .empty) := by
  have hak := toNat_add_small a k (by have := size.isLt; omega)
  rw [Answers, ram_get size _ _ (by omega), hak, Memory.read_writeWord_same m _ k v hm hk]

/-- Settles O28: the RAM's own word accessors, and the composed ones as chains of byte accesses. -/
theorem ramReadBack : Obligations.RamReadBack := by
  refine ⟨fun size m a v hm ha => ?_, fun l a w0 w1 w2 w3 d hl hs => ?_, fun l a v w0 w1 w2 w3 d hl hs => ?_,
    fun l a k q ws d d' x hl hk hs hd hx => ?_, fun l a v k q ws d d' x hl hk hs hd hx => ?_⟩
  · have hbyte := fun k hk => ram_get_writeWord (v := v) hm ha (k := k) hk
    refine ⟨_, ram_set32 size m a v ha, ?_, ?_, ?_, ?_, ?_⟩
    · rw [Answers, ram_get32 size _ a ha, Memory.readWord_writeWord m _ v hm]
    · simpa only [setWidth_wordByte_zero, BitVec.add_zero] using hbyte 0 (by omega)
    · exact setWidth_byte (v >>> 16) ▸ hbyte 1 (by omega)
    · exact setWidth_byte (v >>> 8) ▸ hbyte 2 (by omega)
    · exact setWidth_byte v ▸ hbyte 3 (by omega)
  · rw [handle_get32_composed l a hl, composeGet_eq]
    exact leafChain_of_serves (byteGets_isByteAccess a) hs
  · rw [handle_set32_composed l a v hl, composeSet_eq]
    exact leafChain_of_serves (byteSets_isByteAccess a v) hs
  · rw [handle_get32_composed l a hl, composeGet_eq]
    exact leafChain_of_stop (byteGets_isByteAccess a) hk hs hd hx
  · rw [handle_set32_composed l a v hl, composeSet_eq]
    exact leafChain_of_stop (byteSets_isByteAccess a v) hk hs hd hx

/-! ## The frame of a request (rules R26, R57) -/

/-- Settles O29, by what a request leaves of every leaf. -/
theorem requestFrame : Obligations.RequestFrame := fun b q =>
  ⟨Bus.shape_request b q, fun x hx => Bus.bytesAt_request b q x hx⟩

/-! ## Reads without collaborators (rules R56, R66, R67) -/

mutual

theorem Device.leaves_shape : ∀ d : Device, d.shape.leaves = d.leaves.map leafBlank
  | .leaf _ => rfl
  | .bus b => Bus.leaves_shape b

/-- The leaves of a bus without its contents are its leaves without theirs. -/
theorem Bus.leaves_shape : ∀ b : Bus, b.shape.leaves = b.leaves.map leafBlank
  | .empty => rfl
  | .cons d rest => by
    simp only [Bus.shape, Bus.leaves, List.map_append, Device.leaves_shape d, Bus.leaves_shape rest]

end

theorem Device.length_leaves_of_shape {d d' : Device} (h : d'.shape = d.shape) :
    d'.leaves.length = d.leaves.length := by
  simpa only [Device.leaves_shape, List.length_map] using congrArg (fun x => x.leaves.length) h

/-- A leaf that is no collaborator answers a byte it stores. -/
theorem leafServe_get_of_owned {l : Leaf} {a : Word} {v : Byte} (hl : leafQuiet l = true)
    (h : leafByte a l = some v) : (leafServe l (.get a)).2 = .ok (v.setWidth 32) := by
  obtain ⟨hown, rfl⟩ : leafOwns l a.toNat = true ∧ (leafMemory l).read a.toNat = v := by simpa [leafByte] using h
  cases l with
  | ram size m | rom size m =>
    have ha : a.toNat < size.toNat := of_decide_eq_true hown
    simp [leafServe, leafDirect, ramServe, romServe, leafMemory, ha]
  | window lo hi m =>
    have ha : lo.toNat ≤ a.toNat ∧ a.toNat ≤ hi.toNat := of_decide_eq_true hown
    simp [leafServe, leafDirect, windowServe, leafMemory, Nat.not_lt.2 ha.1, Nat.not_lt.2 ha.2]
  | failing kind => cases hown
  | collaborator => cases hl

/-- Where it stores no byte, it answers by its construction alone. -/
theorem leafServe_get_of_unowned {l : Leaf} {a : Word} (hl : leafQuiet l = true) (h : leafByte a l = none) :
    (leafServe l (.get a)).2 = (leafServe (leafBlank l) (.get a)).2 := by
  have hown : ¬ leafOwns l a.toNat = true := by simpa [leafByte] using h
  cases l with
  | ram size m | rom size m =>
    have ha : ¬ a.toNat < size.toNat := fun ha => hown (decide_eq_true ha)
    simp [leafServe, leafDirect, ramServe, romServe, leafBlank, ha]
  | window lo hi m =>
    have ha : a.toNat < lo.toNat ∨ hi.toNat < a.toNat := by
      by_contra hn
      exact hown (decide_eq_true (by omega))
    by_cases hlo : a.toNat < lo.toNat
    · simp [leafServe, leafDirect, windowServe, leafBlank, hlo]
    · simp [leafServe, leafDirect, windowServe, leafBlank, hlo, ha.resolve_left hlo]
  | failing kind => rfl
  | collaborator => cases hl

theorem leafQuiet_of_blank {l l' : Leaf} (h : leafBlank l' = leafBlank l) : leafQuiet l' = leafQuiet l := by
  have hblank : ∀ x, leafQuiet (leafBlank x) = leafQuiet x := fun x => by cases x <;> rfl
  rw [← hblank l', h, hblank]

/-- The construction of a leaf that is no collaborator and the byte it stores for an address decide its answer there. -/
theorem leafServe_get_answer {l l' : Leaf} {a : Word} (hl : leafQuiet l = true) (hblank : leafBlank l' = leafBlank l)
    (hbyte : leafByte a l' = leafByte a l) : (leafServe l' (.get a)).2 = (leafServe l (.get a)).2 := by
  have hl' : leafQuiet l' = true := (leafQuiet_of_blank hblank).trans hl
  cases h : leafByte a l with
  | some v => rw [leafServe_get_of_owned hl h, leafServe_get_of_owned hl' (hbyte.trans h)]
  | none => rw [leafServe_get_of_unowned hl h, leafServe_get_of_unowned hl' (hbyte.trans h), hblank]

/-- What a bus makes of the devices from position `k` on depends on the first one's answer and the rest's result. -/
theorem Bus.handle_cons_congr {d d' : Device} {rest rest' : Bus} {k : Nat} {q : Request}
    (hd : (d'.handle q).2 = (d.handle q).2) (hrest : (rest'.handle (k + 1) q).2 = (rest.handle (k + 1) q).2) :
    ((Bus.cons d' rest').handle k q).2 = ((Bus.cons d rest).handle k q).2 := by
  obtain ⟨x, y, h⟩ : ∃ x y, d.handle q = (x, y) := ⟨_, _, rfl⟩
  obtain ⟨x', y', h'⟩ : ∃ x y, d'.handle q = (x, y) := ⟨_, _, rfl⟩
  obtain rfl : y' = y := by rwa [h, h'] at hd
  cases y' with
  | ok v => by_cases hq : isProbe q = true <;> simp [Bus.handle, h, h', hq, hrest]
  | err kind => by_cases hs : isSoft kind = true <;> simp [Bus.handle, h, h', hs, hrest]
  | held => simp [Bus.handle, h, h']

mutual

theorem Device.get_answer (a : Word) : ∀ d d' : Device, d.leaves.all leafQuiet = true → d'.shape = d.shape →
    d'.leaves.map (leafByte a) = d.leaves.map (leafByte a) → (d'.handle (.get a)).2 = (d.handle (.get a)).2
  | .leaf l, .leaf l', hquiet, hshape, hbytes => by
    simp only [Device.leaves, List.all_cons, List.all_nil, Bool.and_true] at hquiet
    exact leafServe_get_answer hquiet (Device.leaf.inj hshape) (List.cons.inj hbytes).1
  | .bus b, .bus b', hquiet, hshape, hbytes => by
    have h := Bus.get_answer a b b' 0 hquiet (Device.bus.inj hshape) hbytes
    simp only [Device.handle, h]
  | .leaf _, .bus _, _, hshape, _ => by cases hshape
  | .bus _, .leaf _, _, hshape, _ => by cases hshape

/-- The device list and the bytes stored for an address decide what a bus without collaborators answers there. -/
theorem Bus.get_answer (a : Word) : ∀ (b b' : Bus) (k : Nat), b.leaves.all leafQuiet = true → b'.shape = b.shape →
    b'.leaves.map (leafByte a) = b.leaves.map (leafByte a) →
    (b'.handle k (.get a)).2 = (b.handle k (.get a)).2
  | .empty, .empty, _, _, _, _ => rfl
  | .cons d rest, .cons d' rest', k, hquiet, hshape, hbytes => by
    simp only [Bus.leaves, List.all_append, Bool.and_eq_true] at hquiet
    obtain ⟨hd, hrest⟩ := Bus.cons.inj hshape
    simp only [Bus.leaves, List.map_append] at hbytes
    obtain ⟨hbd, hbrest⟩ := List.append_inj hbytes (by simpa using Device.length_leaves_of_shape hd)
    exact Bus.handle_cons_congr (Device.get_answer a d d' hquiet.1 hd hbd)
      (Bus.get_answer a rest rest' (k + 1) hquiet.2 hrest hbrest)
  | .empty, .cons _ _, _, _, hshape, _ => by cases hshape
  | .cons _ _, .empty, _, _, hshape, _ => by cases hshape

end

/-- Settles O30: a read leaves a quiet bus as it is, and its answer is decided by shape and bytes. -/
theorem quietReads : Obligations.QuietReads := fun b b' a hquiet hshape hbytes =>
  ⟨Bus.request_quiet b (.get a) rfl hquiet, Bus.request_quiet b (.get32 a) rfl hquiet,
    Bus.get_answer a b b' 0 hquiet hshape hbytes⟩

end Sys2Proof.Machine
end

section
/-! SUPPORT. The stack on the reference RAM (rules R75, R76, R69): what a push and a pop do to the words on it, and the
round trip of many. -/

namespace Sys2Proof.Machine

open Sys2Proof.Config

/-! ## Words on the stack -/

/-- The words `ws` lie one after another from address `a` up, so that `ws` is a stack with its top at `a`. -/
def stackHolds (m : Memory) : Nat → List Word → Prop
  | _, [] => True
  | a, w :: ws => m.readWord a = w ∧ stackHolds m (a + 4) ws

theorem Memory.readWord_writeWord_above (m : Memory) {a x : Nat} (v : Word) (h : a + 4 ≤ x) :
    (m.writeWord a v).readWord x = m.readWord x := by
  have hread : ∀ y, x ≤ y → (m.writeWord a v).read y = m.read y := fun y hy =>
    Memory.read_writeWord_other m a y v (.inr (by omega))
  simp only [Memory.readWord, hread x (by omega), hread (x + 1) (by omega), hread (x + 2) (by omega),
    hread (x + 3) (by omega)]

/-- A word stored below a stack changes nothing on it. -/
theorem stackHolds_writeWord_below {m : Memory} {a b : Nat} (v : Word) (hab : a + 4 ≤ b) {ws : List Word}
    (h : stackHolds m b ws) : stackHolds (m.writeWord a v) b ws := by
  induction ws generalizing b with
  | nil => trivial
  | cons w ws ih => exact ⟨(Memory.readWord_writeWord_above m v hab).trans h.1, ih (by omega) h.2⟩

/-- The one RAM holds the stack `ws`, top first, at the aligned `sp`, and nothing of it lies outside. -/
structure RamStack (size : Word) (ws : List Word) (s : State) : Prop where
  ram : ∃ m, onRam s.bus size m ∧ m.wf ∧ stackHolds m s.sp.toNat ws
  aligned : spAligned s
  fits : s.sp.toNat + 4 * ws.length ≤ size.toNat

/-- A push onto the RAM's stack succeeds and puts the word on top (rule R75). -/
theorem RamStack.push_done {size : Word} {ws : List Word} {s : State} (h : RamStack size ws s) (hs : 4 ≤ s.sp.toNat)
    (v : Word) : ∃ t, push v s = .done () t ∧ RamStack size (v :: ws) t ∧ t.sp.toNat + 4 = s.sp.toNat := by
  obtain ⟨⟨m, hbus, hm, hws⟩, hal, hfits⟩ := h
  have hsub : (s.sp - 4).toNat + 4 = s.sp.toNat := by
    have := s.sp.isLt
    rw [BitVec.toNat_sub, toNat_four]
    omega
  have hal' : align4 (s.sp - 4) = s.sp - 4 := align4_sub_four_of_aligned hal
  have hans : Answers s.bus (.set32 (align4 (s.sp - 4)) v) 0
      (.cons (.leaf (.ram size (m.writeWord (s.sp - 4).toNat v))) .empty) := by
    rw [show s.bus = _ from hbus, hal']
    exact ram_set32 size m _ v (by omega)
  refine ⟨_, push_of_answers hans, ⟨⟨_, rfl, Memory.writeWord_wf m _ v hm, ?_, ?_⟩, hal', ?_⟩, hsub⟩
  · exact Memory.readWord_writeWord m _ v hm
  · exact stackHolds_writeWord_below v le_rfl (hsub.symm ▸ hws)
  · simp only [State.withBus_sp, State.withSp_sp, List.length_cons]
    omega

/-- A pop from the RAM's stack gives the word on top (rule R76). -/
theorem RamStack.pop_done {size : Word} {v : Word} {ws : List Word} {s : State} (h : RamStack size (v :: ws) s) :
    ∃ t, pop s = .done v t ∧ RamStack size ws t ∧ t.sp.toNat = s.sp.toNat + 4 := by
  obtain ⟨⟨m, hbus, hm, hv, hws⟩, hal, hfits⟩ := h
  rw [List.length_cons] at hfits
  have hadd : (align4 (s.sp + 4)).toNat = s.sp.toNat + 4 := by
    have := size.isLt
    rw [align4_add_four, show align4 s.sp = s.sp from hal, BitVec.toNat_add, toNat_four]
    omega
  have hans : Answers s.bus (.get32 (align4 s.sp)) v s.bus := by
    rw [show align4 s.sp = s.sp from hal, ← hv]
    exact onRam_answers_get32 hbus (by omega)
  refine ⟨_, pop_of_answers hans, ⟨⟨m, hbus, hm, ?_⟩, align4_align4 _, ?_⟩, hadd⟩
  · rwa [State.withSp_sp, hadd]
  · rw [State.withSp_sp, hadd]
    omega

/-! ## Many words -/

/-- Pushing a list leaves its last word on top. -/
theorem RamStack.pushAll_done {size : Word} (vs : List Word) {ws : List Word} {s : State} (h : RamStack size ws s)
    (hs : 4 * vs.length ≤ s.sp.toNat) :
    ∃ t, pushAll vs s = .done () t ∧ RamStack size (vs.reverse ++ ws) t ∧ t.sp.toNat + 4 * vs.length = s.sp.toNat := by
  induction vs generalizing ws s with
  | nil => exact ⟨s, rfl, h, rfl⟩
  | cons v vs ih =>
    rw [List.length_cons] at hs
    obtain ⟨u, hpush, hu, hsp⟩ := h.push_done (by omega) v
    obtain ⟨t, hrest, ht, hsp'⟩ := ih hu (by omega)
    refine ⟨t, ?_, ?_, ?_⟩
    · rw [pushAll, hpush, Access.andThen_done, hrest]
    · rwa [List.reverse_cons, List.append_assoc]
    · rw [List.length_cons]
      omega

/-- Popping as many words as a list has gives the list that lies on top. -/
theorem RamStack.popAll_done {size : Word} (us : List Word) {ws : List Word} {s : State}
    (h : RamStack size (us ++ ws) s) :
    ∃ t, popAll us.length s = .done us t ∧ RamStack size ws t ∧ t.sp.toNat = s.sp.toNat + 4 * us.length := by
  induction us generalizing s with
  | nil => exact ⟨s, rfl, h, rfl⟩
  | cons u us ih =>
    obtain ⟨s', hpop, hs', hsp⟩ := h.pop_done
    obtain ⟨t, hrest, ht, hsp'⟩ := ih hs'
    refine ⟨t, ?_, ht, ?_⟩
    · simp only [List.length_cons, popAll, hpop, hrest, Access.andThen_done]
    · rw [List.length_cons]
      omega

/-- Settles O32: the pushes leave the reversed list on the stack, the pops take it off, and `sp` goes down and up by the
same number of words. -/
theorem stackRoundTrip : Obligations.StackRoundTrip := by
  intro vs s size m hbus hm hal hlow hhigh
  have h : RamStack size [] s := ⟨⟨m, hbus, hm, trivial⟩, hal, hhigh⟩
  obtain ⟨s1, hpush, h1, hsp1⟩ := h.pushAll_done vs hlow
  obtain ⟨s2, hpop, h2, hsp2⟩ := h1.popAll_done vs.reverse
  obtain ⟨m2, hbus2, -⟩ := h2.ram
  rw [List.length_reverse] at hpop hsp2
  exact ⟨s1, s2, m2, hpush, hpop, BitVec.eq_of_toNat_eq (by omega), hbus2⟩

end Sys2Proof.Machine
end

section
/-! SUPPORT. Running an instruction access by access: what a part of the step goes on to when the bus answers it, and
where it stops when the bus fails, with the state written out; then the result and the bus faults of each shape of
opcode, in the terms of `Claims`. -/

namespace Sys2Proof.Machine

open Sys2Proof.Config Sys2Proof.Claims

/-! ## Part by part -/

section Parts

variable {s : State} {a v w w0 w1 : Word} {x : Byte} {y : BitVec 16} {e : BusError} {b b1 b2 : Bus}

theorem pop_finish_of_answers {k : Word → State → Host.Outcome State Fault Refusal}
    (h : Answers s.bus (.get32 (align4 s.sp)) v b) :
    (pop s).finish k = k v { s with sp := align4 s.sp + 4, bus := b } := by
  rw [pop_of_answers h, Access.finish_done, align4_add_four]
  rfl

theorem memRead4_finish_of_answers {k : Word → State → Host.Outcome State Fault Refusal}
    (h : Answers s.bus (.get32 a) v b) : (memRead4 a s).finish k = k v { s with bus := b } := by
  rw [memRead4_of_answers h]
  rfl

theorem memRead4_finish_of_fails {k : Word → State → Host.Outcome State Fault Refusal}
    (h : Fails s.bus (.get32 a) e b) : (memRead4 a s).finish k = .fault (.busFault e { s with bus := b }) := by
  rw [memRead4_of_fails h]
  rfl

theorem memRead1_finish_of_answers {k : Byte → State → Host.Outcome State Fault Refusal}
    (h : Answers s.bus (.get a) v b) : (memRead1 a s).finish k = k (v.setWidth 8) { s with bus := b } := by
  rw [memRead1_of_answers h]
  rfl

theorem memRead1_finish_of_fails {k : Byte → State → Host.Outcome State Fault Refusal}
    (h : Fails s.bus (.get a) e b) : (memRead1 a s).finish k = .fault (.busFault e { s with bus := b }) := by
  rw [memRead1_of_fails h]
  rfl

theorem memRead2_finish_of_answers {k : BitVec 16 → State → Host.Outcome State Fault Refusal}
    (h0 : Answers s.bus (.get a) w0 b1) (h1 : Answers b1 (.get (a + 1)) w1 b2) :
    (memRead2 a s).finish k = k (w0.setWidth 8 ++ w1.setWidth 8) { s with bus := b2 } := by
  rw [memRead2, memRead1_of_answers h0, Access.andThen_done, memRead1_of_answers (s := s.withBus b1) h1]
  rfl

/-- The first byte of a half read fails. -/
theorem memRead2_finish_of_fails {k : BitVec 16 → State → Host.Outcome State Fault Refusal}
    (h : Fails s.bus (.get a) e b) : (memRead2 a s).finish k = .fault (.busFault e { s with bus := b }) := by
  rw [memRead2, memRead1_of_fails h]
  rfl

/-- The second byte of a half read fails. -/
theorem memRead2_finish_of_answers_fails {k : BitVec 16 → State → Host.Outcome State Fault Refusal}
    (h0 : Answers s.bus (.get a) w0 b1) (h1 : Fails b1 (.get (a + 1)) e b2) :
    (memRead2 a s).finish k = .fault (.busFault e { s with bus := b2 }) := by
  rw [memRead2, memRead1_of_answers h0, Access.andThen_done, memRead1_of_fails (s := s.withBus b1) h1]
  rfl

theorem memWrite4_finish_of_answers {k : Unit → State → Host.Outcome State Fault Refusal}
    (h : Answers s.bus (.set32 a v) w b) : (memWrite4 a v s).finish k = k () { s with bus := b } := by
  rw [memWrite4_of_answers h]
  rfl

theorem memWrite4_finish_of_fails {k : Unit → State → Host.Outcome State Fault Refusal}
    (h : Fails s.bus (.set32 a v) e b) : (memWrite4 a v s).finish k = .fault (.busFault e { s with bus := b }) := by
  rw [memWrite4_of_fails h]
  rfl

theorem memWrite1_finish_of_answers {k : Unit → State → Host.Outcome State Fault Refusal}
    (h : Answers s.bus (.set a x) w b) : (memWrite1 a x s).finish k = k () { s with bus := b } := by
  rw [memWrite1_of_answers h]
  rfl

theorem memWrite1_finish_of_fails {k : Unit → State → Host.Outcome State Fault Refusal}
    (h : Fails s.bus (.set a x) e b) : (memWrite1 a x s).finish k = .fault (.busFault e { s with bus := b }) := by
  rw [memWrite1_of_fails h]
  rfl

theorem memWrite2_finish_of_answers {k : Unit → State → Host.Outcome State Fault Refusal}
    (h0 : Answers s.bus (.set a (y.extractLsb' 8 8)) w0 b1) (h1 : Answers b1 (.set (a + 1) (y.extractLsb' 0 8)) w1 b2) :
    (memWrite2 a y s).finish k = k () { s with bus := b2 } := by
  rw [memWrite2, memWrite1_of_answers h0, Access.andThen_done, memWrite1_of_answers (s := s.withBus b1) h1]
  rfl

/-- The first byte of a half write fails. -/
theorem memWrite2_finish_of_fails {k : Unit → State → Host.Outcome State Fault Refusal}
    (h : Fails s.bus (.set a (y.extractLsb' 8 8)) e b) :
    (memWrite2 a y s).finish k = .fault (.busFault e { s with bus := b }) := by
  rw [memWrite2, memWrite1_of_fails h]
  rfl

theorem push_finish_of_answers {k : Unit → State → Host.Outcome State Fault Refusal}
    (h : Answers s.bus (.set32 (align4 (s.sp - 4)) v) w b) :
    (push v s).finish k = k () { s with sp := s.sp - 4, bus := b } := by
  rw [push_of_answers h]
  rfl

theorem push_finish_of_fails {k : Unit → State → Host.Outcome State Fault Refusal}
    (h : Fails s.bus (.set32 (align4 (s.sp - 4)) v) e b) :
    (push v s).finish k = .fault (.busFault e { s with sp := s.sp - 4, bus := b }) := by
  rw [push_of_fails h]
  rfl

/-! A push after a pop goes back to the aligned slot `p` popped last: one word above it stands `sp`. -/

theorem push_slot_finish_of_answers {k : Unit → State → Host.Outcome State Fault Refusal} {p : Word}
    (hs : s.sp - 4 = p) (hp : align4 p = p) (h : Answers s.bus (.set32 p v) w b) :
    (push v s).finish k = k () { s with sp := p, bus := b } := by
  subst hs
  exact push_finish_of_answers (hp.symm ▸ h)

theorem push_slot_finish_of_fails {k : Unit → State → Host.Outcome State Fault Refusal} {p : Word}
    (hs : s.sp - 4 = p) (hp : align4 p = p) (h : Fails s.bus (.set32 p v) e b) :
    (push v s).finish k = .fault (.busFault e { s with sp := p, bus := b }) := by
  subst hs
  exact push_finish_of_fails (hp.symm ▸ h)

theorem pushNext_slot_of_answers {p : Word} (hs : s.sp - 4 = p) (hp : align4 p = p)
    (h : Answers s.bus (.set32 p v) w b) :
    pushNext v s = .next { s with pc := s.pc + 1, sp := p, bus := b } := push_slot_finish_of_answers hs hp h

theorem pushNext_slot_of_fails {p : Word} (hs : s.sp - 4 = p) (hp : align4 p = p)
    (h : Fails s.bus (.set32 p v) e b) :
    pushNext v s = .fault (.busFault e { s with sp := p, bus := b }) := push_slot_finish_of_fails hs hp h

end Parts

/-- A native slot runs its body where HW_EMULATION is on (rules R181, R182, R185). -/
theorem emulate_of_native {index : BitVec 5} {body : State → Host.Outcome State Fault Refusal} {s : State}
    (hi : nativeSlots.contains index.toNat = true) (hs : native s) : emulate index body s = body s :=
  emulate_native hs (implemented_native _ _ hi)

/-- The half-word slots run their bodies where both parameters are on (rules R181, R244, R245). -/
theorem emulate_of_nativeHalf {index : BitVec 5} {body : State → Host.Outcome State Fault Refusal} {s : State}
    (hi : index = 1 ∨ index = 2) (hs : nativeHalf s) : emulate index body s = body s := by
  refine emulate_native hs.1 ?_
  rcases hi with rfl | rfl <;> simp [implemented, hs.2]

/-! ## Shape by shape -/

section Shapes

variable {mode : State → Prop} {i : Instr}

theorem firstPopFault_of (h : ∀ s, mode s → ∃ k, exec i s = (pop s).finish k) : firstPopFault mode i := by
  intro s e b1 hs hf
  obtain ⟨k, hk⟩ := h s hs
  rw [hk, pop_finish_of_fails hf]

theorem secondPopFault_of
    (h : ∀ s, mode s → ∃ k : Word → Word → State → Host.Outcome State Fault Refusal,
      exec i s = (pop s).finish fun a s => (pop s).finish fun b s => k a b s) : secondPopFault mode i := by
  intro s a e b1 b2 hs h1 hf
  obtain ⟨k, hk⟩ := h s hs
  rw [hk, pop_pop_of_fails h1 hf]

/-- An opcode that pops a word and pushes a function of it: result and faults. -/
theorem unaryWhole_of {f : State → Word → Word} (h : ∀ s, mode s → exec i s = unaryOp (f s) s) :
    unaryWhole mode i f := by
  refine ⟨fun s a b1 b2 hs h1 h2 => ?_, firstPopFault_of fun s hs => ⟨_, h s hs⟩, fun s a e b1 b2 hs h1 hf => ?_⟩
  · exact (h s hs).trans (unaryOp_of_answers h1 h2)
  · exact (h s hs).trans (.trans (pop_finish_of_answers h1)
      (pushNext_slot_of_fails (add_four_sub_four _) (align4_align4 _) hf))

/-- An opcode that pops two words and pushes a function of them: result and faults. -/
theorem binaryWhole_of {f : State → Word → Word → Word} (h : ∀ s, mode s → exec i s = binaryOp (f s) s) :
    binaryWhole mode i f := by
  refine ⟨fun s a b b1 b2 b3 hs h1 h2 h3 => ?_, firstPopFault_of fun s hs => ⟨_, h s hs⟩,
    secondPopFault_of fun s hs => ⟨_, h s hs⟩, fun s a b e b1 b2 b3 hs h1 h2 hf => ?_⟩
  · exact (h s hs).trans (binaryOp_of_answers h1 h2 h3)
  · exact (h s hs).trans (.trans (pop_pop_of_answers h1 h2 _)
      (pushNext_slot_of_fails (add_eight_sub_four _) (align4_add_four_align4 _) hf))

/-- The trap vector is the slot's index times 32 (rules R106, R183). -/
theorem trapVector_eq (index : BitVec 5) : trapVector index = BitVec.ofNat 32 (index.toNat * 32) := by
  apply BitVec.eq_of_toNat_eq
  have := index.isLt
  simp [trapVector, Nat.shiftLeft_eq]

/-- An opcode that traps: result and fault. -/
theorem trapWhole_of {index : BitVec 5} (h : ∀ s, mode s → exec i s = takeTrap index s) :
    trapWhole mode i index.toNat :=
  ⟨fun s _ hs hb => (h s hs).trans (trapVector_eq index ▸ takeTrap_of_answers hb),
    fun s _ _ hs hb => (h s hs).trans (takeTrap_of_fails hb)⟩

end Shapes

end Sys2Proof.Machine
end

section
/-! SUPPORT. Results and bus faults of the instructions (40_exact_ops.md to 44_extended_memory_control.md), each from
its shape or access by access. -/

namespace Sys2Proof.Machine

open Sys2Proof.Config Sys2Proof.Claims

/-! ## Values -/

theorem truthWord_decide (p : Prop) [Decidable p] : truthWord (decide p) = if p then 1 else 0 := by
  simp only [truthWord, decide_eq_true_eq]

theorem mulWord_eq (a b : Word) : mulWord a b = a * b := rfl

theorem modWord_eq (a b : Word) : modWord a b = BitVec.ofInt 32 (a.toInt.tmod b.toInt) := by
  rw [modWord, Int.tmod_def, Int.mul_comm]

/-- The default FLIP_FN moves bit `31 - k` to bit `k` (rule R140). -/
theorem flipWord_bitReversal_getLsbD (a : Word) {k : Nat} (hk : k < 32) :
    (flipWord .bitReversal a).getLsbD k = a.getLsbD (31 - k) := by
  simp only [flipWord, BitVec.getLsbD_reverse, BitVec.getMsbD, hk, decide_true, Bool.true_and]

/-- The half word of two byte answers, zero-extended (rule R72). -/
theorem halfWord_eq (w0 w1 : Word) :
    (w0.setWidth 8 ++ w1.setWidth 8 : BitVec 16).setWidth 32 = ((w0 &&& 0xFF) <<< 8) ||| (w1 &&& 0xFF) := by
  rw [← setWidth_byte w0, ← setWidth_byte w1]
  apply BitVec.eq_of_getLsbD_eq
  intro i hi
  simp only [BitVec.getLsbD_setWidth, BitVec.getLsbD_append, BitVec.getLsbD_or, BitVec.getLsbD_shiftLeft]
  by_cases hlow : i < 8
  · simp [hi, hlow]
  · simp [hi, hlow, show i - 8 < 32 by omega]

theorem halfHigh_eq (v : Word) : (v.setWidth 16).extractLsb' 8 8 = (v >>> 8).setWidth 8 := by
  apply BitVec.eq_of_getLsbD_eq
  intro i hi
  simp [hi, show 8 + i < 16 by omega]

theorem halfLow_eq (v : Word) : (v.setWidth 16).extractLsb' 0 8 = v.setWidth 8 := by
  apply BitVec.eq_of_getLsbD_eq
  intro i hi
  simp [hi, show i < 16 by omega]
/-! ## One or two operands -/

/-- Settles O35: the three two-operand forms and NOT by their shapes. -/
theorem bitwiseOps : Obligations.BitwiseOps :=
  ⟨binaryWhole_of fun _ _ => rfl, binaryWhole_of fun _ _ => rfl, unaryWhole_of fun _ _ => rfl,
    binaryWhole_of fun _ hs => emulate_of_native (by decide) hs⟩

/-- Settles O36: ADD and FLIP by their shapes, and the default FLIP_FN bit by bit. -/
theorem addFlip : Obligations.AddFlip :=
  ⟨binaryWhole_of fun _ _ => rfl, unaryWhole_of fun _ _ => rfl, fun a _ hk => flipWord_bitReversal_getLsbD a hk⟩

/-- A native two-operand slot whose body pushes the truth of a relation of its operands (rule R27). -/
theorem comparison_of {i : Instr} {index : BitVec 5} {f : Word → Word → Word} (r : Word → Word → Prop)
    [∀ a b, Decidable (r a b)] (hi : nativeSlots.contains index.toNat = true)
    (hexec : ∀ s, exec i s = emulate index (binaryOp f) s) (hf : ∀ a b, f a b = truthWord (decide (r a b))) :
    binaryWhole native i fun _ a b => if r a b then 1 else 0 := by
  refine binaryWhole_of fun s hs => ?_
  rw [hexec, emulate_of_native hi hs]
  exact congrArg (binaryOp · s) (funext₂ fun a b => (hf a b).trans (truthWord_decide _))

/-- Settles O40: each comparison pushes the truth of its relation, TOS on the left. -/
theorem comparisons : Obligations.Comparisons :=
  ⟨comparison_of (fun a b => a.toInt < b.toInt) (index := 3) (by decide) (fun _ => rfl) fun _ _ => rfl,
    comparison_of (fun a b => a.toInt ≤ b.toInt) (index := 4) (by decide) (fun _ => rfl) fun _ _ => rfl,
    comparison_of (fun a b => a.toNat < b.toNat) (index := 5) (by decide) (fun _ => rfl) fun _ _ => rfl,
    comparison_of (fun a b => a.toNat ≤ b.toNat) (index := 6) (by decide) (fun _ => rfl) fun _ _ => rfl,
    comparison_of (fun a b => a = b) (index := 13) (by decide) (fun _ => rfl) fun _ _ => rfl,
    comparison_of (fun a b => a ≠ b) (index := 14) (by decide) (fun _ => rfl) fun _ _ => rfl⟩

theorem execSub_of_native {s : State} (hs : native s) : execSub s = binaryOp (subWord s.params.subOrder) s :=
  emulate_of_native (by decide) hs

/-- Settles O41: MULT and NEG by their shapes, SUB by its shape under each order. -/
theorem nativeArithmetic : Obligations.NativeArithmetic := by
  refine ⟨binaryWhole_of fun s hs => ?_, binaryWhole_of fun s hs => ?_, binaryWhole_of fun s hs => ?_,
    unaryWhole_of fun s hs => ?_⟩
  · refine Eq.trans (emulate_of_native (by decide) hs) ?_
    exact congrArg (binaryOp · s) (funext₂ mulWord_eq)
  · exact (execSub_of_native hs.1).trans (by rw [hs.2]; rfl)
  · exact (execSub_of_native hs.1).trans (by rw [hs.2]; rfl)
  · refine Eq.trans (emulate_of_native (by decide) hs) ?_
    exact congrArg (unaryOp · s) (funext fun a => BitVec.zero_sub a)

/-- Settles O42: the three shifts are two-operand forms; ASHIFTRIGHT stores the word its rule gives, of which no value
is claimed for a negative count. -/
theorem shiftResult : Obligations.ShiftResult := by
  have hright : binaryWhole native .ashiftright fun s a b => ashr b (-shiftCount s.params.shiftCountMode a) :=
    binaryWhole_of fun _ hs => emulate_of_native (by decide) hs
  obtain ⟨hresult, hfirst, hsecond, hpush⟩ := hright
  refine ⟨binaryWhole_of fun _ hs => emulate_of_native (by decide) hs,
    binaryWhole_of fun _ hs => emulate_of_native (by decide) hs, hfirst, hsecond, fun s a b b1 b2 hs h1 h2 => ?_⟩
  exact ⟨_, fun _ => rfl, fun b3 h3 => hresult s a b b1 b2 b3 hs h1 h2 h3,
    fun e b3 h3 => hpush s a b e b1 b2 b3 hs h1 h2 h3⟩

/-! ## Division and branches -/

/-- Off its two faults a division is a two-operand form (rule R220). -/
theorem divideOp_of_no_fault {f : Word → Word → Word} {s : State} {a b : Word} {b1 b2 : Bus} (hb : b ≠ 0)
    (hab : ¬ (a = 0x80000000 ∧ b = 0xFFFFFFFF)) (h1 : Answers s.bus (.get32 (align4 s.sp)) a b1)
    (h2 : Answers b1 (.get32 (align4 s.sp + 4)) b b2) :
    divideOp f s = pushNext (f a b) { s with sp := align4 s.sp + 8, bus := b2 } := by
  refine (pop_pop_of_answers h1 h2 _).trans ?_
  rw [if_neg hb, if_neg hab]

/-- A native division: result and bus faults. -/
theorem divideWhole_of {i : Instr} {f : Word → Word → Word} (h : ∀ s, native s → exec i s = divideOp f s) :
    divideResult i f ∧ divideBusFaults i f := by
  refine ⟨fun s a b b1 b2 b3 hs hb hab h1 h2 h3 => ?_, firstPopFault_of fun s hs => ⟨_, h s hs⟩,
    secondPopFault_of fun s hs => ⟨_, h s hs⟩, fun s a b e b1 b2 b3 hs hb hab h1 h2 h3 => ?_⟩
  · exact (h s hs).trans (.trans (divideOp_of_no_fault hb hab h1 h2)
      (pushNext_slot_of_answers (add_eight_sub_four _) (align4_add_four_align4 _) h3))
  · exact (h s hs).trans (.trans (divideOp_of_no_fault hb hab h1 h2)
      (pushNext_slot_of_fails (add_eight_sub_four _) (align4_add_four_align4 _) h3))

/-- Settles O44, by the shape of a division; MOD's value is the truncating remainder. -/
theorem divModResult : Obligations.DivModResult := by
  refine ⟨divideWhole_of fun _ hs => emulate_of_native (by decide) hs, divideWhole_of fun s hs => ?_⟩
  refine Eq.trans (emulate_of_native (by decide) hs) ?_
  exact congrArg (divideOp · s) (funext₂ modWord_eq)

/-- A native conditional branch: result and bus faults. -/
theorem branchWhole_of {i : Instr} {test : Word → Bool} {taken : Word → Prop}
    (h : ∀ s, native s → exec i s = branchOp test s) (ht : ∀ b, test b = true ↔ taken b) :
    branchResult i taken ∧ branchFaults i := by
  refine ⟨fun s a b b1 b2 hs h1 h2 => ?_, firstPopFault_of fun s hs => ⟨_, h s hs⟩,
    secondPopFault_of fun s hs => ⟨_, h s hs⟩⟩
  have hbranch := (h s hs).trans (pop_pop_of_answers h1 h2 _)
  exact ⟨fun hb => hbranch.trans (if_pos ((ht b).2 hb)), fun hb => hbranch.trans (if_neg (mt (ht b).1 hb))⟩

/-- Settles O50: the two conditional branches by their shape, POPPCREL by its one pop. -/
theorem relativeBranches : Obligations.RelativeBranches := by
  refine ⟨branchWhole_of (fun _ hs => emulate_of_native (by decide) hs) fun b => by simp [isZero],
    branchWhole_of (fun _ hs => emulate_of_native (by decide) hs) fun b => by simp [isZero],
    fun s a b1 hs h1 => ?_, fun s e b1 hs h1 => ?_⟩
  · exact Eq.trans (emulate_of_native (by decide) hs) (pop_finish_of_answers h1)
  · exact Eq.trans (emulate_of_native (by decide) hs) (pop_finish_of_fails h1)

/-! ## LOAD, STORE and IM -/

/-- Settles O37: LOAD is a pop, a word read and a push to the slot popped, STORE two pops and a word write. -/
theorem loadStore : Obligations.LoadStore := by
  refine ⟨fun s a v b1 b2 b3 h1 h2 h3 => ?_, fun s a v b1 b2 b3 h1 h2 h3 => ?_, fun i s e b1 hi hf => ?_,
    fun s a e b1 b2 h1 hf => ?_, fun s a v e b1 b2 b3 h1 h2 hf => ?_, fun s a e b1 b2 h1 hf => ?_,
    fun s a v e b1 b2 b3 h1 h2 hf => ?_⟩
  · exact .trans (pop_finish_of_answers h1) <| .trans (memRead4_finish_of_answers h2) <|
      pushNext_slot_of_answers (add_four_sub_four _) (align4_align4 _) h3
  · exact .trans (pop_pop_of_answers h1 h2 _) (memWrite4_finish_of_answers h3)
  · rcases hi with rfl | rfl <;> exact pop_finish_of_fails hf
  · exact .trans (pop_finish_of_answers h1) (memRead4_finish_of_fails hf)
  · exact .trans (pop_finish_of_answers h1) <| .trans (memRead4_finish_of_answers h2) <|
      pushNext_slot_of_fails (add_four_sub_four _) (align4_align4 _) hf
  · exact pop_pop_of_fails h1 hf
  · exact .trans (pop_pop_of_answers h1 h2 _) (memWrite4_finish_of_fails hf)

theorem execIm_unchained {i : BitVec 7} {s : State} (h : s.prevIm = false) :
    exec (.im i) s = pushImmediate (immFirst i) s := by
  simp [exec, execIm, h]

theorem execIm_chained {i : BitVec 7} {s : State} (h : s.prevIm = true) :
    exec (.im i) s = (pop s).finish fun x s => pushImmediate (immChain x i) s := by
  simp [exec, execIm, h]

/-- Settles O38, by the two cases of `prev_im`: a push, or a pop and a push to the slot popped. -/
theorem immediateResult : Obligations.ImmediateResult := by
  refine ⟨fun s i b hp h => ?_, fun s i x b1 b2 hp h1 h2 => ?_, fun s i e b hp hf => ?_, fun s i e b1 hp hf => ?_,
    fun s i x e b1 b2 hp h1 hf => ?_⟩
  · exact (execIm_unchained hp).trans (push_finish_of_answers h)
  · exact (execIm_chained hp).trans <| .trans (pop_finish_of_answers h1) <|
      push_slot_finish_of_answers (add_four_sub_four _) (align4_align4 _) h2
  · exact (execIm_unchained hp).trans (push_finish_of_fails hf)
  · exact (execIm_chained hp).trans (pop_finish_of_fails hf)
  · exact (execIm_chained hp).trans <| .trans (pop_finish_of_answers h1) <|
      push_slot_finish_of_fails (add_four_sub_four _) (align4_align4 _) hf

/-! ## Bytes and halves -/

theorem exec_loadh_of_nativeHalf {s : State} (hs : nativeHalf s) : exec .loadh s = loadhBody s :=
  emulate_of_nativeHalf (.inl rfl) hs

theorem exec_storeh_of_nativeHalf {s : State} (hs : nativeHalf s) : exec .storeh s = storehBody s :=
  emulate_of_nativeHalf (.inr rfl) hs

theorem exec_loadb_of_native {s : State} (hs : native s) : exec .loadb s = loadbBody s :=
  emulate_of_native (by decide) hs

theorem exec_storeb_of_native {s : State} (hs : native s) : exec .storeb s = storebBody s :=
  emulate_of_native (by decide) hs

/-- Settles O49: the two byte accesses in order, around them the pops and the push of the opcode. -/
theorem halfAccess : Obligations.HalfAccess := by
  refine ⟨fun s a w0 w1 b1 b2 b3 b4 hs h1 h2 h3 h4 => ?_, fun s a v b1 b2 b3 b4 hs h1 h2 h3 h4 => ?_⟩
  · rw [← halfWord_eq] at h4
    exact (exec_loadh_of_nativeHalf hs).trans <| .trans (pop_finish_of_answers h1) <|
      .trans (memRead2_finish_of_answers h2 h3) <|
      pushNext_slot_of_answers (add_four_sub_four _) (align4_align4 _) h4
  · rw [← halfHigh_eq] at h3
    rw [← halfLow_eq] at h4
    exact (exec_storeh_of_nativeHalf hs).trans <| .trans (pop_pop_of_answers h1 h2 _) <|
      memWrite2_finish_of_answers h3 h4

/-! ## Traps -/

theorem implemented_half_of_off {p : Params} (hp : p.hwHalfword = false) {index : BitVec 5}
    (hi : index = 1 ∨ index = 2) : implemented p index = false := by
  rcases hi with rfl | rfl <;> simp [implemented, nativeSlots, hp]

theorem exec_loadh_of_off {s : State} (hs : s.params.hwHalfword = false) : exec .loadh s = takeTrap 1 s :=
  emulate_trap (.inr (implemented_half_of_off hs (.inl rfl)))

theorem exec_storeh_of_off {s : State} (hs : s.params.hwHalfword = false) : exec .storeh s = takeTrap 2 s :=
  emulate_trap (.inr (implemented_half_of_off hs (.inr rfl)))

/-- Settles O52: the seven reserved slots are the trap, the half-word slots are it without HW_HALFWORD. -/
theorem reservedSlotsTrap : Obligations.ReservedSlotsTrap :=
  ⟨trapWhole_of (index := 0) fun _ _ => rfl, trapWhole_of (index := 12) fun _ _ => rfl,
    trapWhole_of (index := 25) fun _ _ => rfl, trapWhole_of (index := 26) fun _ _ => rfl,
    trapWhole_of (index := 27) fun _ _ => rfl, trapWhole_of (index := 29) fun _ _ => rfl,
    trapWhole_of (index := 31) fun _ _ => rfl, trapWhole_of (index := 1) fun _ => exec_loadh_of_off,
    trapWhole_of (index := 2) fun _ => exec_storeh_of_off⟩

/-- The EMULATE slot an instruction is the operation of (rule R185). -/
def slotOf : Instr → Option (BitVec 5)
  | .emulate0 => some 0 | .loadh => some 1 | .storeh => some 2 | .lessthan => some 3 | .lessthanorequal => some 4
  | .ulessthan => some 5 | .ulessthanorequal => some 6 | .swap => some 7 | .mult => some 8 | .lshiftright => some 9
  | .ashiftleft => some 10 | .ashiftright => some 11 | .call => some 12 | .eq => some 13 | .neq => some 14
  | .neg => some 15 | .sub => some 16 | .xor => some 17 | .loadb => some 18 | .storeb => some 19 | .div => some 20
  | .mod => some 21 | .eqbranch => some 22 | .neqbranch => some 23 | .poppcrel => some 24 | .config => some 25
  | .pushpc => some 26 | .syscall => some 27 | .pushspadd => some 28 | .halfmult => some 29 | .callpcrel => some 30
  | .emulate31 => some 31
  | .breakpoint | .pushsp | .poppc | .add | .and | .or | .load | .not | .flip | .nop | .store | .popsp => none
  | .illegal _ | .im _ | .storesp _ | .loadsp _ | .addsp _ => none

theorem slotOf_emulateSlot : ∀ index : BitVec 5, slotOf (emulateSlot index) = some index := by decide

/-- With HW_EMULATION off the operation of every slot is the trap of its slot (rule R182). -/
theorem exec_of_slotOf {i : Instr} {index : BitVec 5} {s : State} (hi : slotOf i = some index)
    (hs : s.params.hwEmulation = false) : exec i s = takeTrap index s := by
  cases i with
  | emulate0 | call | config | pushpc | syscall | halfmult | emulate31 =>
    cases hi
    rfl
  | loadh | storeh | lessthan | lessthanorequal | ulessthan | ulessthanorequal | swap | mult | lshiftright | ashiftleft
  | ashiftright | eq | neq | neg | sub | xor | loadb | storeb | div | mod | eqbranch | neqbranch | poppcrel | pushspadd
  | callpcrel =>
    cases hi
    exact emulate_trap (.inl hs)
  | breakpoint | pushsp | poppc | add | and | or | load | not | flip | nop | store | popsp | illegal | im | storesp
  | loadsp | addsp => cases hi

/-- Settles O53: with HW_EMULATION off the operation of every slot is its trap. -/
theorem emulationOffTraps : Obligations.EmulationOffTraps := fun index =>
  trapWhole_of fun _ hs => exec_of_slotOf (slotOf_emulateSlot index) hs

end Sys2Proof.Machine
end

section
/-! SUPPORT. The state a bus fault leaves part-way through the stack, stack-relative, byte, half and relative-call
opcodes (rules R274, R276; the order of effects is D10). -/

namespace Sys2Proof.Machine

open Sys2Proof.Config Sys2Proof.Claims

theorem exec_swap_of_native {s : State} (hs : native s) : exec .swap s = swapBody s :=
  emulate_of_native (by decide) hs

theorem exec_callpcrel_of_native {s : State} (hs : native s) : exec .callpcrel s = callpcrelBody s :=
  emulate_of_native (by decide) hs

theorem spAddWord_eq (sp a : Word) : spAddWord sp a = align4 (sp + 4 * a) := by
  have hshift : a <<< 2 = 4 * a := by
    rw [BitVec.shiftLeft_eq_mul_twoPow, BitVec.mul_comm]
    rfl
  rw [spAddWord, hshift]

/-- PUSHSPADD is a one-operand form (rule R253). -/
theorem pushspaddWhole : unaryWhole native .pushspadd fun s a => align4 (s.sp + 4 * a) :=
  unaryWhole_of fun s hs => .trans (emulate_of_native (by decide) hs) <|
    congrArg (unaryOp · s) (funext (spAddWord_eq s.sp))

/-- CALLPCREL fails at its pop, or at the push of the return address (rule R254). -/
theorem callpcrelFaults : unaryFaults native .callpcrel fun s _ => s.pc + 1 :=
  ⟨firstPopFault_of fun _ hs => ⟨_, exec_callpcrel_of_native hs⟩, fun _ _ _ _ _ hs h1 hf =>
    (exec_callpcrel_of_native hs).trans <| .trans (pop_finish_of_answers h1) <|
      push_slot_finish_of_fails (add_four_sub_four _) (align4_align4 _) hf⟩

/-- Settles O54, access by access. -/
theorem partialEffects : Obligations.PartialEffects := by
  refine ⟨fun x => ⟨?poppc_pop, ?popsp_pop, ?storesp_pop, ?swap_pop, ?loadb_pop, ?storeb_pop, callpcrelFaults.1,
      ?loadh_pop, ?storeh_pop⟩, ⟨?swap_pop2, ?storeb_pop2, ?storeh_pop2⟩, pushspaddWhole.2, callpcrelFaults,
    fun s e b hf => ?pushsp_push, fun s x v e b1 b2 h1 hf => ?storesp_store,
    fun s x e b hf => ?loadsp_load, fun s x v e b1 b2 h1 hf => ?loadsp_push,
    fun s n e b hf => ?addsp_load, fun s n w e b1 b2 h1 hf => ?addsp_pop,
    fun s n w a e b1 b2 b3 h1 h2 hf => ?addsp_push, fun s a b e b1 b2 b3 hs h1 h2 hf => ?swap_push,
    fun s a e b1 b2 hs h1 hf => ?loadb_read, fun s a w e b1 b2 b3 hs h1 h2 hf => ?loadb_push,
    fun s a v e b1 b2 b3 hs h1 h2 hf => ?storeb_write, fun s a e b1 b2 hs h1 hf => ?loadh_read,
    fun s a w e b1 b2 b3 hs h1 h2 hf => ?loadh_read2, fun s a w0 w1 e b1 b2 b3 b4 hs h1 h2 h3 hf => ?loadh_push,
    fun s a v e b1 b2 b3 hs h1 h2 hf => ?storeh_write⟩
  case poppc_pop => exact firstPopFault_of fun _ _ => ⟨_, rfl⟩
  case popsp_pop => exact firstPopFault_of fun _ _ => ⟨_, rfl⟩
  case storesp_pop => exact firstPopFault_of fun _ _ => ⟨_, rfl⟩
  case swap_pop => exact firstPopFault_of fun _ hs => ⟨_, exec_swap_of_native hs⟩
  case loadb_pop => exact firstPopFault_of fun _ hs => ⟨_, exec_loadb_of_native hs⟩
  case storeb_pop => exact firstPopFault_of fun _ hs => ⟨_, exec_storeb_of_native hs⟩
  case loadh_pop => exact firstPopFault_of fun _ hs => ⟨_, exec_loadh_of_nativeHalf hs⟩
  case storeh_pop => exact firstPopFault_of fun _ hs => ⟨_, exec_storeh_of_nativeHalf hs⟩
  case swap_pop2 => exact secondPopFault_of fun _ hs => ⟨_, exec_swap_of_native hs⟩
  case storeb_pop2 => exact secondPopFault_of fun _ hs => ⟨_, exec_storeb_of_native hs⟩
  case storeh_pop2 => exact secondPopFault_of fun _ hs => ⟨_, exec_storeh_of_nativeHalf hs⟩
  case pushsp_push => exact pushNext_of_fails hf
  case storesp_store => exact .trans (pop_finish_of_answers h1) (memWrite4_finish_of_fails hf)
  case loadsp_load => exact memRead4_finish_of_fails hf
  case loadsp_push => exact .trans (memRead4_finish_of_answers h1) (pushNext_of_fails hf)
  case addsp_load => exact memRead4_finish_of_fails hf
  case addsp_pop => exact .trans (memRead4_finish_of_answers h1) (pop_finish_of_fails hf)
  case addsp_push =>
    exact .trans (memRead4_finish_of_answers h1) <| .trans (pop_finish_of_answers h2) <|
      pushNext_slot_of_fails (add_four_sub_four _) (align4_align4 _) hf
  case swap_push =>
    exact (exec_swap_of_native hs).trans <| .trans (pop_pop_of_answers h1 h2 _) <|
      push_slot_finish_of_fails (add_eight_sub_four _) (align4_add_four_align4 _) hf
  case loadb_read =>
    exact (exec_loadb_of_native hs).trans <| .trans (pop_finish_of_answers h1) (memRead1_finish_of_fails hf)
  case loadb_push =>
    rw [← setWidth_byte] at hf
    exact (exec_loadb_of_native hs).trans <| .trans (pop_finish_of_answers h1) <|
      .trans (memRead1_finish_of_answers h2) <| pushNext_slot_of_fails (add_four_sub_four _) (align4_align4 _) hf
  case storeb_write =>
    exact (exec_storeb_of_native hs).trans <| .trans (pop_pop_of_answers h1 h2 _) (memWrite1_finish_of_fails hf)
  case loadh_read =>
    exact (exec_loadh_of_nativeHalf hs).trans <| .trans (pop_finish_of_answers h1) (memRead2_finish_of_fails hf)
  case loadh_read2 =>
    exact (exec_loadh_of_nativeHalf hs).trans <| .trans (pop_finish_of_answers h1) <|
      memRead2_finish_of_answers_fails h2 hf
  case loadh_push =>
    rw [← halfWord_eq] at hf
    exact (exec_loadh_of_nativeHalf hs).trans <| .trans (pop_finish_of_answers h1) <|
      .trans (memRead2_finish_of_answers h2 h3) <|
      pushNext_slot_of_fails (add_four_sub_four _) (align4_align4 _) hf
  case storeh_write =>
    rw [← halfHigh_eq] at hf
    exact (exec_storeh_of_nativeHalf hs).trans <| .trans (pop_pop_of_answers h1 h2 _) (memWrite2_finish_of_fails hf)

end Sys2Proof.Machine
end

section
/-! SUPPORT. The frame of the opcodes whose one store is a push (rules R75, R76): up to the push they only read the bus
and move `sp` (`ReadSince`), and the push stores one word. -/

namespace Sys2Proof.Machine

open Sys2Proof.Config Sys2Proof.Claims

/-- Only bus reads and moves of `sp` lie between `s` and `u`: the other registers, the device list and every
stored byte are as in `s`. -/
structure ReadSince (s u : State) : Prop where
  registers : registersKept s u
  bytes : bytesKept s.bus u.bus fun _ => True

/-- `t` is `s` after a push from the stack pointer `sp`, as far as `framePush` says. -/
def PushedSince (s : State) (sp : Word) (t : State) : Prop :=
  registersKept s t ∧ t.sp = sp - 4 ∧ bytesKept s.bus t.bus (outsideWord (align4 (sp - 4)))

/-- Where the outcome is a next state, it is `s` after a push from `sp`. -/
def PushFramed (s : State) (sp : Word) (o : Host.Outcome State Fault Refusal) : Prop :=
  ∀ t, o = .next t → PushedSince s sp t

/-- The access only reads, and leaves the stack pointer at `sp`. -/
def Access.ReadsOnly {α : Type} (s : State) (sp : Word) (x : Access α) : Prop :=
  ∀ v u, x = .done v u → ReadSince s u ∧ u.sp = sp

theorem ReadSince.refl (s : State) : ReadSince s s := ⟨⟨rfl, rfl, rfl, rfl, rfl, rfl⟩, fun _ _ => rfl⟩

/-- What one bus request leaves of registers, device list and bytes. -/
theorem ReadSince.after_request {s u : State} (h : ReadSince s u) {q : Request} {v : Word} {b : Bus}
    (hb : Answers u.bus q v b) :
    registersKept s (u.withBus b) ∧ bytesKept s.bus b fun x => ¬ storesTo q x := by
  obtain ⟨⟨him, hst, hps, hprev, hrep, hshape⟩, hbytes⟩ := h
  have hb' : (u.bus.request q).1 = b := by rw [hb]
  subst hb'
  exact ⟨⟨him, hst, hps, hprev, hrep, (Bus.shape_request u.bus q).trans hshape⟩,
    fun x hx => (Bus.bytesAt_request u.bus q x hx).trans (hbytes x trivial)⟩

theorem ReadSince.withSp {s u : State} (h : ReadSince s u) (v : Word) : ReadSince s (u.withSp v) := ⟨h.1, h.2⟩

section Reads

variable {s u : State} (h : ReadSince s u)
include h

/-- A byte or word read keeps all the bytes. -/
theorem ReadSince.read {q : Request} (hq : isProbe q = true) {v : Word} {b : Bus} (hb : Answers u.bus q v b) :
    ReadSince s (u.withBus b) := by
  obtain ⟨hregs, hbytes⟩ := h.after_request hb
  refine ⟨hregs, fun x _ => hbytes x ?_⟩
  cases q with
  | get | get32 => exact id
  | set | set32 | delete | flush | init | tick => cases hq

theorem memRead4_readsOnly (a : Word) : (memRead4 a u).ReadsOnly s u.sp := by
  intro v t hx
  obtain ⟨b, hb, rfl⟩ := busAccess_done hx
  exact ⟨h.read rfl hb, rfl⟩

theorem memRead1_readsOnly (a : Word) : (memRead1 a u).ReadsOnly s u.sp := by
  intro v t hx
  obtain ⟨w, b, hb, -, rfl⟩ := memRead1_done hx
  exact ⟨h.read rfl hb, rfl⟩

theorem pop_readsOnly : (pop u).ReadsOnly s (align4 (u.sp + 4)) := by
  intro v t hx
  obtain ⟨b, hb, rfl⟩ := pop_done hx
  exact ⟨(h.read rfl hb).withSp _, rfl⟩

end Reads

theorem memRead2_readsOnly {s u : State} (h : ReadSince s u) (a : Word) : (memRead2 a u).ReadsOnly s u.sp := by
  intro v t hx
  obtain ⟨b0, u1, h0, hx⟩ := Access.andThen_done_iff.1 hx
  obtain ⟨b1, u2, h1, hx⟩ := Access.andThen_done_iff.1 hx
  obtain ⟨hr1, hsp1⟩ := memRead1_readsOnly h a b0 u1 h0
  obtain ⟨hr2, hsp2⟩ := memRead1_readsOnly hr1 _ b1 u2 h1
  cases hx
  exact ⟨hr2, hsp2.trans hsp1⟩

/-- After an access that only reads, the frame is that of what follows. -/
theorem Access.ReadsOnly.finish {α : Type} {x : Access α} {k : α → State → Host.Outcome State Fault Refusal}
    {s : State} {sp sp' : Word} (hx : x.ReadsOnly s sp')
    (hk : ∀ v u, ReadSince s u → u.sp = sp' → PushFramed s sp (k v u)) : PushFramed s sp (x.finish k) := by
  intro t ht
  obtain ⟨v, u, hu, hkt⟩ := Access.finish_next ht
  obtain ⟨hread, hsp⟩ := hx v u hu
  exact hk v u hread hsp t hkt

theorem not_storesTo_of_outsideWord {a v x : Word} (h : outsideWord a x) : ¬ storesTo (.set32 a v) x := by
  obtain ⟨h0, h1, h2, h3⟩ := h
  simp only [storesTo, h0, h1, h2, h3, or_self, not_false_iff]

section Pushes

variable {s u : State} {sp : Word} (h : ReadSince s u)
include h

/-- A push after reads stores one word. -/
theorem push_pushedSince {v : Word} {w : Unit} {t : State} (ht : push v u = .done w t) : PushedSince s u.sp t := by
  obtain ⟨_, b, hb, rfl⟩ := push_done ht
  obtain ⟨hregs, hbytes⟩ := h.after_request hb
  exact ⟨hregs, rfl, fun x hx => hbytes x (not_storesTo_of_outsideWord hx)⟩

/-- A push, then a jump. -/
theorem push_jump_framed (hsp : u.sp = sp) (v : Word) (target : State → Word) :
    PushFramed s sp ((push v u).finish fun _ t => .next (t.withPc (target t))) := by
  subst hsp
  intro t ht
  obtain ⟨_, u', hu, hk⟩ := Access.finish_next ht
  have hpushed := push_pushedSince h hu
  cases hk
  exact hpushed

theorem pushNext_framed (hsp : u.sp = sp) (v : Word) : PushFramed s sp (pushNext v u) :=
  push_jump_framed h hsp v fun t => t.pc + 1

theorem takeTrap_framed (hsp : u.sp = sp) (index : BitVec 5) : PushFramed s sp (takeTrap index u) :=
  push_jump_framed h hsp _ fun _ => trapVector index

theorem unaryOp_framed (hsp : align4 (u.sp + 4) = sp) (f : Word → Word) : PushFramed s sp (unaryOp f u) :=
  (pop_readsOnly h).finish fun _ _ hr hsp' => pushNext_framed hr (hsp'.trans hsp) _

theorem binaryOp_framed (hsp : align4 (align4 (u.sp + 4) + 4) = sp) (f : Word → Word → Word) :
    PushFramed s sp (binaryOp f u) :=
  (pop_readsOnly h).finish fun a _ hr hsp' => unaryOp_framed hr (by rw [hsp', hsp]) (f a)

/-- An immediate load's end: a push, and `last_im` set. -/
theorem pushImmediate_pushedSince {v : Word} {t : State} (ht : pushImmediate v u = .next t) :
    t.lastIm = true ∧ PushedSince { s with lastIm := true } u.sp t := by
  obtain ⟨_, u', hu, hk⟩ := Access.finish_next ht
  obtain ⟨⟨-, hst, hps, hprev, hrep, hshape⟩, hsp, hbytes⟩ := push_pushedSince h hu
  cases hk
  exact ⟨rfl, ⟨rfl, hst, hps, hprev, hrep, hshape⟩, hsp, hbytes⟩

end Pushes

theorem framePush_of {mode : State → Prop} {i : Instr} {sp : State → Word}
    (h : ∀ s, mode s → PushFramed s (sp s) (exec i s)) : framePush mode i sp := fun s t hs ht => h s hs t ht

/-- A frame of an opcode is a frame of its body. -/
theorem PushFramed.of_eq {s : State} {sp : Word} {o o' : Host.Outcome State Fault Refusal} (ho : o = o')
    (h : PushFramed s sp o') : PushFramed s sp o := ho ▸ h

/-- The frame of an immediate load, chained or not. -/
theorem execIm_frame (k : BitVec 7) {s t : State} (ht : exec (.im k) s = .next t) :
    t.lastIm = true ∧ registersKept { s with lastIm := true } t ∧
    (s.prevIm = false → t.sp = s.sp - 4 ∧ bytesKept s.bus t.bus (outsideWord (align4 (s.sp - 4)))) ∧
    (s.prevIm = true → t.sp = spPop1 s - 4 ∧ bytesKept s.bus t.bus (outsideWord (align4 (spPop1 s - 4)))) := by
  rcases Bool.eq_false_or_eq_true s.prevIm with hp | hp
  · rw [execIm_chained hp] at ht
    obtain ⟨x, u, hu, hk⟩ := Access.finish_next ht
    obtain ⟨hread, hsp⟩ := pop_readsOnly (.refl s) x u hu
    obtain ⟨him, hregs, hframe⟩ := pushImmediate_pushedSince hread hk
    rw [hsp] at hframe
    exact ⟨him, hregs, fun h => absurd (h.symm.trans hp) Bool.false_ne_true, fun _ => hframe⟩
  · rw [execIm_unchained hp] at ht
    obtain ⟨him, hregs, hframe⟩ := pushImmediate_pushedSince (.refl s) ht
    exact ⟨him, hregs, fun _ => hframe, fun h => absurd (hp.symm.trans h) Bool.false_ne_true⟩

/-- Settles O56: each opcode only reads and pops before its push. (The bare name is the claim shape
`Claims.framePush`.) -/
theorem Frames.framePush : Obligations.FramePush := by
  refine ⟨?direct, fun index => ?off, ?half_off, ?one_pop, ?one_pop_native, ?loadh, ?two_pops, ?two_pops_native,
    fun k s t => execIm_frame k⟩
  case direct =>
    rintro i (rfl | ⟨x, rfl⟩ | rfl | rfl | rfl | rfl | rfl | rfl | rfl) <;> refine framePush_of fun s _ => ?_
    case inl => exact pushNext_framed (.refl s) rfl _
    case inr.inl => exact (memRead4_readsOnly (.refl s) _).finish fun _ _ hr hsp => pushNext_framed hr hsp _
    all_goals exact takeTrap_framed (.refl s) rfl _
  case off =>
    exact framePush_of fun s hs =>
      .of_eq (exec_of_slotOf (slotOf_emulateSlot index) hs) (takeTrap_framed (.refl s) rfl _)
  case half_off =>
    rintro i (rfl | rfl)
    · exact framePush_of fun s hs => .of_eq (exec_loadh_of_off hs) (takeTrap_framed (.refl s) rfl _)
    · exact framePush_of fun s hs => .of_eq (exec_storeh_of_off hs) (takeTrap_framed (.refl s) rfl _)
  case one_pop =>
    rintro i (rfl | rfl | rfl | ⟨n, rfl⟩) <;> refine framePush_of fun s _ => ?_
    · exact (pop_readsOnly (.refl s)).finish fun _ _ hr hsp => (memRead4_readsOnly hr _).finish fun _ _ hr hsp' =>
        pushNext_framed hr (hsp'.trans hsp) _
    · exact unaryOp_framed (.refl s) rfl _
    · exact unaryOp_framed (.refl s) rfl _
    · exact (memRead4_readsOnly (.refl s) _).finish fun _ _ hr hsp =>
        unaryOp_framed hr (congrArg (fun sp => align4 (sp + 4)) hsp) _
  case one_pop_native =>
    rintro i (rfl | rfl | rfl | rfl) <;> refine framePush_of fun s hs => ?_
    · exact .of_eq (emulate_of_native (by decide) hs) (unaryOp_framed (.refl s) rfl _)
    · exact .of_eq (exec_loadb_of_native hs) <| (pop_readsOnly (.refl s)).finish fun _ _ hr hsp =>
        (memRead1_readsOnly hr _).finish fun _ _ hr hsp' => pushNext_framed hr (hsp'.trans hsp) _
    · exact .of_eq (emulate_of_native (by decide) hs) (unaryOp_framed (.refl s) rfl _)
    · exact .of_eq (exec_callpcrel_of_native hs) <| (pop_readsOnly (.refl s)).finish fun a _ hr hsp =>
        push_jump_framed hr hsp _ fun t => t.pc + a
  case loadh =>
    exact framePush_of fun s hs => .of_eq (exec_loadh_of_nativeHalf hs) <|
      (pop_readsOnly (.refl s)).finish fun _ _ hr hsp => (memRead2_readsOnly hr _).finish fun _ _ hr hsp' =>
        pushNext_framed hr (hsp'.trans hsp) _
  case two_pops =>
    rintro i (rfl | rfl | rfl) <;> exact framePush_of fun s _ => binaryOp_framed (.refl s) rfl _
  case two_pops_native =>
    rintro i (rfl | rfl | rfl | rfl | rfl | rfl | rfl | rfl | rfl | rfl | rfl | rfl) <;>
      exact framePush_of fun s hs => .of_eq (emulate_of_native (by decide) hs) (binaryOp_framed (.refl s) rfl _)

end Sys2Proof.Machine
end

section
/-! SUPPORT. Progress on the reference RAM (rule R69): a word read inside the RAM answers, a write always succeeds
(rule R57), so an instruction goes through to its next state as long as its pops and reads stay inside. -/

namespace Sys2Proof.Machine

open Sys2Proof.Config Sys2Proof.Claims

/-! ## Addresses inside the RAM -/

/-- The one RAM has contents `m`, and the `n` bytes from the top of the stack up lie in it. -/
structure RamReach (size : Word) (m : Memory) (n : Nat) (s : State) : Prop where
  ram : onRam s.bus size m
  reach : (align4 s.sp).toNat + n ≤ size.toNat

theorem sprelOffset_le : ∀ x : BitVec 5, (sprelOffset x).toNat ≤ 124 := by decide

theorem addspOffset_le : ∀ n : BitVec 4, (addspOffset n).toNat ≤ 124 := by decide

/-- A stack-relative word lies in the 128 bytes from the top of the stack up (rule R105). -/
theorem sprelAddr_in_reach {sp offset size : Word} (hoff : offset.toNat ≤ 124) (h : stackInRam sp size) :
    (sprelAddr sp offset).toNat + 3 < size.toNat := by
  have hsize := size.isLt
  unfold stackInRam at h
  rw [align4_toNat] at h
  rw [sprelAddr, align4_toNat, BitVec.toNat_add, Nat.mod_eq_of_lt (by omega)]
  omega

/-! ## Parts that go through -/

/-- The outcome is a next state. -/
def Goes (o : Host.Outcome State Fault Refusal) : Prop := ∃ t, o = .next t

section Parts

variable {size : Word} {m : Memory} {s : State}

/-- A pop inside the RAM gives the word on top, and leaves four bytes less above it. -/
theorem pop_goes {n : Nat} {k : Word → State → Host.Outcome State Fault Refusal} (h : RamReach size m (n + 4) s)
    (hk : ∀ u, RamReach size m n u → Goes (k (m.readWord (align4 s.sp).toNat) u)) : Goes ((pop s).finish k) := by
  obtain ⟨hram, hreach⟩ := h
  rw [pop_finish_of_answers (onRam_answers_get32 hram (by omega))]
  refine hk _ ⟨hram, ?_⟩
  have := size.isLt
  rw [align4_add_four_align4, BitVec.toNat_add, toNat_four]
  omega

theorem memRead4_goes {a : Word} {k : Word → State → Host.Outcome State Fault Refusal} (h : onRam s.bus size m)
    (ha : a.toNat + 3 < size.toNat) (hk : ∀ v, Goes (k v s)) : Goes ((memRead4 a s).finish k) := by
  rw [memRead4_finish_of_answers (onRam_answers_get32 h ha)]
  exact hk _

theorem memRead1_goes {a : Word} {k : Byte → State → Host.Outcome State Fault Refusal} (h : onRam s.bus size m)
    (ha : a.toNat < size.toNat) (hk : ∀ v, Goes (k v s)) : Goes ((memRead1 a s).finish k) := by
  rw [memRead1_finish_of_answers (onRam_answers_get h ha)]
  exact hk _

theorem memRead2_goes {a : Word} {k : BitVec 16 → State → Host.Outcome State Fault Refusal} (h : onRam s.bus size m)
    (ha : a.toNat + 1 < size.toNat) (hk : ∀ v, Goes (k v s)) : Goes ((memRead2 a s).finish k) := by
  have hnext : (a + 1).toNat = a.toNat + 1 := toNat_add_small a 1 (by have := size.isLt; omega)
  rw [memRead2_finish_of_answers (onRam_answers_get h (by omega)) (onRam_answers_get h (by omega))]
  exact hk _

variable {k : Unit → State → Host.Outcome State Fault Refusal}

theorem memWrite4_goes {a v : Word} (h : onRam s.bus size m) (hk : ∀ u, Goes (k () u)) :
    Goes ((memWrite4 a v s).finish k) := by
  obtain ⟨b, m', hb, -⟩ := onRam_answers_set32 h a v
  rw [memWrite4_finish_of_answers hb]
  exact hk _

theorem memWrite1_goes {a : Word} {x : Byte} (h : onRam s.bus size m) (hk : ∀ u, Goes (k () u)) :
    Goes ((memWrite1 a x s).finish k) := by
  obtain ⟨b, m', hb, -⟩ := onRam_answers_set h a x
  rw [memWrite1_finish_of_answers hb]
  exact hk _

theorem memWrite2_goes {a : Word} {y : BitVec 16} (h : onRam s.bus size m) (hk : ∀ u, Goes (k () u)) :
    Goes ((memWrite2 a y s).finish k) := by
  obtain ⟨b, m', hb, hram⟩ := onRam_answers_set h a (y.extractLsb' 8 8)
  obtain ⟨b', m'', hb', -⟩ := onRam_answers_set hram (a + 1) (y.extractLsb' 0 8)
  rw [memWrite2_finish_of_answers hb hb']
  exact hk _

theorem push_goes {v : Word} (h : onRam s.bus size m) (hk : ∀ u m', onRam u.bus size m' → Goes (k () u)) :
    Goes ((push v s).finish k) := by
  obtain ⟨b, m', hb, hram⟩ := onRam_answers_set32 h (align4 (s.sp - 4)) v
  rw [push_finish_of_answers hb]
  exact hk _ m' hram

/-! ## Shapes that go through -/

theorem nextPc_goes (s : State) : Goes (nextPc s) := ⟨_, rfl⟩

theorem pushNext_goes (v : Word) (h : onRam s.bus size m) : Goes (pushNext v s) :=
  push_goes h fun u _ _ => nextPc_goes u

theorem takeTrap_goes (index : BitVec 5) (h : onRam s.bus size m) : Goes (takeTrap index s) :=
  push_goes h fun _ _ _ => ⟨_, rfl⟩

theorem unaryOp_goes {n : Nat} (f : Word → Word) (h : RamReach size m (n + 4) s) : Goes (unaryOp f s) :=
  pop_goes h fun _ hu => pushNext_goes _ hu.ram

theorem binaryOp_goes {n : Nat} (f : Word → Word → Word) (h : RamReach size m (n + 8) s) : Goes (binaryOp f s) :=
  pop_goes (n := n + 4) h fun _ hu => unaryOp_goes _ hu

theorem divideOp_goes {n : Nat} (f : Word → Word → Word) (h : RamReach size m (n + 8) s) : Goes (divideOp f s) := by
  refine pop_goes (n := n + 4) h fun _ hu => pop_goes hu fun _ hw => ?_
  split
  · exact ⟨_, rfl⟩
  · split
    · exact ⟨_, rfl⟩
    · exact pushNext_goes _ hw.ram

theorem branchOp_goes {n : Nat} (taken : Word → Bool) (h : RamReach size m (n + 8) s) : Goes (branchOp taken s) := by
  refine pop_goes (n := n + 4) h fun _ hu => pop_goes hu fun w _ => ?_
  split
  · exact ⟨_, rfl⟩
  · exact nextPc_goes w

theorem pushImmediate_goes (v : Word) (h : onRam s.bus size m) : Goes (pushImmediate v s) :=
  push_goes h fun u _ _ => nextPc_goes u.setLastIm

/-- A slot goes through if its body does, in every choice of the parameters (rule R182). -/
theorem emulate_goes {index : BitVec 5} {body : State → Host.Outcome State Fault Refusal} (h : onRam s.bus size m)
    (hb : Goes (body s)) : Goes (emulate index body s) := by
  unfold emulate
  split
  · exact hb
  · exact takeTrap_goes index h

end Parts

/-- On the RAM every instruction goes through, its stack and its load address inside. -/
theorem exec_goes (i : Instr) {s : State} {size : Word} {m : Memory} (h : RamReach size m 128 s)
    (hload : loadInRam i (m.readWord (align4 s.sp).toNat) size) : Goes (exec i s) := by
  have hram := h.ram
  cases i with
  | breakpoint => exact ⟨_, execBreakpoint_eq s⟩
  | pushsp => exact pushNext_goes _ hram
  | poppc => exact pop_goes (n := 124) h fun _ _ => ⟨_, rfl⟩
  | add | and | or => exact binaryOp_goes (n := 120) _ h
  | not | flip => exact unaryOp_goes (n := 124) _ h
  | load => exact pop_goes (n := 124) h fun _ hu => memRead4_goes hu.ram hload fun _ => pushNext_goes _ hu.ram
  | nop => exact nextPc_goes s
  | store =>
    exact pop_goes (n := 124) h fun _ hu => pop_goes (n := 120) hu fun _ hw => memWrite4_goes hw.ram nextPc_goes
  | popsp => exact pop_goes (n := 124) h fun _ _ => nextPc_goes _
  | illegal op => exact ⟨_, rfl⟩
  | im k =>
    rcases Bool.eq_false_or_eq_true s.prevIm with hp | hp
    · rw [execIm_chained hp]
      exact pop_goes (n := 124) h fun _ hu => pushImmediate_goes _ hu.ram
    · rw [execIm_unchained hp]
      exact pushImmediate_goes _ hram
  | storesp x => exact pop_goes (n := 124) h fun _ hu => memWrite4_goes hu.ram nextPc_goes
  | loadsp x =>
    exact memRead4_goes hram (sprelAddr_in_reach (sprelOffset_le x) h.reach) fun _ => pushNext_goes _ hram
  | addsp n =>
    exact memRead4_goes hram (sprelAddr_in_reach (addspOffset_le n) h.reach) fun _ => unaryOp_goes (n := 124) _ h
  | emulate0 | call | config | pushpc | syscall | halfmult | emulate31 => exact takeTrap_goes _ hram
  | loadh =>
    exact emulate_goes hram <| pop_goes (n := 124) h fun _ hu =>
      memRead2_goes hu.ram hload fun _ => pushNext_goes _ hu.ram
  | loadb =>
    exact emulate_goes hram <| pop_goes (n := 124) h fun _ hu =>
      memRead1_goes hu.ram hload fun _ => pushNext_goes _ hu.ram
  | storeh =>
    exact emulate_goes hram <| pop_goes (n := 124) h fun _ hu => pop_goes (n := 120) hu fun _ hw =>
      memWrite2_goes hw.ram nextPc_goes
  | storeb =>
    exact emulate_goes hram <| pop_goes (n := 124) h fun _ hu => pop_goes (n := 120) hu fun _ hw =>
      memWrite1_goes hw.ram nextPc_goes
  | swap =>
    exact emulate_goes hram <| pop_goes (n := 124) h fun _ hu => pop_goes (n := 120) hu fun _ hw =>
      push_goes hw.ram fun _ _ hx => pushNext_goes _ hx
  | poppcrel => exact emulate_goes hram <| pop_goes (n := 124) h fun _ _ => ⟨_, rfl⟩
  | callpcrel =>
    exact emulate_goes hram <| pop_goes (n := 124) h fun _ hu => push_goes hu.ram fun _ _ _ => ⟨_, rfl⟩
  | neg | pushspadd => exact emulate_goes hram (unaryOp_goes (n := 124) _ h)
  | div | mod => exact emulate_goes hram (divideOp_goes (n := 120) _ h)
  | eqbranch | neqbranch => exact emulate_goes hram (branchOp_goes (n := 120) _ h)
  | lessthan | lessthanorequal | ulessthan | ulessthanorequal | eq | neq | mult | sub | xor | lshiftright | ashiftleft
  | ashiftright => exact emulate_goes hram (binaryOp_goes (n := 120) _ h)

/-- Settles O20, instruction by instruction from its shape. -/
theorem ramProgress : Obligations.RamProgress := fun i _ _ _ hram hstack hload => exec_goes i ⟨hram, hstack⟩ hload

end Sys2Proof.Machine
end


section
/-! SUPPORT. The encoding (rules R100 to R108, R111): what the decoder makes of each format's byte, whatever its field,
and the bytes of the assembler's forms as bytes of those formats. -/

namespace Sys2Proof

open Sys2Proof.Machine

/-! ## The formats (rule R101) -/

theorem decodeByte_im : ∀ i : BitVec 7, decodeByte (0b1#1 ++ i) = .im i := by decide

theorem decodeByte_storesp : ∀ x : BitVec 5, decodeByte (0b010#3 ++ x) = .storesp x := by decide

theorem decodeByte_loadsp : ∀ x : BitVec 5, decodeByte (0b011#3 ++ x) = .loadsp x := by decide

theorem decodeByte_addsp : ∀ n : BitVec 4, decodeByte (0b0001#4 ++ n) = .addsp n := by decide

theorem decodeByte_emulateByte : ∀ index : BitVec 5, decodeByte (emulateByte index) = emulateSlot index := by decide

theorem Instr.wf_illegal_iff (op : Byte) :
    (Instr.illegal op).wf = true ↔ op = 0x01 ∨ op = 0x03 ∨ op = 0x0E ∨ op = 0x0F := by
  simp [Instr.wf, illegalBytes]

theorem decodeByte_of_wf_illegal {op : Byte} (h : (Instr.illegal op).wf = true) : decodeByte op = .illegal op := by
  rcases (Instr.wf_illegal_iff op).mp h with rfl | rfl | rfl | rfl <;> decide

/-- Settles O1, format by format: an exact byte is found in the table, an EMULATE byte is its slot's. -/
theorem decodeEncode : Obligations.DecodeEncode := by
  intro i hi
  cases i with
  | breakpoint | pushsp | poppc | add | and | or | load | not | flip | nop | store | popsp => rfl
  | illegal op => exact decodeByte_of_wf_illegal hi
  | im i => exact decodeByte_im i
  | storesp x => exact decodeByte_storesp x
  | loadsp x => exact decodeByte_loadsp x
  | addsp n => exact decodeByte_addsp n
  | emulate0 | loadh | storeh | lessthan | lessthanorequal | ulessthan | ulessthanorequal | swap | mult | lshiftright
  | ashiftleft | ashiftright | call | eq | neq | neg | sub | xor | loadb | storeb | div | mod | eqbranch | neqbranch
  | poppcrel | config | pushpc | syscall | pushspadd | halfmult | callpcrel | emulate31 =>
    exact decodeByte_emulateByte _

/-! ## Every byte (rule R107) -/

theorem decodeByte_wf : ∀ op : Byte, (decodeByte op).wf = true := by decide

theorem encode_decodeByte : ∀ op : Byte, encode (decodeByte op) = op := by decide

/-- A byte is ILLEGAL just when the term `illegal` of it is well-formed, so at the four bytes of rule R108. -/
theorem decodeByte_eq_illegal_iff (op : Byte) :
    decodeByte op = .illegal op ↔ op = 0x01 ∨ op = 0x03 ∨ op = 0x0E ∨ op = 0x0F :=
  .trans ⟨fun h => h ▸ decodeByte_wf op, decodeByte_of_wf_illegal⟩ (Instr.wf_illegal_iff op)

/-- Settles O2: the words by evaluation, the bytes by the three facts above. -/
theorem sampleWords : Obligations.SampleWords :=
  ⟨by decide, by decide, by decide, by decide, by decide, by decide, by decide, by decide, by decide, by decide,
    fun op => ⟨decodeByte_wf op, encode_decodeByte op, decodeByte_eq_illegal_iff op⟩⟩

/-! ## Operand fields and their values (rules R104, R105) -/

theorem sprelOffset_eq (x : BitVec 5) : sprelOffset x = BitVec.ofNat 32 (4 * (x ^^^ 0x10).toNat) := by
  revert x
  decide

theorem addspOffset_eq (n : BitVec 4) : addspOffset n = BitVec.ofNat 32 (4 * n.toNat) := by
  revert n
  decide

theorem sprelOffset_xor {j : Nat} (hj : j < 32) :
    sprelOffset (BitVec.ofNat 5 j ^^^ 0x10) = BitVec.ofNat 32 (4 * j) := by
  rw [sprelOffset_eq, BitVec.xor_assoc, BitVec.xor_self, BitVec.xor_zero, BitVec.toNat_ofNat, Nat.mod_eq_of_lt hj]

theorem addspOffset_ofNat {j : Nat} (hj : j < 16) : addspOffset (BitVec.ofNat 4 j) = BitVec.ofNat 32 (4 * j) := by
  rw [addspOffset_eq, BitVec.toNat_ofNat, Nat.mod_eq_of_lt hj]

/-- A sign-extended field is the integer it was cut from, if that fits the field. -/
theorem signExtend_ofInt {n w : Nat} {z : Int} (hlo : -2 ^ n ≤ z) (hhi : z < 2 ^ n) :
    (BitVec.ofInt (n + 1) z).signExtend w = BitVec.ofInt w z := by
  have hpow : (2 : Int) ^ (n + 1) = 2 * 2 ^ n := by rw [pow_succ, mul_comm]
  have hfits : z.bmod (2 ^ (n + 1)) = z :=
    Int.bmod_eq_of_le (by push_cast; omega) (by push_cast; omega)
  rw [BitVec.signExtend, BitVec.toInt_ofInt, hfits]

theorem setWidth_ofInt {n w : Nat} (hn : n ≤ w) (z : Int) : (BitVec.ofInt w z).setWidth n = BitVec.ofInt n z := by
  have hdvd : ((2 ^ n : Nat) : Int) ∣ ((2 ^ w : Nat) : Int) := by exact_mod_cast pow_dvd_pow 2 hn
  apply BitVec.eq_of_toInt_eq
  rw [BitVec.toInt_setWidth, BitVec.toNat_ofInt, BitVec.toInt_ofInt,
    Int.toNat_of_nonneg (Int.emod_nonneg _ (by positivity)), ← Int.emod_bmod, Int.emod_emod_of_dvd _ hdvd,
    Int.emod_bmod]

/-! ## The assembler's bytes (rule R111) -/

theorem im_byte : ∀ y : Byte, 0x80 ||| (y &&& 0x7F) = 0b1#1 ++ y.setWidth 7 := by decide

theorem storesp_byte : ∀ x : BitVec 5, 0x40 ||| (x.setWidth 8 ^^^ 0x10) = 0b010#3 ++ (x ^^^ 0x10) := by decide

theorem loadsp_byte : ∀ x : BitVec 5, 0x60 ||| (x.setWidth 8 ^^^ 0x10) = 0b011#3 ++ (x ^^^ 0x10) := by decide

theorem addsp_byte : ∀ n : BitVec 4, 0x10 ||| n.setWidth 8 = 0b0001#4 ++ n := by decide

theorem emulate_byte : ∀ index : BitVec 5, 0x20 ||| index.setWidth 8 = emulateByte index := by decide

/-- An operand in bounds, as a byte, is its field zero-extended. -/
theorem ofNat_byte_eq_setWidth {w j : Nat} (hw : w ≤ 8) (hj : j < 2 ^ w) :
    BitVec.ofNat 8 j = (BitVec.ofNat w j).setWidth 8 := (BitVec.setWidth_ofNat_of_le_of_lt hw hj).symm

theorem asmIm_eq_some {z : Int} {op : Byte} (h : asmIm z = some op) :
    -2 ^ 6 ≤ z ∧ z < 2 ^ 6 ∧ op = 0b1#1 ++ BitVec.ofInt 7 z := by
  simp only [asmIm, Option.ite_none_right_eq_some, Option.some.injEq, im_byte] at h
  obtain ⟨⟨hlo, hhi⟩, rfl⟩ := h
  exact ⟨by omega, by omega, by rw [setWidth_ofInt (by decide)]⟩

theorem asmStoresp_eq_some {k : Nat} {op : Byte} (h : asmStoresp k = some op) :
    ∃ j < 32, k = 4 * j ∧ op = 0b010#3 ++ (BitVec.ofNat 5 j ^^^ 0x10) := by
  simp only [asmStoresp, Option.ite_none_right_eq_some, Option.some.injEq] at h
  obtain ⟨⟨hmod, hlt⟩, rfl⟩ := h
  exact ⟨k / 4, by omega, by omega, by rw [ofNat_byte_eq_setWidth (w := 5) (by decide) (by omega), storesp_byte]⟩

theorem asmLoadsp_eq_some {k : Nat} {op : Byte} (h : asmLoadsp k = some op) :
    ∃ j < 32, k = 4 * j ∧ op = 0b011#3 ++ (BitVec.ofNat 5 j ^^^ 0x10) := by
  simp only [asmLoadsp, Option.ite_none_right_eq_some, Option.some.injEq] at h
  obtain ⟨⟨hmod, hlt⟩, rfl⟩ := h
  exact ⟨k / 4, by omega, by omega, by rw [ofNat_byte_eq_setWidth (w := 5) (by decide) (by omega), loadsp_byte]⟩

theorem asmAddsp_eq_some {k : Nat} {op : Byte} (h : asmAddsp k = some op) :
    ∃ j < 16, k = 4 * j ∧ op = 0b0001#4 ++ BitVec.ofNat 4 j := by
  simp only [asmAddsp, Option.ite_none_right_eq_some, Option.some.injEq] at h
  obtain ⟨⟨hmod, hlt⟩, rfl⟩ := h
  exact ⟨k / 4, by omega, by omega, by rw [ofNat_byte_eq_setWidth (w := 4) (by decide) (by omega), addsp_byte]⟩

theorem asmEmulate_eq_some {n : Nat} {op : Byte} (h : asmEmulate n = some op) :
    op = emulateByte (BitVec.ofNat 5 n) := by
  simp only [asmEmulate, Option.ite_none_right_eq_some, Option.some.injEq] at h
  obtain ⟨hlt, rfl⟩ := h
  rw [ofNat_byte_eq_setWidth (w := 5) (by decide) hlt, emulate_byte]

/-- Settles O5, form by form: the byte is the format's with the operand's field, which has the operand's value. -/
theorem assemblerForms : Obligations.AssemblerForms := by
  refine ⟨fun z op h => ?im, fun k op h => ?storesp, fun k op h => ?loadsp, fun k op h => ?addsp,
    fun n op h => ?emulate⟩
  case im =>
    obtain ⟨hlo, hhi, rfl⟩ := asmIm_eq_some h
    exact ⟨_, decodeByte_im _, signExtend_ofInt hlo hhi⟩
  case storesp =>
    obtain ⟨j, hj, rfl, rfl⟩ := asmStoresp_eq_some h
    exact ⟨_, decodeByte_storesp _, sprelOffset_xor hj⟩
  case loadsp =>
    obtain ⟨j, hj, rfl, rfl⟩ := asmLoadsp_eq_some h
    exact ⟨_, decodeByte_loadsp _, sprelOffset_xor hj⟩
  case addsp =>
    obtain ⟨j, hj, rfl, rfl⟩ := asmAddsp_eq_some h
    exact ⟨_, decodeByte_addsp _, addspOffset_ofNat hj⟩
  case emulate =>
    rw [asmEmulate_eq_some h, decodeByte_emulateByte]

end Sys2Proof
end

section
/-! SUPPORT. Immediate chains (rules R104, R112): what one more literal does to the word, bit by bit and as a number,
and the chain of the pseudo-instruction `imm v`. -/

namespace Sys2Proof

open Sys2Proof.Machine

/-! ## The value of a chain (rule R104) -/

/-- A chained literal becomes the low 7 bits, below the low 25 bits of the word it continues. -/
theorem immChain_eq_append (x : Word) (i : BitVec 7) : immChain x i = x.setWidth 25 ++ i := by
  have hmask : x.toNat &&& 0x1FFFFFFF = x.toNat % 2 ^ 29 := Nat.and_two_pow_sub_one_eq_mod x.toNat 29
  have hhigh : x.toNat % 2 ^ 29 * 2 ^ 7 % 2 ^ 32 = x.toNat % 2 ^ 25 * 2 ^ 7 := by omega
  have hlow : i.toNat % 4294967296 = i.toNat := Nat.mod_eq_of_lt (by omega)
  apply BitVec.eq_of_toNat_eq
  rw [BitVec.toNat_append, BitVec.toNat_setWidth, Nat.shiftLeft_eq, ← hhigh, ← hmask, ← Nat.shiftLeft_eq]
  simp [immChain, hlow]

theorem immChain_eq_add (x : Word) (i : BitVec 7) : immChain x i = x * 128 + BitVec.ofNat 32 i.toNat := by
  have hfactor : (128 : Word).toNat = 128 := rfl
  apply BitVec.eq_of_toNat_eq
  rw [immChain_eq_append, BitVec.toNat_append, ← Nat.shiftLeft_add_eq_or_of_lt i.isLt, Nat.shiftLeft_eq,
    BitVec.toNat_add, BitVec.toNat_mul, BitVec.toNat_setWidth, BitVec.toNat_ofNat, hfactor]
  omega

theorem immChain_ofInt (z : Int) (i : BitVec 7) :
    immChain (BitVec.ofInt 32 z) i = BitVec.ofInt 32 (z * 128 + (i.toNat : Int)) := by
  rw [immChain_eq_add, BitVec.ofInt_add, BitVec.ofInt_mul, BitVec.ofInt_natCast]
  rfl

theorem foldl_immChain_ofInt (rest : List (BitVec 7)) (z : Int) :
    rest.foldl immChain (BitVec.ofInt 32 z) =
      BitVec.ofInt 32 (rest.foldl (fun z i => z * 128 + (i.toNat : Int)) z) := by
  induction rest generalizing z with
  | nil => rfl
  | cons i rest ih => rw [List.foldl_cons, List.foldl_cons, immChain_ofInt, ih]

/-- Settles O4, by induction on the later literals from any integer so far. -/
theorem immRunValue : Obligations.ImmRunValue := fun first rest => foldl_immChain_ofInt rest first.toInt

/-! ## The chain of `imm v` (rule R112) -/

/-- The bits of `x` are those of `v` from bit `n` up, as far as `v` has bits. -/
def AgreesFrom (v : Word) (n : Nat) (x : Word) : Prop := ∀ b, n + b < 32 → x.getLsbD b = v.getLsbD (n + b)

theorem AgreesFrom.eq {v x : Word} (h : AgreesFrom v 0 x) : x = v := by
  apply BitVec.eq_of_getLsbD_eq
  intro b hb
  simpa using h b (by omega)

/-- A word whose signed value fits its low `n + 1` bits repeats bit `n` in every bit above. -/
theorem getLsbD_eq_of_toInt_bounds {v : Word} {n b : Nat} (hlo : -2 ^ n ≤ v.toInt) (hhi : v.toInt < 2 ^ n)
    (hn : n < b) (hb : b < 32) : v.getLsbD b = v.getLsbD n := by
  have hfits : (v.setWidth (n + 1)).signExtend 32 = v := by
    conv_lhs => rw [← BitVec.ofInt_toInt (x := v), setWidth_ofInt (by omega), signExtend_ofInt hlo hhi,
      BitVec.ofInt_toInt]
  calc v.getLsbD b = (v.setWidth (n + 1)).msb := by
        conv_lhs => rw [← hfits, BitVec.getLsbD_signExtend, if_neg (by omega), decide_eq_true hb, Bool.true_and]
    _ = v.getLsbD n := by simp [BitVec.msb_eq_getLsbD_last]

theorem immLength_spec (v : Word) :
    ∃ m ≤ 4, immLength v = m + 1 ∧ (m < 4 → -2 ^ (7 * m + 6) ≤ v.toInt ∧ v.toInt < 2 ^ (7 * m + 6)) := by
  unfold immLength
  split_ifs with h1 h2 h3 h4
  · exact ⟨0, by omega, rfl, fun _ => by omega⟩
  · exact ⟨1, by omega, rfl, fun _ => by omega⟩
  · exact ⟨2, by omega, rfl, fun _ => by omega⟩
  · exact ⟨3, by omega, rfl, fun _ => by omega⟩
  · exact ⟨4, by omega, rfl, fun h => by omega⟩

theorem immLiteral_getLsbD (v : Word) (m : Nat) {b : Nat} (hb : b < 7) :
    (immLiteral v (m + 1) 0).getLsbD b = v.getLsbD (7 * m + b) := by
  simp [immLiteral, hb]

/-- After its first literal an expansion goes on as the expansion that is one byte shorter. -/
theorem immLiterals_succ (v : Word) (m : Nat) : (List.range (m + 1)).map (immLiteral v (m + 1)) =
    immLiteral v (m + 1) 0 :: (List.range m).map (immLiteral v m) := by
  have htail : ∀ j, immLiteral v (m + 1) (j + 1) = immLiteral v m j := fun j => by
    rw [immLiteral, immLiteral, show m + 1 - 1 - (j + 1) = m - 1 - j by omega]
  simp [List.range_succ_eq_map, htail]

theorem immFirst_agreesFrom {v : Word} {m : Nat}
    (hbounds : m < 4 → -2 ^ (7 * m + 6) ≤ v.toInt ∧ v.toInt < 2 ^ (7 * m + 6)) :
    AgreesFrom v (7 * m) (immFirst (immLiteral v (m + 1) 0)) := by
  intro b hb
  rw [immFirst, BitVec.getLsbD_signExtend, BitVec.msb_eq_getLsbD_last, decide_eq_true (by omega), Bool.true_and]
  rcases Nat.lt_or_ge b 7 with hlow | hhigh
  · rw [if_pos hlow, immLiteral_getLsbD v m hlow]
  · obtain ⟨hlo, hhi⟩ := hbounds (by omega)
    rw [if_neg (by omega), immLiteral_getLsbD v m (by omega), getLsbD_eq_of_toInt_bounds hlo hhi (by omega) hb]

theorem immChain_agreesFrom {v x : Word} {m : Nat} (h : AgreesFrom v (7 * (m + 1)) x) :
    AgreesFrom v (7 * m) (immChain x (immLiteral v (m + 1) 0)) := by
  intro b hb
  rw [immChain_eq_append, BitVec.getLsbD_append]
  rcases Nat.lt_or_ge b 7 with hlow | hhigh
  · rw [if_pos hlow, immLiteral_getLsbD v m hlow]
  · rw [if_neg (by omega), BitVec.getLsbD_setWidth, decide_eq_true (by omega), Bool.true_and, h (b - 7) (by omega)]
    congr 1
    omega

theorem foldl_immChain_literals (v : Word) (m : Nat) (x : Word) (h : AgreesFrom v (7 * m) x) :
    ((List.range m).map (immLiteral v m)).foldl immChain x = v := by
  induction m generalizing x with
  | zero => exact h.eq
  | succ m ih =>
    rw [immLiterals_succ, List.foldl_cons]
    exact ih _ (immChain_agreesFrom h)

/-- Settles O3: the first literal gives the top bits of `v` with its sign, each later one the 7 bits below. -/
theorem immExpansion : Obligations.ImmExpansion := by
  intro v
  obtain ⟨m, hm, hlen, hbounds⟩ := immLength_spec v
  refine ⟨immLiteral v (m + 1) 0, (List.range m).map (immLiteral v m), ?_, by simpa using hm,
    foldl_immChain_literals v m _ (immFirst_agreesFrom hbounds)⟩
  rw [immLiterals, hlen, immLiterals_succ]

end Sys2Proof
end

section
/-! SUPPORT. The stack-relative opcodes access by access (rules R162 to R165). -/

namespace Sys2Proof.Machine

/-- Settles O39: each opcode access by access, at the offset as a number. -/
theorem stackRelative : Obligations.StackRelative := by
  refine ⟨fun s x v b1 b2 h1 h2 => ?storesp, fun s x v b1 b2 h1 h2 => ?loadsp,
    fun s n w a b1 b2 b3 h1 h2 h3 => ?addsp⟩
  case storesp =>
    rw [← sprelOffset_eq] at h2
    exact .trans (pop_finish_of_answers h1) (memWrite4_finish_of_answers h2)
  case loadsp =>
    rw [← sprelOffset_eq] at h1
    exact .trans (memRead4_finish_of_answers h1) (pushNext_of_answers h2)
  case addsp =>
    rw [← addspOffset_eq] at h1
    exact .trans (memRead4_finish_of_answers h1) <| .trans (pop_finish_of_answers h2) <|
      pushNext_slot_of_answers (add_four_sub_four _) (align4_align4 _) h3

end Sys2Proof.Machine
end

section
/-! SUPPORT. The frame of the opcodes that store nothing, and of those that store where they say (`KeptOutside`): after
the pops, which only read the bus (`ReadSince`), comes the end of the opcode, or its one store and then the end. -/

namespace Sys2Proof.Machine

open Sys2Proof.Config Sys2Proof.Claims

/-- `t` has the registers of `s` but `pc` and `sp`, the stack pointer `sp`, and the bytes of `s` at the addresses
`outside`. -/
structure KeptOutside (s : State) (sp : Word) (outside : Word → Prop) (t : State) : Prop where
  registers : registersKept s t
  sp_eq : t.sp = sp
  bytes : bytesKept s.bus t.bus outside

/-- The state an access leaves with a value is `s` but for `pc`, `sp` and the bytes not `outside`. -/
def Access.KeepsOutside {α : Type} (s : State) (sp : Word) (outside : Word → Prop) (x : Access α) : Prop :=
  ∀ v t, x = .done v t → KeptOutside s sp outside t

/-- Where the outcome is a next state, it is `s` but for `pc`, `sp` and the bytes not `outside`. -/
def Framed (s : State) (sp : Word) (outside : Word → Prop) (o : Host.Outcome State Fault Refusal) : Prop :=
  ∀ t, o = .next t → KeptOutside s sp outside t

theorem ReadSince.keptOutside {s u : State} (h : ReadSince s u) : KeptOutside s u.sp (fun _ => True) u :=
  ⟨h.registers, rfl, h.bytes⟩

section Shapes

variable {s u : State} {sp : Word} {outside : Word → Prop}

theorem KeptOutside.withPc (h : KeptOutside s sp outside u) (v : Word) : KeptOutside s sp outside (u.withPc v) :=
  ⟨h.registers, h.sp_eq, h.bytes⟩

/-- An opcode's end by a write of `pc`. -/
theorem KeptOutside.framed (h : KeptOutside s sp outside u) (v : Word) :
    Framed s sp outside (.next (u.withPc v)) := by
  intro t ht
  cases ht
  exact h.withPc v

theorem registersKept_trans {t : State} (h : registersKept s u) (h' : registersKept u t) : registersKept s t := by
  obtain ⟨him, hst, hps, hprev, hrep, hshape⟩ := h
  obtain ⟨him', hst', hps', hprev', hrep', hshape'⟩ := h'
  exact ⟨him'.trans him, hst'.trans hst, hps'.trans hps, hprev'.trans hprev, hrep'.trans hrep,
    hshape'.trans hshape⟩

/-- Two stores, one after the other. -/
theorem KeptOutside.trans {t : State} {outside' : Word → Prop} (h : KeptOutside s sp outside u)
    (h' : KeptOutside u u.sp outside' t) : KeptOutside s sp (fun x => outside x ∧ outside' x) t where
  registers := registersKept_trans h.registers h'.registers
  sp_eq := h'.sp_eq.trans h.sp_eq
  bytes x hx := (h'.bytes x hx.2).trans (h.bytes x hx.1)

theorem memWrite4_keepsOutside (h : ReadSince s u) (a v : Word) :
    (memWrite4 a v u).KeepsOutside s u.sp (outsideWord a) := by
  intro _ t ht
  obtain ⟨_, b, hb, rfl⟩ := memWrite4_done ht
  obtain ⟨hregs, hbytes⟩ := h.after_request hb
  exact ⟨hregs, rfl, fun x hx => hbytes x (not_storesTo_of_outsideWord hx)⟩

theorem memWrite1_keepsOutside (h : ReadSince s u) (a : Word) (v : Byte) :
    (memWrite1 a v u).KeepsOutside s u.sp (fun x => x ≠ a) := by
  intro _ t ht
  obtain ⟨_, b, hb, rfl⟩ := memWrite1_done ht
  obtain ⟨hregs, hbytes⟩ := h.after_request hb
  exact ⟨hregs, rfl, hbytes⟩

theorem memWrite2_keepsOutside (h : ReadSince s u) (a : Word) (v : BitVec 16) :
    (memWrite2 a v u).KeepsOutside s u.sp (fun x => x ≠ a ∧ x ≠ a + 1) := by
  intro _ t ht
  obtain ⟨_, t1, h1, h2⟩ := Access.andThen_done_iff.1 ht
  exact (memWrite1_keepsOutside h a _ _ t1 h1).trans (memWrite1_keepsOutside (.refl t1) (a + 1) _ _ t h2)

/-- The end of an opcode after its store. -/
theorem Access.KeepsOutside.nextPc_framed {α : Type} {x : Access α} (hx : x.KeepsOutside s sp outside) :
    Framed s sp outside (x.finish fun _ u => nextPc u) := by
  intro t ht
  obtain ⟨v, u, hu, hk⟩ := Access.finish_next ht
  exact (hx v u hu).framed _ t hk

/-- After an access that only reads, the frame is that of what follows. -/
theorem Access.ReadsOnly.framed {α : Type} {x : Access α} {k : α → State → Host.Outcome State Fault Refusal}
    {sp' : Word} (hx : x.ReadsOnly s sp') (hk : ∀ v u, ReadSince s u → u.sp = sp' → Framed s sp outside (k v u)) :
    Framed s sp outside (x.finish k) := by
  intro t ht
  obtain ⟨v, u, hu, hkt⟩ := Access.finish_next ht
  obtain ⟨hread, hsp⟩ := hx v u hu
  exact hk v u hread hsp t hkt

/-- A frame of an opcode is a frame of its body. -/
theorem Framed.of_eq {o o' : Host.Outcome State Fault Refusal} (ho : o = o') (h : Framed s sp outside o') :
    Framed s sp outside o := ho ▸ h

/-- What the frame says of registers, stack pointer and bytes. -/
theorem Framed.parts {t : State} {o : Host.Outcome State Fault Refusal} (h : Framed s sp outside o)
    (ht : o = .next t) : registersKept s t ∧ t.sp = sp ∧ bytesKept s.bus t.bus outside := by
  obtain ⟨hregs, hsp, hbytes⟩ := h t ht
  exact ⟨hregs, hsp, hbytes⟩

end Shapes

/-! ## The opcodes that store nothing -/

theorem frameNoStore_of {mode : State → Prop} {i : Instr} {sp : State → Word}
    (h : ∀ s, mode s → Framed s (sp s) (fun _ => True) (exec i s)) : frameNoStore mode i := fun s t hs ht =>
  ⟨(h s hs t ht).registers, (h s hs t ht).bytes⟩

/-- A pop, then a jump. -/
theorem pop_jump_framed (s : State) (target : Word → State → Word) :
    Framed s (spPop1 s) (fun _ => True) ((pop s).finish fun a u => .next (u.withPc (target a u))) :=
  (pop_readsOnly (.refl s)).framed fun _ _ hr hsp => (hsp ▸ hr.keptOutside).framed _

theorem branchOp_framed (taken : Word → Bool) (s : State) :
    Framed s (spPop2 s) (fun _ => True) (branchOp taken s) := by
  refine (pop_readsOnly (.refl s)).framed fun a u hr hsp => (pop_readsOnly hr).framed fun b u' hr' hsp' => ?_
  have hkept : KeptOutside s (spPop2 s) (fun _ => True) u' := by
    simpa only [hsp', hsp] using hr'.keptOutside
  split
  · exact hkept.framed _
  · exact hkept.framed _

theorem exec_nop_framed (s : State) : Framed s s.sp (fun _ => True) (exec .nop s) :=
  (ReadSince.refl s).keptOutside.framed _

theorem exec_poppc_framed (s : State) : Framed s (spPop1 s) (fun _ => True) (exec .poppc s) :=
  pop_jump_framed s fun a _ => a

theorem exec_poppcrel_framed {s : State} (hs : native s) : Framed s (spPop1 s) (fun _ => True) (exec .poppcrel s) :=
  .of_eq (emulate_of_native (by decide) hs) (pop_jump_framed s fun a u => u.pc + a)

theorem exec_eqbranch_framed {s : State} (hs : native s) : Framed s (spPop2 s) (fun _ => True) (exec .eqbranch s) :=
  .of_eq (emulate_of_native (by decide) hs) (branchOp_framed _ s)

theorem exec_neqbranch_framed {s : State} (hs : native s) : Framed s (spPop2 s) (fun _ => True) (exec .neqbranch s) :=
  .of_eq (emulate_of_native (by decide) hs) (branchOp_framed _ s)

/-- POPSP's stack pointer is the popped word, so its frame names none. -/
theorem exec_popsp_frame : frameNoStore anyMode .popsp := by
  intro s t _ ht
  obtain ⟨a, u, hu, hk⟩ := Access.finish_next ht
  obtain ⟨hread, -⟩ := pop_readsOnly (.refl s) a u hu
  cases hk
  exact ⟨hread.registers, hread.bytes⟩

/-- Settles O55: NOP and the jumps by their frames, BREAKPOINT and ILLEGAL by the next state they name. -/
theorem Frames.frameNoStore : Obligations.FrameNoStore := by
  refine ⟨frameNoStore_of fun s _ => exec_nop_framed s, frameNoStore_of fun s _ => exec_poppc_framed s,
    exec_popsp_frame, frameNoStore_of fun _ => exec_eqbranch_framed, frameNoStore_of fun _ => exec_neqbranch_framed,
    frameNoStore_of fun _ => exec_poppcrel_framed, fun s t ht => (exec_nop_framed s t ht).sp_eq, ?pop, ?branch,
    ?breakpoint, ?illegal⟩
  case pop =>
    rintro s t (ht | ⟨hs, ht⟩)
    · exact (exec_poppc_framed s t ht).sp_eq
    · exact (exec_poppcrel_framed hs t ht).sp_eq
  case branch =>
    rintro s t hs (ht | ht)
    · exact (exec_eqbranch_framed hs t ht).sp_eq
    · exact (exec_neqbranch_framed hs t ht).sp_eq
  case breakpoint =>
    intro s t ht
    cases (execBreakpoint_eq s).symm.trans ht
    exact ⟨rfl, rfl, rfl, rfl, rfl, rfl⟩
  case illegal =>
    intro op s t ht
    cases ht
    exact ⟨rfl, rfl, rfl, rfl, rfl, rfl⟩

/-! ## The opcodes that store -/

/-- A pop of an address, a pop of a value and a write at the address: the frame, where the bus answers the first pop
with `a`. -/
theorem pop_pop_write_framed {write : Word → Word → State → Access Unit} {outside : Word → Prop} {s : State}
    {a : Word} {b1 : Bus} (h1 : Answers s.bus (.get32 (align4 s.sp)) a b1)
    (hw : ∀ v u, ReadSince s u → (write a v u).KeepsOutside s u.sp outside) :
    Framed s (spPop2 s) outside
      ((pop s).finish fun a u => (pop u).finish fun v u => (write a v u).finish fun _ u => nextPc u) := by
  have hpop := pop_of_answers h1
  obtain ⟨hr, -⟩ := pop_readsOnly (.refl s) a _ hpop
  rw [hpop, Access.finish_done]
  exact (pop_readsOnly hr).framed fun v u hr' hsp' => (hsp' ▸ hw v u hr').nextPc_framed

/-- Settles O57: each opcode only reads and pops before its write. -/
theorem Frames.frameStore : Obligations.FrameStore := by
  refine ⟨fun s t a b1 h1 ht => ?store, fun s t x ht => ?storesp, fun s t a b1 hs h1 ht => ?storeb,
    fun s t a b1 hs h1 ht => ?storeh⟩
  case store => exact (pop_pop_write_framed h1 fun v _ hr => memWrite4_keepsOutside hr (align4 a) v).parts ht
  case storesp =>
    have hframe : Framed s (spPop1 s) (outsideWord (sprelAddr s.sp (sprelOffset x))) (exec (.storesp x) s) :=
      (pop_readsOnly (.refl s)).framed fun v _ hr hsp => (hsp ▸ memWrite4_keepsOutside hr _ v).nextPc_framed
    exact hframe.parts ht
  case storeb =>
    rw [exec_storeb_of_native hs] at ht
    exact (pop_pop_write_framed h1 fun v _ hr => memWrite1_keepsOutside hr a (v.setWidth 8)).parts ht
  case storeh =>
    rw [exec_storeh_of_nativeHalf hs] at ht
    exact (pop_pop_write_framed h1 fun v _ hr => memWrite2_keepsOutside hr a (v.setWidth 16)).parts ht

end Sys2Proof.Machine
end

section
/-! SUPPORT. The step from the fetched byte (rule R130), and the exact opcodes that stop the core or move the stack
pointer (rules R131 to R133, R141, R144, R273). -/

namespace Sys2Proof.Machine

open Sys2Proof.Config

/-- A step outside Running (rule R271). -/
theorem step_of_not_running {s : State} (h : s.state ≠ .running) : step s = .fault .notRunning := if_neg h

/-- A Running step whose fetch the bus answers (rule R130). -/
theorem step_of_answers {s : State} {w : Word} {b : Bus} (hs : s.state = .running)
    (h : Answers s.bus (.get s.pc) w b) :
    step s = exec (decodeByte (w.setWidth 8)) { s with prevIm := s.lastIm, lastIm := false, report := .ok, bus := b } :=
  (if_pos hs).trans (memRead1_finish_of_answers (s := s.beginStep) h)

/-- Settles O7: the step by its fetch; the byte of `i` decodes to `i` by `decodeEncode`. -/
theorem stepRunsDecoded : Obligations.StepRunsDecoded := by
  intro s w b hs h
  refine ⟨step_of_answers hs h, fun i hi hw => ?_⟩
  rw [step_of_answers hs h, hw, decodeEncode i hi]

/-- Settles O33: BREAKPOINT by its parameter (D7), the others by their one next state. -/
theorem stopsAndNop : Obligations.StopsAndNop := by
  refine ⟨fun s h => (execBreakpoint_eq s).trans ?_, fun s h => (execBreakpoint_eq s).trans ?_, fun _ => rfl,
    fun s op => ⟨rfl, step_of_not_running nofun⟩⟩
  · rw [h]; rfl
  · rw [h]; rfl

/-- Settles O34: PUSHSP by its push (D9), POPPC and POPSP by their one pop. -/
theorem stackPointerOps : Obligations.StackPointerOps :=
  ⟨fun _ _ h => pushNext_of_answers h, fun _ _ _ h => pop_finish_of_answers h, fun _ _ _ h => pop_finish_of_answers h⟩

end Sys2Proof.Machine
end

section
/-! SUPPORT. The values of the shifts and of DIV and MOD (rules R206 to R208, R218, R219): the shift helper is the shift
of words by the count's magnitude, and off the two faults DIV and MOD are the signed division of words. -/

namespace Sys2Proof.Machine

open Sys2Proof.Config

/-! ## Shifts -/

/-- A count that is not negative shifts left; a shift by 32 or more leaves nothing of the word (rule R206). -/
theorem shift_natCast (v : Word) (n : Nat) : shift v n = v <<< n := by
  unfold shift
  by_cases h : 32 ≤ n
  · rw [if_pos (by omega), BitVec.shiftLeft_eq_zero h]
    rfl
  · rw [if_neg (by omega), if_pos (by omega), Int.toNat_natCast]

/-- A negative count shifts right by its magnitude; a shift by 32 or more leaves nothing of the word (rule R206). -/
theorem shift_neg_natCast (v : Word) (n : Nat) : shift v (-(n : Int)) = v >>> n := by
  unfold shift
  rw [if_neg (by omega)]
  by_cases hzero : n = 0
  · subst hzero
    simp
  rw [if_neg (by omega)]
  by_cases h : 32 ≤ n
  · rw [if_pos (by omega), BitVec.ushiftRight_eq_zero h]
    rfl
  · rw [if_neg (by omega), Int.neg_neg, Int.toNat_natCast]

/-- The ones that fill the vacated bits of a right shift, beside the shifted word (rule R207, D13). -/
theorem ushiftRight_or_fill {w : Nat} (v : BitVec w) (n : Nat) :
    v >>> n ||| ~~~(BitVec.allOnes w >>> n) = ~~~(~~~v >>> n) := by
  apply BitVec.eq_of_getLsbD_eq
  intro i hi
  by_cases hfill : n + i < w
  · simp [hi, hfill]
  · simp [hi, hfill]

/-- The arithmetic shift by a negative count is the sign-filling right shift by its magnitude (rule R207). -/
theorem ashr_neg_natCast (v : Word) (n : Nat) : ashr v (-(n : Int)) = v.sshiftRight n := by
  have hsign : v.getLsbD 31 = v.msb := (BitVec.msb_eq_getLsbD_last v).symm
  rw [ashr, hsign, shift_neg_natCast, shift_neg_natCast]
  cases hmsb : v.msb with
  | false =>
    rw [BitVec.sshiftRight_eq_of_msb_false hmsb, if_neg Bool.false_ne_true]
    exact BitVec.or_zero
  | true =>
    rw [BitVec.sshiftRight_eq_of_msb_true hmsb, if_pos rfl]
    exact ushiftRight_or_fill v n

/-- A sign-filling right shift by 32 or more leaves the sign alone. -/
theorem sshiftRight_of_ge (v : Word) {n : Nat} (h : 32 ≤ n) :
    v.sshiftRight n = if v.msb then BitVec.allOnes 32 else 0 := by
  cases hmsb : v.msb with
  | false => exact (BitVec.sshiftRight_eq_of_msb_false hmsb).trans (BitVec.ushiftRight_eq_zero h)
  | true =>
    rw [BitVec.sshiftRight_eq_of_msb_true hmsb, BitVec.ushiftRight_eq_zero h]
    exact BitVec.not_zero

/-- The 6-bit count is the popped word modulo 64 (rule R208). -/
theorem shiftCount_mask6 (a : Word) : shiftCount .mask6 a = ((a.toNat % 64 : Nat) : Int) :=
  congrArg Nat.cast (Nat.and_two_pow_sub_one_eq_mod a.toNat 6)

/-- On 0 .. 31 the two count modes agree (rule R208). -/
theorem shiftCount_of_lt (mode : ShiftCountMode) {a : Word} (h : a.toNat < 32) :
    shiftCount mode a = (a.toNat : Int) := by
  cases mode with
  | signed32 => exact BitVec.toInt_eq_toNat_of_lt (by omega)
  | mask6 => rw [shiftCount_mask6, Nat.mod_eq_of_lt (by omega)]

/-- Settles O43: each shift is a shift of words by the count's magnitude, which from 32 on leaves zero or the sign. -/
theorem shiftValues : Obligations.ShiftValues := by
  refine ⟨fun v n _ => ⟨shift_natCast v n, shift_neg_natCast v n, ashr_neg_natCast v n⟩,
    fun v n h => ⟨?left, ?right, (ashr_neg_natCast v n).trans (sshiftRight_of_ge v h)⟩,
    fun a => ⟨rfl, shiftCount_mask6 a⟩, fun mode _ => shiftCount_of_lt mode⟩
  case left => exact (shift_natCast v n).trans (BitVec.shiftLeft_eq_zero h)
  case right => exact (shift_neg_natCast v n).trans (BitVec.ushiftRight_eq_zero h)

/-! ## DIV and MOD -/

/-- Off the overflow the quotient does not wrap (rule R218). -/
theorem divWord_toInt {a b : Word} (h : ¬ (a = 0x80000000 ∧ b = 0xFFFFFFFF)) :
    (divWord a b).toInt = a.toInt.tdiv b.toInt := by
  have hsdiv : a ≠ BitVec.intMin 32 ∨ b ≠ -1#32 := not_and_or.1 h
  rw [divWord, BitVec.toInt_ofInt, ← BitVec.toInt_sdiv, BitVec.toInt_sdiv_of_ne_or_ne a b hsdiv]

/-- The remainder never wraps (rule R219). -/
theorem modWord_toInt (a b : Word) : (modWord a b).toInt = a.toInt.tmod b.toInt := by
  rw [modWord_eq, ← BitVec.toInt_srem, BitVec.ofInt_toInt]

/-- A remainder is smaller than its divisor. -/
theorem natAbs_tmod_lt (x : Int) {y : Int} (hy : y ≠ 0) : (x.tmod y).natAbs < y.natAbs := by
  rw [Int.natAbs_tmod]
  exact Nat.mod_lt _ (Int.natAbs_pos.2 hy)

/-- The remainder of a dividend that is not positive is not positive. -/
theorem tmod_nonpos_of_nonpos {x : Int} (y : Int) (hx : x ≤ 0) : x.tmod y ≤ 0 := by
  have hneg : 0 ≤ (-x).tmod y := Int.tmod_nonneg y (by omega)
  rw [Int.neg_tmod] at hneg
  omega

/-- Settles O45: quotient and remainder are those of the operands' integers, which have the rules' properties. -/
theorem divModValues : Obligations.DivModValues := by
  intro a b hb hab
  have hb' : b.toInt ≠ 0 := fun h => hb (BitVec.toInt_inj.1 h)
  rw [divWord_toInt hab, modWord_toInt]
  exact ⟨rfl, rfl, Int.tdiv_mul_add_tmod _ _, natAbs_tmod_lt _ hb', Int.tmod_nonneg _, tmod_nonpos_of_nonpos _⟩

end Sys2Proof.Machine
end

section
/-! SUPPORT. SWAP, DIV and MOD access by access and their frames (rules R204, R218 to R220): two pops, which only read
the bus, and then two pushes, or a push or an arithmetic fault. -/

namespace Sys2Proof.Machine

open Sys2Proof.Claims

theorem exec_div_of_native {s : State} (hs : native s) : exec .div s = divideOp divWord s :=
  emulate_of_native (by decide) hs

theorem exec_mod_of_native {s : State} (hs : native s) : exec .mod s = divideOp modWord s :=
  emulate_of_native (by decide) hs

/-! ## Results -/

/-- A native division on either row of rule R220: the pops are done, and the core stops. -/
theorem divideFault_of {i : Instr} {f : Word → Word → Word} (h : ∀ s, native s → exec i s = divideOp f s) :
    divideFault i := by
  intro s a b b1 b2 hs h1 h2
  have hpops := (h s hs).trans (pop_pop_of_answers h1 h2 _)
  refine ⟨fun hb => hpops.trans (if_pos hb), fun ha hb => hpops.trans ?_⟩
  have hne : b ≠ 0 := hb ▸ by decide
  rw [if_neg hne, if_pos ⟨ha, hb⟩]
  rfl

/-- Settles O46, by the shape of a division. -/
theorem divModFaults : Obligations.DivModFaults :=
  ⟨divideFault_of fun _ => exec_div_of_native, divideFault_of fun _ => exec_mod_of_native⟩

/-- Settles O47: two pops, then a push to each of the slots popped. -/
theorem swapResult : Obligations.SwapResult := fun _ _ _ _ _ _ _ hs h1 h2 h3 h4 =>
  (exec_swap_of_native hs).trans <| .trans (pop_pop_of_answers h1 h2 _) <|
    .trans (push_slot_finish_of_answers (add_eight_sub_four _) (align4_add_four_align4 _) h3) <|
    pushNext_slot_of_answers (add_four_sub_four _) (align4_align4 _) h4

/-! ## Frames -/

/-- `u` is `s` after two pops: bus reads and moves of `sp`, to two words up. -/
structure PoppedTwice (s u : State) : Prop where
  reads : ReadSince s u
  pc_eq : u.pc = s.pc
  sp_eq : u.sp = spPop2 s

/-- What begins with two pops and gives a next state goes on from the state after them. -/
theorem pop_pop_next {s t : State} {k : Word → Word → State → Host.Outcome State Fault Refusal}
    (h : ((pop s).finish fun a s => (pop s).finish fun b s => k a b s) = .next t) :
    ∃ a b u, PoppedTwice s u ∧ k a b u = .next t := by
  obtain ⟨a, u1, hpop1, h⟩ := Access.finish_next h
  obtain ⟨b, u2, hpop2, h⟩ := Access.finish_next h
  obtain ⟨hread1, -⟩ := pop_readsOnly (.refl s) a u1 hpop1
  obtain ⟨hread2, -⟩ := pop_readsOnly hread1 b u2 hpop2
  obtain ⟨_, -, rfl⟩ := pop_done hpop1
  obtain ⟨_, -, rfl⟩ := pop_done hpop2
  exact ⟨a, b, _, ⟨hread2, rfl, rfl⟩, h⟩

/-- A division that gives a next state went on to a push or to one of its faults. -/
theorem divideOp_next {f : Word → Word → Word} {s t : State} (h : divideOp f s = .next t) :
    ∃ u, PoppedTwice s u ∧ ((∃ v, pushNext v u = .next t) ∨ ∃ cause, arithmeticFault cause u = .next t) := by
  obtain ⟨a, b, u, hu, h⟩ := pop_pop_next h
  refine ⟨u, hu, ?_⟩
  split at h
  · exact .inr ⟨_, h⟩
  · split at h
    · exact .inr ⟨_, h⟩
    · exact .inl ⟨_, h⟩

/-- A push after a push. -/
theorem PushedSince.push {s u t : State} {sp : Word} (h : PushedSince s sp u) (h' : PushedSince u u.sp t) :
    registersKept s t ∧ t.sp = sp - 4 - 4 ∧
      bytesKept s.bus t.bus fun x => outsideWord (align4 (sp - 4)) x ∧ outsideWord (align4 (sp - 4 - 4)) x := by
  obtain ⟨hregs, hsp, hbytes⟩ := h
  obtain ⟨hregs', hsp', hbytes'⟩ := h'
  rw [hsp] at hsp' hbytes'
  exact ⟨registersKept_trans hregs hregs', hsp', fun x hx => (hbytes' x hx.2).trans (hbytes x hx.1)⟩

/-- The frame of SWAP: two pops and two pushes. -/
theorem swapBody_frame {s t : State} (h : swapBody s = .next t) :
    registersKept s t ∧ t.sp = spPop2 s - 4 - 4 ∧ bytesKept s.bus t.bus fun x =>
      outsideWord (align4 (spPop2 s - 4)) x ∧ outsideWord (align4 (spPop2 s - 4 - 4)) x := by
  obtain ⟨a, b, u, ⟨hread, -, hsp⟩, h⟩ := pop_pop_next h
  obtain ⟨_, u', hpush, h⟩ := Access.finish_next h
  have hfirst : PushedSince s (spPop2 s) u' := hsp ▸ push_pushedSince hread hpush
  exact hfirst.push (pushNext_framed (.refl u') rfl b t h)

/-- The frame of a division: two pops, and a push or a stop with nothing stored. -/
theorem divideOp_frame {f : Word → Word → Word} {s t : State} (h : divideOp f s = .next t) :
    PushedSince s (spPop2 s) t ∨
    (t.state = .stopped ∧ t.pc = s.pc ∧ t.sp = spPop2 s ∧ t.lastIm = s.lastIm ∧ t.params = s.params ∧
      t.prevIm = s.prevIm ∧ t.bus.shape = s.bus.shape ∧ bytesKept s.bus t.bus fun _ => True) := by
  obtain ⟨u, ⟨hread, hpc, hsp⟩, ⟨v, h⟩ | ⟨cause, h⟩⟩ := divideOp_next h
  · exact .inl (pushNext_framed hread hsp v t h)
  · obtain ⟨⟨him, -, hps, hprev, -, hshape⟩, hbytes⟩ := hread
    cases h
    exact .inr ⟨rfl, hpc, hsp, him, hps, hprev, hshape, hbytes⟩

/-- Settles O58, by the frames of the two shapes. -/
theorem frameSwapDivide : Obligations.FrameSwapDivide := by
  refine ⟨fun s t hs ht => ?swap, fun i s t hi hs ht => ?divide⟩
  case swap => exact swapBody_frame ((exec_swap_of_native hs).symm.trans ht)
  case divide =>
    rcases hi with rfl | rfl
    · exact divideOp_frame ((exec_div_of_native hs).symm.trans ht)
    · exact divideOp_frame ((exec_mod_of_native hs).symm.trans ht)

end Sys2Proof.Machine
end

section
/-! SUPPORT. Where control goes after an instruction (rules R21, R183, R255): on to the next opcode, to the trap of its
slot, or nowhere because the core sleeps or has stopped, unless it is one of the listed transfers. -/

namespace Sys2Proof.Machine

open Sys2Proof.Claims

/-- How an instruction `i` begun in `s` that is no listed transfer leaves `pc`: on the next opcode, at the trap vector
of its slot, or kept where the core sleeps or has stopped; a fault gives no next state. -/
inductive FlowsOn (i : Instr) (s : State) : Host.Outcome State Fault Refusal → Prop where
  | goOn {t : State} (hpc : t.pc = s.pc + 1) : FlowsOn i s (.next t)
  | trap {t : State} {index : BitVec 5} (hi : i = emulateSlot index) (hpc : t.pc = trapVector index) :
    FlowsOn i s (.next t)
  | halt {t : State} (hpc : t.pc = s.pc) (ht : t.state = .sleeping ∨ t.state = .stopped) : FlowsOn i s (.next t)
  | stop (f : Fault) : FlowsOn i s (.fault f)

section Flow

variable {i : Instr} {s t : State}

theorem Access.finish_flowsOn {α : Type} {x : Access α} {k : α → State → Host.Outcome State Fault Refusal}
    (hx : x.StaysWithin s) (hk : ∀ v u, Within s u → FlowsOn i s (k v u)) : FlowsOn i s (x.finish k) := by
  cases hx with
  | done v ht => exact hk v _ ht
  | stop hf => exact .stop _

theorem pop_finish_flowsOn {k : Word → State → Host.Outcome State Fault Refusal} (ht : Within s t)
    (hk : ∀ v u, Within s u → FlowsOn i s (k v u)) : FlowsOn i s ((pop t).finish k) :=
  Access.finish_flowsOn (pop_within ht) hk

/-! ## The shapes of opcodes -/

theorem nextPc_flowsOn (ht : Within s t) : FlowsOn i s (nextPc t) := .goOn (congrArg (· + 1) ht.pc_eq)

theorem pushNext_flowsOn (v : Word) (ht : Within s t) : FlowsOn i s (pushNext v t) :=
  Access.finish_flowsOn (push_within v ht) fun _ _ ht => nextPc_flowsOn ht

theorem takeTrap_flowsOn {index : BitVec 5} (hi : i = emulateSlot index) (ht : Within s t) :
    FlowsOn i s (takeTrap index t) :=
  Access.finish_flowsOn (push_within _ ht) fun _ _ _ => .trap hi rfl

theorem arithmeticFault_flowsOn (cause : ArithCause) (ht : Within s t) : FlowsOn i s (arithmeticFault cause t) :=
  .halt ht.pc_eq (.inr rfl)

theorem unaryOp_flowsOn (f : Word → Word) (ht : Within s t) : FlowsOn i s (unaryOp f t) :=
  pop_finish_flowsOn ht fun _ _ ht => pushNext_flowsOn _ ht

theorem binaryOp_flowsOn (f : Word → Word → Word) (ht : Within s t) : FlowsOn i s (binaryOp f t) :=
  pop_finish_flowsOn ht fun _ _ ht => unaryOp_flowsOn _ ht

theorem divideOp_flowsOn (f : Word → Word → Word) (ht : Within s t) : FlowsOn i s (divideOp f t) := by
  refine pop_finish_flowsOn ht fun a _ ht => pop_finish_flowsOn ht fun b _ ht => ?_
  split
  · exact arithmeticFault_flowsOn _ ht
  · split
    · exact arithmeticFault_flowsOn _ ht
    · exact pushNext_flowsOn _ ht

/-- A slot's operation flows on if its native body does: otherwise it is the trap of that slot (rule R182). -/
theorem emulate_flowsOn {index : BitVec 5} {body : State → Host.Outcome State Fault Refusal}
    (hi : i = emulateSlot index) (hb : FlowsOn i s (body s)) : FlowsOn i s (emulate index body s) := by
  rcases emulate_cases index body s with ⟨-, -, he⟩ | ⟨-, he⟩
  · exact he ▸ hb
  · exact he ▸ takeTrap_flowsOn hi .refl

theorem execBreakpoint_flowsOn (s : State) : FlowsOn i s (execBreakpoint s) := by
  unfold execBreakpoint
  split
  · exact .goOn rfl
  · exact .halt rfl (.inl rfl)

theorem pushImmediate_flowsOn (v : Word) (ht : Within s t) : FlowsOn i s (pushImmediate v t) :=
  Access.finish_flowsOn (push_within v ht) fun _ _ ht => .goOn (congrArg (· + 1) ht.pc_eq)

theorem execIm_flowsOn (k : BitVec 7) (s : State) : FlowsOn i s (execIm k s) := by
  unfold execIm
  split
  · exact pop_finish_flowsOn .refl fun _ _ ht => pushImmediate_flowsOn _ ht
  · exact pushImmediate_flowsOn _ .refl

end Flow

/-! ## Every instruction -/

/-- Every instruction off the list of rule R255 flows on. -/
theorem exec_flowsOn (i : Instr) (s : State) (hi : ¬ transfersControl i) : FlowsOn i s (exec i s) := by
  cases i with
  | poppc | eqbranch | neqbranch | poppcrel | callpcrel => exact absurd (by decide) hi
  | breakpoint => exact execBreakpoint_flowsOn s
  | illegal op => exact .halt rfl (.inr rfl)
  | nop => exact nextPc_flowsOn .refl
  | pushsp => exact pushNext_flowsOn _ .refl
  | popsp => exact pop_finish_flowsOn .refl fun _ _ ht => nextPc_flowsOn (ht.alignSp _)
  | add | and | or => exact binaryOp_flowsOn _ .refl
  | not | flip => exact unaryOp_flowsOn _ .refl
  | load =>
    exact pop_finish_flowsOn .refl fun _ _ ht =>
      Access.finish_flowsOn (memRead4_within _ ht) fun _ _ ht => pushNext_flowsOn _ ht
  | store =>
    exact pop_finish_flowsOn .refl fun _ _ ht => pop_finish_flowsOn ht fun _ _ ht =>
      Access.finish_flowsOn (memWrite4_within _ _ ht) fun _ _ ht => nextPc_flowsOn ht
  | im k => exact execIm_flowsOn k s
  | storesp x =>
    exact pop_finish_flowsOn .refl fun _ _ ht =>
      Access.finish_flowsOn (memWrite4_within _ _ ht) fun _ _ ht => nextPc_flowsOn ht
  | loadsp x => exact Access.finish_flowsOn (memRead4_within _ .refl) fun _ _ ht => pushNext_flowsOn _ ht
  | addsp n => exact Access.finish_flowsOn (memRead4_within _ .refl) fun _ _ ht => unaryOp_flowsOn _ ht
  | emulate0 | call | config | pushpc | syscall | halfmult | emulate31 => exact takeTrap_flowsOn rfl .refl
  | loadh =>
    exact emulate_flowsOn rfl <| pop_finish_flowsOn .refl fun _ _ ht =>
      Access.finish_flowsOn (memRead2_within _ ht) fun _ _ ht => pushNext_flowsOn _ ht
  | loadb =>
    exact emulate_flowsOn rfl <| pop_finish_flowsOn .refl fun _ _ ht =>
      Access.finish_flowsOn (memRead1_within _ ht) fun _ _ ht => pushNext_flowsOn _ ht
  | storeh =>
    exact emulate_flowsOn rfl <| pop_finish_flowsOn .refl fun _ _ ht => pop_finish_flowsOn ht fun _ _ ht =>
      Access.finish_flowsOn (memWrite2_within _ _ ht) fun _ _ ht => nextPc_flowsOn ht
  | storeb =>
    exact emulate_flowsOn rfl <| pop_finish_flowsOn .refl fun _ _ ht => pop_finish_flowsOn ht fun _ _ ht =>
      Access.finish_flowsOn (memWrite1_within _ _ ht) fun _ _ ht => nextPc_flowsOn ht
  | swap =>
    exact emulate_flowsOn rfl <| pop_finish_flowsOn .refl fun _ _ ht => pop_finish_flowsOn ht fun _ _ ht =>
      Access.finish_flowsOn (push_within _ ht) fun _ _ ht => pushNext_flowsOn _ ht
  | neg | pushspadd => exact emulate_flowsOn rfl (unaryOp_flowsOn _ .refl)
  | div | mod => exact emulate_flowsOn rfl (divideOp_flowsOn _ .refl)
  | lessthan | lessthanorequal | ulessthan | ulessthanorequal | eq | neq | mult | sub | xor | lshiftright | ashiftleft
  | ashiftright => exact emulate_flowsOn rfl (binaryOp_flowsOn _ .refl)

/-- Settles O18: an instruction is on the list of rule R255, or flows on. -/
theorem controlTransfers : Obligations.ControlTransfers := by
  intro i s t h
  by_cases hi : transfersControl i
  · exact .inr (.inl hi)
  · have hflow : FlowsOn i s (.next t) := h ▸ exec_flowsOn i s hi
    cases hflow with
    | goOn hpc => exact .inl hpc
    | trap hslot hpc => exact .inr (.inr (.inl ⟨_, hslot, hpc⟩))
    | halt hpc ht => exact .inr (.inr (.inr ⟨hpc, ht⟩))

end Sys2Proof.Machine
end

section
/-! SUPPORT. LOADB, STOREB, PUSHSPADD and CALLPCREL access by access (rules R240, R241, R253, R254). -/

namespace Sys2Proof.Machine

/-- Settles O48: one byte access at the popped address, around it the pops and the push of the opcode. -/
theorem byteAccess : Obligations.ByteAccess := by
  refine ⟨fun s a w b1 b2 b3 hs h1 h2 h3 => ?loadb, fun s a v b1 b2 b3 hs h1 h2 h3 => ?storeb⟩
  case loadb =>
    rw [← setWidth_byte] at h3
    exact (exec_loadb_of_native hs).trans <| .trans (pop_finish_of_answers h1) <|
      .trans (memRead1_finish_of_answers h2) <| pushNext_slot_of_answers (add_four_sub_four _) (align4_align4 _) h3
  case storeb =>
    exact (exec_storeb_of_native hs).trans <| .trans (pop_pop_of_answers h1 h2 _) (memWrite1_finish_of_answers h3)

/-- Settles O51: PUSHSPADD by its one-operand form, CALLPCREL by its pop and its push to the slot popped. -/
theorem pushspaddCallpcrel : Obligations.PushspaddCallpcrel :=
  ⟨pushspaddWhole.1, fun _ _ _ _ hs h1 h2 => (exec_callpcrel_of_native hs).trans <|
    .trans (pop_finish_of_answers h1) (push_slot_finish_of_answers (add_four_sub_four _) (align4_align4 _) h2)⟩

end Sys2Proof.Machine
end

section
/-! SUPPORT. Why a step can stop (60_exceptions.md, rules R270, R271, R274, R279): outside Running, at the fetch, or at
an access of the instruction; nothing is refused. -/

namespace Sys2Proof.Machine

open Sys2Proof.Config

/-- No instruction ends in a refusal. -/
theorem Ending.ne_refused {i : Instr} {s : State} {o : Host.Outcome State Fault Refusal} (h : Ending i s o)
    (r : Refusal) : o ≠ .refused r := by
  rintro rfl
  cases h

/-- A stop of an instruction is a BusFault or a device that holds the step. -/
theorem StopsAt.busFault_or_deviceHolds {s : State} {f : Fault} (h : StopsAt s f) :
    (∃ e t, f = .busFault e t) ∨ ∃ op a, f = .deviceHolds op a := by
  cases h with
  | busFault ht hb => exact .inl ⟨_, _, rfl⟩
  | held op a => exact .inr ⟨op, a, rfl⟩

theorem exec_ne_refused (i : Instr) (s : State) (r : Refusal) : exec i s ≠ .refused r :=
  (exec_ending i .refl).ne_refused r

/-- A part of the step is refused only where its continuation is: an access refuses nothing. -/
theorem Access.finish_ne_refused {α : Type} (x : Access α) {k : α → State → Host.Outcome State Fault Refusal}
    {r : Refusal} (hk : ∀ v s, k v s ≠ .refused r) : x.finish k ≠ .refused r := by
  cases x with
  | done v s => exact hk v s
  | stop f => exact nofun

theorem step_ne_refused (s : State) (r : Refusal) : step s ≠ .refused r := by
  by_cases hs : s.state = .running
  · rw [step, if_pos hs]
    exact Access.finish_ne_refused _ fun _ _ => exec_ne_refused _ _ r
  · rw [step_of_not_running hs]
    exact nofun

/-- A Running step whose fetch the bus fails (rules R274, R279). -/
theorem step_of_fails {s : State} {e : BusError} {b : Bus} (hs : s.state = .running)
    (h : Fails s.bus (.get s.pc) e b) :
    step s = .fault (.busFault e { s with prevIm := s.lastIm, lastIm := false, report := .ok, bus := b }) :=
  (if_pos hs).trans (memRead1_finish_of_fails (s := s.beginStep) h)

/-- Settles O10: every instruction ends as `Ending` says, and none of its ways is a refusal or another fault. -/
theorem onlyBusStops : Obligations.OnlyBusStops :=
  ⟨exec_ne_refused, fun i _ _ h => (StopsAt.of_ending (h ▸ exec_ending i .refl)).busFault_or_deviceHolds,
    step_ne_refused⟩

/-- Settles O6, by the running check. -/
theorem stepNotRunning : Obligations.StepNotRunning := fun _ => step_of_not_running

/-- Settles O8: the fault of the fetch is the step's, in the state `beginStep` left (D11). -/
theorem fetchFault : Obligations.FetchFault := fun _ _ _ => step_of_fails

end Sys2Proof.Machine
end

section
/-! SUPPORT. The loader on the reference RAM (70_reset_and_hazards.md, rules R301 to R303): an image is loaded as
`Memory.writeBytes` stores it, a byte placed at `pc` is the one the step fetches, and the boot order ends Running. -/

namespace Sys2Proof.Machine

open Sys2Proof.Config

/-! ## An image in the RAM (rule R301) -/

/-- Store bytes at ascending addresses from `a` on. -/
def Memory.writeBytes (m : Memory) : Nat → List Byte → Memory
  | _, [] => m
  | a, v :: rest => (m.write a v).writeBytes (a + 1) rest

/-- An image that fits is loaded whole into the one RAM. -/
theorem loadBytes_ram {size : Word} {image : List Byte} {a : Nat} (m : Memory) (h : a + image.length ≤ size.toNat) :
    loadBytes (.cons (.leaf (.ram size m)) .empty) a image =
      .cons (.leaf (.ram size (m.writeBytes a image))) .empty := by
  induction image generalizing a m with
  | nil => rfl
  | cons v rest ih =>
    rw [List.length_cons] at h
    rw [loadBytes, Bus.loadByte_ram size m a v (by omega)]
    exact ih (m.write a v) (by omega)

theorem Memory.read_writeBytes_below (m : Memory) (image : List Byte) {a x : Nat} (h : x < a) :
    (m.writeBytes a image).read x = m.read x := by
  induction image generalizing a m with
  | nil => rfl
  | cons v rest ih => exact (ih (m.write a v) (by omega)).trans (m.read_write_other a x v (by omega))

/-- Byte `k` of the bytes written lies at `a + k`. -/
theorem Memory.read_writeBytes_same {m : Memory} (hm : m.wf) (a : Nat) {image : List Byte} {k : Nat}
    (hk : k < image.length) : (m.writeBytes a image).read (a + k) = image[k] := by
  induction image generalizing a m k with
  | nil => cases hk
  | cons v rest ih =>
    cases k with
    | zero => exact ((m.write a v).read_writeBytes_below rest (Nat.lt_succ_self a)).trans (m.read_write_same a v hm)
    | succ k =>
      have hrest := ih (m.write_wf a v hm) (a + 1) (Nat.lt_of_succ_lt_succ hk)
      rwa [Nat.add_right_comm] at hrest

/-! ## A byte placed for the next step (rules R301, R130) -/

/-- Placing a byte for the next step on the one RAM stores it at `pc` and starts the core. -/
theorem withFetchWord_of_onRam {s : State} {size : Word} {m : Memory} (h : onRam s.bus size m)
    (hpc : s.pc.toNat < size.toNat) (op : Byte) :
    s.withFetchWord 8 op.toNat =
      (s.withBus (.cons (.leaf (.ram size (m.write s.pc.toNat op))) .empty)).withState .running := by
  have hop : BitVec.ofNat 8 (op.toNat % 2 ^ 8) = op := by
    rw [Nat.mod_eq_of_lt op.isLt, BitVec.ofNat_toNat, BitVec.setWidth_eq]
  rw [State.withFetchWord, hop, placeOpcode, h, Bus.loadByte_ram size m _ op hpc]

/-- Settles O9: the RAM answers the fetch with the byte just placed, which runs `i` by `stepRunsDecoded`. -/
theorem placedByteRuns : Obligations.PlacedByteRuns := by
  intro s size m i hram hm hpc hi
  rw [withFetchWord_of_onRam hram hpc]
  have hfetch := ram_get size (m.write s.pc.toNat (encode i)) s.pc hpc
  rw [m.read_write_same _ _ hm] at hfetch
  exact (stepRunsDecoded _ _ _ rfl hfetch).2 i hi (BitVec.setWidth_setWidth_of_le _ (by decide))

/-! ## The boot order (rule R303) -/

/-- `bus.init()` changes nothing on the one RAM. -/
theorem busInit_of_onRam {s : State} {size : Word} {m : Memory} (h : onRam s.bus size m) : busInit s = .ok s := by
  have hinit : s.bus.request .init = (s.bus, .ok 0) := by rw [h]; rfl
  rw [busInit, hinit]
  rfl

/-- The loader leaves the one RAM with the image at address 0. -/
theorem onRam_loadImage {s : State} {size : Word} {m : Memory} {image : List Byte} (h : onRam s.bus size m)
    (hfits : image.length ≤ size.toNat) : onRam (loadImage image s).bus size (m.writeBytes 0 image) := by
  rw [loadImage, State.withBus_bus, h]
  exact loadBytes_ram m (by omega)

/-- On the one RAM the boot of a Stopped core ends Running, with the image loaded and `sp` seeded. -/
theorem launch_of_onRam {s : State} {size : Word} {m : Memory} {image : List Byte} (hs : s.state = .stopped)
    (h : onRam (loadImage image s).bus size m) (sp : Word) :
    launch image sp s = .ok (((loadImage image s).withSp sp).withState .running) := by
  have hstopped : (loadImage image s).state = .stopped := hs
  have hinit : busInit ((loadImage image s).withSp sp) = .ok ((loadImage image s).withSp sp) := busInit_of_onRam h
  rw [launch, seedSp_of_not_running sp (by simp [hstopped])]
  simp only [hinit]
  exact start_of_stopped hs

/-- Settles O60: the boot on the blank RAM, whose byte at `k` is then the image's. -/
theorem launchLoads : Obligations.LaunchLoads := by
  intro image sp hfits
  have hram : onRam (loadImage image .reset).bus ramSize (Memory.blank.writeBytes 0 image) := onRam_loadImage rfl hfits
  refine ⟨_, launch_of_onRam rfl hram sp, rfl, rfl, rfl, rfl, fun k hk => ?_⟩
  have hkSize : k < ramSize.toNat := Nat.lt_of_lt_of_le hk hfits
  have haddr : (BitVec.ofNat 32 k).toNat = k := by
    rw [BitVec.toNat_ofNat, Nat.mod_eq_of_lt (Nat.lt_trans hkSize ramSize.isLt)]
  have hbyte := Memory.read_writeBytes_same (m := .blank) (by decide) 0 hk
  rw [Nat.zero_add] at hbyte
  have hget := onRam_answers_get hram (a := BitVec.ofNat 32 k) (haddr.symm ▸ hkSize)
  rw [haddr, hbyte] at hget
  exact congrArg Prod.snd hget

end Sys2Proof.Machine
end
